-- ==== Sys2Proof/Word.lean ====
section
/-! DEFINITION. The widths every register, byte and stream field of the block is made of. -/

namespace Sys2Proof

/-- A host register, a position, a count or a word of a node record: POS_WIDTH = 32 bits (R10, R45, R120). -/
abbrev Word := BitVec 32

/-- One byte of input memory (R70). -/
abbrev Byte := BitVec 8

/-- A packet's version, VERSION_W = 3 bits (R9). -/
abbrev Version := BitVec 3

/-- A packet's type_tag, TAG_W = 3 bits (R9). -/
abbrev Tag := BitVec 3

/-- The literal accumulator and a literal's value, LIT_WIDTH = 64 bits (R10). -/
abbrev LitWord := BitVec 64

end Sys2Proof
end

