-- ==== Sys2Proof/Config.lean ====
section
/-! DEFINITION. What an implementation fixes (R9, R10), the reference machine's OPEN parameters, and the free values. -/

namespace Sys2Proof

/-- MAX_FIELD_WIDTH: the widest field READ accepts (R10, R142). -/
def Config.maxFieldWidth : Nat := 16

/-- LIT_WIDTH, fixed at 64 for this hardware (R10). -/
def Config.litWidth : Nat := 64

/-- LITERAL_TAG: the type_tag of a literal (R9). -/
def Config.literalTag : Tag := 4

/-- IN_CAPACITY of the reference machine, in bytes: the largest value R10 admits (8·IN_CAPACITY ≤ 2^32 − 1).
DESIGN CHOICE (log 4, unsafe): R10 leaves it OPEN; State carries it, and only `State.reset` takes it from here. -/
def Config.inCapacity : Word := 536870911

/-- STACK_DEPTH of the reference machine as CAP_STACK shows it: 0, unbounded, the source's base design (R11, R45).
DESIGN CHOICE (log 4, unsafe): R10 leaves it OPEN. -/
def Config.stackDepth : Word := 0

/-- NODE_CAPACITY of the reference machine: ⌊8·IN_CAPACITY / 11⌋, the least value R10 admits.
DESIGN CHOICE (log 4, unsafe): R10 leaves it OPEN. -/
def Config.nodeCapacity : Word := 390451571

/-- FREE VALUE (log 6): the byte that input memory holds at an address after its `resets`-th reset, until the host writes
it. R55: unspecified, any value; R90: the bits of unwritten bytes are draws. -/
opaque Config.unwrittenByte (resets address : Nat) : Byte

/-- FREE VALUE (log 7): the word that the `n`-th any-value read returns (R315 result registers while busy, R316 node
reads outside a result). -/
opaque Config.anyWord (n : Nat) : Word

end Sys2Proof
end

