-- ==== Sys2Proof/Syntax.lean ====
section
/-! DEFINITION. The instructions: one constructor per row of spec/opcode_table.json, and the tree they describe. -/

namespace Sys2Proof

/-- The rows of the opcode table (R112). A packet's head is an instruction of the engine, a literal's group is one, and
START is the host's command. An operator's children are packets of their own (R106), so they are no operands.

`.len` rows carry the version and the 15-bit total_bits (R104); `.cnt` rows the version and the 11-bit child_count (R105). -/
inductive Instr where
  /-- LIT (R103): the version, and `c`, the last bit of the 7-bit head window: the continuation bit of group 0, which the
  head does not consume (log 14). -/
  | lit (version : Version) (c : BitVec 1)
  | sumLen (version : Version) (totalBits : BitVec 15)
  | sumCnt (version : Version) (childCount : BitVec 11)
  | productLen (version : Version) (totalBits : BitVec 15)
  | productCnt (version : Version) (childCount : BitVec 11)
  | minLen (version : Version) (totalBits : BitVec 15)
  | minCnt (version : Version) (childCount : BitVec 11)
  | maxLen (version : Version) (totalBits : BitVec 15)
  | maxCnt (version : Version) (childCount : BitVec 11)
  | greaterThanLen (version : Version) (totalBits : BitVec 15)
  | greaterThanCnt (version : Version) (childCount : BitVec 11)
  | lessThanLen (version : Version) (totalBits : BitVec 15)
  | lessThanCnt (version : Version) (childCount : BitVec 11)
  | equalToLen (version : Version) (totalBits : BitVec 15)
  | equalToCnt (version : Version) (childCount : BitVec 11)
  /-- GROUP.CONT (R103): a literal group with continuation bit 1. -/
  | groupCont (nibble : BitVec 4)
  /-- GROUP.LAST (R103): a literal's last group, continuation bit 0. -/
  | groupLast (nibble : BitVec 4)
  /-- START (R261): a host write to CTRL with bit 0 = 1; `reserved` is CTRL[31:1], ignored (R265). -/
  | start (reserved : BitVec 31)
deriving DecidableEq, Repr

/-- The operations an operator packet can name (R42). The block never evaluates them (R7). -/
inductive Operation where
  | sum | product | min | max | greaterThan | lessThan | equalTo
deriving DecidableEq, Repr

/-- A packet of the decoded tree (R43): children in encounter order. -/
inductive Packet where
  | literal (version : Version) (value : LitWord)
  | operator (version : Version) (operation : Operation) (children : List Packet)
deriving Repr

/-- The header every packet begins with (R44). -/
structure Header where
  version : Version
  typeTag : Tag
deriving DecidableEq, Repr

end Sys2Proof
end

