-- ==== Sys2Proof/Machine/State.lean ====
section
/-! DEFINITION. The state of the block: every piece the spec gives it, as plain data, and the state after reset. -/

namespace Sys2Proof.Machine

/-- The state of the decode state machine (R37). -/
inductive Phase where
  | idle | hdrV | hdrT | litC | litG | opM | opL | opN | next | done | error
deriving DecidableEq, Repr

/-- An operator's framing mode, length_type_id (R111). -/
inductive Framing where
  /-- 0: children fill exactly total_bits bits. -/
  | totalLength
  /-- 1: exactly child_count children. -/
  | count
deriving DecidableEq, Repr

/-- One frame of the frame stack: an operator whose children are being decoded (R40). -/
structure Frame where
  ver : Version
  tag : Tag
  mode : Framing
  /-- total_bits, or child_count (below 2^11). -/
  target : BitVec 15
  /-- `pos` after the length or count field, where the children begin. -/
  start : Word
  /-- Children completed so far; NCHILD_W = 12 bits. -/
  n : BitVec 12
deriving DecidableEq, Repr

/-- A node record: three 32-bit words (R120). -/
structure NodeRecord where
  w0 : Word
  w1 : Word
  w2 : Word
deriving DecidableEq, Repr

/-- The kinds of failure ERR_KIND reports (R280); `none` is code 0. `invalidTypeTag` exists and is never raised (R285). -/
inductive ErrorKind where
  | none | insufficientBits | malformedLength | invalidTypeTag | literalOverflow | depthExceeded | configInvalid
deriving DecidableEq, Repr

/-- The host's actions (R260). A register is named by its word number: byte offset 4·`reg`, so that every access is an
aligned 32-bit one (R45, R79; log 11). `reset` is at hand at every moment (R310). -/
inductive HostAction where
  | writeReg (reg : Nat) (word : Word)
  | readReg (reg : Nat)
  | writeIn (k : Nat) (byte : Byte)
  | readIn (k : Nat)
  /-- Word j of record i, j of any size (R268). -/
  | readNode (i j : Nat)
  /-- The node word at byte offset 4·n from the node base (R82). -/
  | readNodeWord (n : Nat)
  | reset
deriving DecidableEq, Repr

/-- Who moves next (R30: host accesses and engine steps interleave in any order). -/
inductive Turn where
  /-- The engine takes one engine step (R225). -/
  | engine
  /-- The engine takes all the steps of the packet head or literal group at the cursor, the host not acting in between
  (log 2). -/
  | instr
  /-- The host acts. -/
  | host (action : HostAction)
deriving DecidableEq, Repr

/-- The block, its two memories, and the model's own record of the host. -/
structure State where
  /-- PHASE (R37). -/
  phase : Phase
  /-- The cursor (R31). -/
  pos : Word
  /-- HV: version of the packet whose header was read last (R36). -/
  hv : Version
  /-- HT: type_tag of that packet (R36). -/
  ht : Tag
  /-- CONT: continuation bit of the group being read (R36). -/
  cont : BitVec 1
  /-- ACC: the literal accumulator (R36). -/
  acc : LitWord
  /-- STACK: the frames, the top one first (R38). -/
  stack : List Frame
  /-- IN (R70): the written bytes by address, in canonical form. -/
  inMem : List Host.Cell
  /-- NODE (R70): the written records by number, in canonical form. -/
  node : List (Nat × NodeRecord)
  /-- NCOUNT, which NODE_COUNT reads (R51, R224). -/
  ncount : Word
  /-- LEN (R47). -/
  len : Word
  /-- START_POS (R48). -/
  startPos : Word
  /-- END_POS (R49). -/
  endPos : Word
  /-- ERR_KIND (R52). -/
  errKind : ErrorKind
  /-- ERR_POS (R52). -/
  errPos : Word
  /-- ERR_A (R52). -/
  errA : Word
  /-- ERR_B (R52). -/
  errB : Word
  /-- CAP_IN: IN_CAPACITY in bytes, hardwired (R45). -/
  capIn : Word
  /-- CAP_STACK: STACK_DEPTH, hardwired; 0 means unbounded (R45). -/
  capStack : Word
  /-- CAP_NODE: NODE_CAPACITY, hardwired (R45). -/
  capNode : Word
  /-- The model's own: the turns still to come (log 1). -/
  turns : List Turn
  /-- The model's own: what the host's last read returned (log 7). -/
  readData : Word
  /-- The model's own: how many any-value words have been drawn (log 7). -/
  draws : Nat
  /-- The model's own: how many resets have happened (log 6). -/
  resets : Nat
deriving DecidableEq, Repr

/-- Why the model stops. None stands for an error of the hardware, which is a next state (R290). -/
inductive Fault where
  /-- Raised by READ below LEN that would touch a byte at or past IN_CAPACITY, which does not exist (R71). Safe: START's
  check makes it unreachable in a decode (R262). -/
  | inputRange
  /-- Raised by Emit when NCOUNT has reached NODE_CAPACITY or a frame's 12-bit child counter is at 4095. Safe: R83 and R205
  show that neither happens in a decode. -/
  | emitRange
  /-- Raised by NEXT on a count frame with more children than its target, which has no frame status and cannot occur
  (R199). Safe. -/
  | frameCount
deriving DecidableEq, Repr

/-- What the model admits no move for. -/
inductive Refusal where
  /-- Raised by an arm of exec whose instruction has no meaning yet; no arm is left. Safe. -/
  | notModelled (mnemonic : String)
  /-- Raised by READ of a width outside 1 to 16 (R142: refused); no engine phase issues one. Safe. -/
  | readWidth (n : Nat)
  /-- Raised by a host write to input memory while busy, which has no move (R314, a host duty). The run that holds one is
  outside the spec. Safe. -/
  | inputWriteWhileBusy
deriving DecidableEq, Repr

/-- The outcome of a step of the block. -/
abbrev Result := Host.Outcome State Fault Refusal

/-- The machine after reset, for the parameters of an instance (R55, R310). -/
def State.resetOf (capIn capStack capNode : Word) : State where
  phase := .idle
  pos := 0
  hv := 0
  ht := 0
  cont := 0
  acc := 0
  stack := []
  inMem := []
  node := []
  ncount := 0
  len := 0
  startPos := 0
  endPos := 0
  errKind := .none
  errPos := 0
  errA := 0
  errB := 0
  capIn := capIn
  capStack := capStack
  capNode := capNode
  turns := []
  readData := 0
  draws := 0
  resets := 0

/-- The reference machine right after reset. The memories list nothing: their contents are unspecified (R55). -/
def State.reset : State := State.resetOf Config.inCapacity Config.stackDepth Config.nodeCapacity

end Sys2Proof.Machine
end

