-- ==== Sys2Proof/Machine/Flags.lean ====
section
/-! DEFINITION. The block's only flag-like state and what is computed from it (R53): STATUS.STATE, the limits of the frame
stack, the status of a frame, and the codes of ERR_KIND. -/

namespace Sys2Proof.Machine

/-- The busy set: HDR_V to NEXT (R37). -/
def busy (s : State) : Bool :=
  match s.phase with
  | .hdrV | .hdrT | .litC | .litG | .opM | .opL | .opN | .next => true
  | .idle | .done | .error => false

/-- STATUS.STATE, computed from PHASE: 0 IDLE, 1 BUSY, 2 DONE, 3 ERROR (R46). -/
def statusState (s : State) : BitVec 2 :=
  match s.phase with
  | .idle => 0
  | .hdrV | .hdrT | .litC | .litG | .opM | .opL | .opN | .next => 1
  | .done => 2
  | .error => 3

/-- STACK_DEPTH, absent when unbounded (R45: CAP_STACK 0). -/
def depthLimit (s : State) : Option Nat := if s.capStack = 0 then none else some s.capStack.toNat

/-- |STACK| ≥ STACK_DEPTH: no frame can be pushed (R197, R203). -/
def stackFull (s : State) : Bool :=
  match depthLimit s with
  | none => false
  | some limit => decide (limit ≤ s.stack.length)

/-- What NEXT learns from the top frame (R199). -/
inductive FrameStatus where
  | more
  | complete
  | overshoot (consumed : Nat)
  /-- A count frame with n > target: R199 gives it no status, and it cannot occur. -/
  | impossible
deriving DecidableEq, Repr

/-- FrameStatus(f, pos) (R199). -/
def frameStatus (f : Frame) (pos : Word) : FrameStatus :=
  match f.mode with
  | .totalLength =>
    let c := pos.toNat - f.start.toNat
    if c < f.target.toNat then .more
    else if c = f.target.toNat then .complete
    else .overshoot c
  | .count =>
    if f.n.toNat < f.target.toNat then .more
    else if f.n.toNat = f.target.toNat then .complete
    else .impossible

/-- The code ERR_KIND shows for a kind (R280). -/
def errorCode : ErrorKind → BitVec 3
  | .none => 0
  | .insufficientBits => 1
  | .malformedLength => 2
  | .invalidTypeTag => 3
  | .literalOverflow => 4
  | .depthExceeded => 5
  | .configInvalid => 6

end Sys2Proof.Machine
end

