-- ==== Sys2Proof/WellFormed.lean ====
section
/-! DEFINITION. Which instructions are well formed. R113: every version, type_tag, framing and field value of a packet is
legal, so the operands' widths leave nothing to check in a packet. R45: a host writes 0 to the reserved bits of CTRL; the
block ignores them (R265), so START runs with any, but only the one with zeros is well formed (log 13). -/

namespace Sys2Proof

/-- The reserved bits of a CTRL write are 0 (R45: "reserved, write 0"). -/
def Instr.reservedZero : Instr → Bool
  | .start reserved => reserved == 0
  | .lit _ _ | .groupCont _ | .groupLast _ => true
  | .sumLen _ _ | .productLen _ _ | .minLen _ _ | .maxLen _ _ => true
  | .greaterThanLen _ _ | .lessThanLen _ _ | .equalToLen _ _ => true
  | .sumCnt _ _ | .productCnt _ _ | .minCnt _ _ | .maxCnt _ _ => true
  | .greaterThanCnt _ _ | .lessThanCnt _ _ | .equalToCnt _ _ => true

/-- An instruction that a host or an encoder following the spec would write. -/
def Instr.wf (i : Instr) : Bool := i.reservedZero

end Sys2Proof
end

