-- ==== Sys2Proof/Decode.lean ====
section
/-! DEFINITION. The decoder, total on every window, and the encoder written from the same layouts (R102 to R105, R112). -/

namespace Sys2Proof

/-- The bits an instruction is read from. A window's first bit in stream order is its most significant bit (R112). -/
inductive Window where
  /-- The 22 stream bits from a packet's first bit on: the 7-bit head window W and the longest field after it. -/
  | head (bits : BitVec 22)
  /-- The 5-bit group window G (R112). -/
  | group (bits : BitVec 5)
  /-- A word the host writes to CTRL (R261). -/
  | ctrl (word : Word)
deriving DecidableEq, Repr

/-- Why a window holds no instruction. -/
inductive DecodeError where
  /-- A CTRL write with bit 0 = 0, which has no effect (R265). -/
  | ctrlWithoutStart
deriving DecidableEq, Repr

/-- A packet's version: offsets 0 to 2, W[6:4] (R102). -/
def Window.version (b : BitVec 22) : Version := b.extractLsb' 19 3

/-- What selects the table's row: type_tag and the bit after it, W[3:0] (R112). -/
def Window.rowKey (b : BitVec 22) : BitVec 4 := b.extractLsb' 15 4

/-- The bit at offset 6: a literal's first continuation bit, an operator's length_type_id (R111). -/
def Window.offset6 (b : BitVec 22) : BitVec 1 := b.extractLsb' 15 1

/-- total_bits: offsets 7 to 21 (R104). -/
def Window.totalBits (b : BitVec 22) : BitVec 15 := b.extractLsb' 0 15

/-- child_count: offsets 7 to 17 (R105). -/
def Window.childCount (b : BitVec 22) : BitVec 11 := b.extractLsb' 4 11

/-- The packet head in a window. W[3:0] is (type_tag << 1) | offset 6, so its sixteen values are the table's rows, a
literal's two among them; every one is defined (R112, R113). -/
def decodeHead (b : BitVec 22) : Instr :=
  let v := Window.version b
  let tb := Window.totalBits b
  let cc := Window.childCount b
  match (Window.rowKey b).toNat with
  | 0x0 => .sumLen v tb
  | 0x1 => .sumCnt v cc
  | 0x2 => .productLen v tb
  | 0x3 => .productCnt v cc
  | 0x4 => .minLen v tb
  | 0x5 => .minCnt v cc
  | 0x6 => .maxLen v tb
  | 0x7 => .maxCnt v cc
  | 0x8 | 0x9 => .lit v (Window.offset6 b)
  | 0xA => .greaterThanLen v tb
  | 0xB => .greaterThanCnt v cc
  | 0xC => .lessThanLen v tb
  | 0xD => .lessThanCnt v cc
  | 0xE => .equalToLen v tb
  | _ => .equalToCnt v cc   -- 0xF, the only value left of the sixteen

/-- The literal group in a window: G[4] is the continuation bit, G[3:0] the nibble (R103, R112). -/
def decodeGroup (g : BitVec 5) : Instr :=
  if g.extractLsb' 4 1 = 1 then .groupCont (g.extractLsb' 0 4) else .groupLast (g.extractLsb' 0 4)

/-- The command in a word written to CTRL: START where bit 0 is 1, nothing otherwise (R261, R265). -/
def decodeCtrl (w : Word) : Except DecodeError Instr :=
  if w.extractLsb' 0 1 = 1 then .ok (.start (w.extractLsb' 1 31)) else .error .ctrlWithoutStart

/-- The decoder: total, and its one rejection has a name. -/
def decode : Window → Except DecodeError Instr
  | .head b => .ok (decodeHead b)
  | .group g => .ok (decodeGroup g)
  | .ctrl w => decodeCtrl w

/-- The window of a total-length operator (R104): version, type_tag, length_type_id 0, total_bits. -/
def lenWindow (tag : Tag) (v : Version) (totalBits : BitVec 15) : Window :=
  .head (v ++ tag ++ 0#1 ++ totalBits)

/-- The window of a count operator (R105): version, type_tag, length_type_id 1, child_count, and 4 bits not its own. -/
def cntWindow (tag : Tag) (v : Version) (childCount : BitVec 11) : Window :=
  .head (v ++ tag ++ 1#1 ++ childCount ++ 0#4)

/-- The encoder: the window of each instruction, bits that are not its own being 0. -/
def encode : Instr → Window
  | .lit v c => .head (v ++ 4#3 ++ c ++ 0#15)
  | .sumLen v n => lenWindow 0 v n
  | .sumCnt v n => cntWindow 0 v n
  | .productLen v n => lenWindow 1 v n
  | .productCnt v n => cntWindow 1 v n
  | .minLen v n => lenWindow 2 v n
  | .minCnt v n => cntWindow 2 v n
  | .maxLen v n => lenWindow 3 v n
  | .maxCnt v n => cntWindow 3 v n
  | .greaterThanLen v n => lenWindow 5 v n
  | .greaterThanCnt v n => cntWindow 5 v n
  | .lessThanLen v n => lenWindow 6 v n
  | .lessThanCnt v n => cntWindow 6 v n
  | .equalToLen v n => lenWindow 7 v n
  | .equalToCnt v n => cntWindow 7 v n
  | .groupCont g => .group (1#1 ++ g)
  | .groupLast g => .group (0#1 ++ g)
  | .start reserved => .ctrl (reserved ++ 1#1)

/-- How many of a window's first bits an instruction determines: the 7-bit window of LIT, 22 and 18 bits of an operator's
head, 5 of a group, the whole CTRL word (R103 to R105, R112). -/
def Instr.encodedWidth : Instr → Nat
  | .lit _ _ => 7
  | .sumLen _ _ | .productLen _ _ | .minLen _ _ | .maxLen _ _ => 22
  | .greaterThanLen _ _ | .lessThanLen _ _ | .equalToLen _ _ => 22
  | .sumCnt _ _ | .productCnt _ _ | .minCnt _ _ | .maxCnt _ _ => 18
  | .greaterThanCnt _ _ | .lessThanCnt _ _ | .equalToCnt _ _ => 18
  | .groupCont _ | .groupLast _ => 5
  | .start _ => 32

/-- A row of spec/opcode_table.json: it matches a window value `x` of its width when `x &&& mask = pattern` (R112). -/
structure Row where
  mnemonic : String
  width : Nat
  mask : BitVec 32
  pattern : BitVec 32
deriving DecidableEq, Repr

/-- The head rows: the literal, then each operation in both framings; match = (tag << 1) | mode (R112). -/
def headRows : List Row :=
  [⟨"LIT", 7, 0x0E, 0x08⟩,
   ⟨"SUM.LEN", 7, 0x0F, 0x00⟩, ⟨"SUM.CNT", 7, 0x0F, 0x01⟩,
   ⟨"PRODUCT.LEN", 7, 0x0F, 0x02⟩, ⟨"PRODUCT.CNT", 7, 0x0F, 0x03⟩,
   ⟨"MIN.LEN", 7, 0x0F, 0x04⟩, ⟨"MIN.CNT", 7, 0x0F, 0x05⟩,
   ⟨"MAX.LEN", 7, 0x0F, 0x06⟩, ⟨"MAX.CNT", 7, 0x0F, 0x07⟩,
   ⟨"GREATERTHAN.LEN", 7, 0x0F, 0x0A⟩, ⟨"GREATERTHAN.CNT", 7, 0x0F, 0x0B⟩,
   ⟨"LESSTHAN.LEN", 7, 0x0F, 0x0C⟩, ⟨"LESSTHAN.CNT", 7, 0x0F, 0x0D⟩,
   ⟨"EQUALTO.LEN", 7, 0x0F, 0x0E⟩, ⟨"EQUALTO.CNT", 7, 0x0F, 0x0F⟩]

/-- The group rows (R112). -/
def groupRows : List Row := [⟨"GROUP.CONT", 5, 0x10, 0x10⟩, ⟨"GROUP.LAST", 5, 0x10, 0x00⟩]

/-- The command row (R112, R261). -/
def ctrlRows : List Row := [⟨"START", 32, 0x00000001, 0x00000001⟩]

/-- Does a row match a window's value? -/
def Row.hits (r : Row) (x : BitVec 32) : Bool := x &&& r.mask == r.pattern

/-- The value the table's rows are matched against: W, G or the CTRL word (R112). -/
def Window.tableValue : Window → BitVec 32
  | .head b => (b.extractLsb' 15 7).setWidth 32
  | .group g => g.setWidth 32
  | .ctrl w => w

/-- The rows a kind of window is looked up in. -/
def Window.rows : Window → List Row
  | .head _ => headRows
  | .group _ => groupRows
  | .ctrl _ => ctrlRows

/-- The mnemonic of each instruction in the opcode table. -/
def Instr.mnemonic : Instr → String
  | .lit _ _ => "LIT"
  | .sumLen _ _ => "SUM.LEN"
  | .sumCnt _ _ => "SUM.CNT"
  | .productLen _ _ => "PRODUCT.LEN"
  | .productCnt _ _ => "PRODUCT.CNT"
  | .minLen _ _ => "MIN.LEN"
  | .minCnt _ _ => "MIN.CNT"
  | .maxLen _ _ => "MAX.LEN"
  | .maxCnt _ _ => "MAX.CNT"
  | .greaterThanLen _ _ => "GREATERTHAN.LEN"
  | .greaterThanCnt _ _ => "GREATERTHAN.CNT"
  | .lessThanLen _ _ => "LESSTHAN.LEN"
  | .lessThanCnt _ _ => "LESSTHAN.CNT"
  | .equalToLen _ _ => "EQUALTO.LEN"
  | .equalToCnt _ _ => "EQUALTO.CNT"
  | .groupCont _ => "GROUP.CONT"
  | .groupLast _ => "GROUP.LAST"
  | .start _ => "START"

/-- The window that `nbits` bits of the opcode table stand for, `w` numbered as the table numbers them. 5 bits are a group
window, 7 a head window, 32 a CTRL word. Rounded to whole bytes a head and a group are both 8 bits, and the number alone
cannot tell them apart (in the machine PHASE does): 8 is taken as a head window (log 16). Operand bits after W are 0. -/
def tableWindow (nbits w : Nat) : Option Window :=
  if nbits = 32 then
    if w < 2 ^ 32 then some (.ctrl (BitVec.ofNat 32 w)) else none
  else if nbits = 7 ∨ nbits = 8 then
    if w < 2 ^ 7 then some (.head (BitVec.ofNat 7 w ++ 0#15)) else none
  else if nbits = 5 then
    if w < 2 ^ 5 then some (.group (BitVec.ofNat 5 w)) else none
  else none

/-- The instruction the decoder reads from a word of the opcode table. -/
def decodeTableWord (nbits w : Nat) : Option Instr :=
  match tableWindow nbits w with
  | some x =>
    match decode x with
    | .ok i => some i
    | .error _ => none
  | none => none

end Sys2Proof
end

