-- ==== Sys2Proof/Machine/Memory.lean ====
section
/-! DEFINITION. Memory as a list of (address, content) pairs in one canonical form: addresses strictly rising. An address
not listed has no stored content, so no entry can repeat what an unlisted address reads as (log 8). Input memory and node
memory are both held so (R70). -/

namespace Sys2Proof.Machine

variable {α : Type}

/-- What is stored at an address, if anything is. -/
def Memory.read : List (Nat × α) → Nat → Option α
  | [], _ => none
  | (a, x) :: rest, k => if a = k then some x else Memory.read rest k

/-- Store `x` at address `k`, keeping the addresses rising. -/
def Memory.write : List (Nat × α) → Nat → α → List (Nat × α)
  | [], k, x => [(k, x)]
  | (a, y) :: rest, k, x =>
    if k < a then (k, x) :: (a, y) :: rest
    else if k = a then (k, x) :: rest
    else (a, y) :: Memory.write rest k x

/-- All addresses of a memory are above `a`, and rise. -/
def Memory.risesFrom : Nat → List (Nat × α) → Bool
  | _, [] => true
  | a, (b, _) :: rest => decide (a < b) && Memory.risesFrom b rest

/-- The canonical form. -/
def Memory.wf : List (Nat × α) → Bool
  | [] => true
  | (a, _) :: rest => Memory.risesFrom a rest

/-- Every listed address is below `bound`. -/
def Memory.below (bound : Nat) (m : List (Nat × α)) : Bool := m.all fun e => decide (e.1 < bound)

end Sys2Proof.Machine
end

