-- ==== Sys2Proof/Machine/Operands.lean ====
section
/-! DEFINITION. The operands: how bits of the input stream become field values (20_memory.md, 40_bit_cursor.md), the operation
a tag names (R191), and the layout of a node record (R120). -/

namespace Sys2Proof.Machine

/-- MemRead(k, 1): byte k of input memory as it stands; a byte that nothing has written since the last reset is a free
value (R72, R90; log 6). -/
def inByte (s : State) (k : Nat) : Byte :=
  (Memory.read s.inMem k).getD (Config.unwrittenByte s.resets k)

/-- B[i]: bit 7 − (i mod 8) of byte ⌊i/8⌋, most significant bit first (R73). -/
def streamBit (s : State) (i : Nat) : Bool :=
  (inByte s (i / 8)).getLsbD (7 - i % 8)

/-- BE(p, n): the big-endian value of the n bits from p on (R13). -/
def bigEndian (bit : Nat → Bool) (p : Nat) : Nat → Nat
  | 0 => 0
  | n + 1 => 2 * bigEndian bit p n + (bit (p + n)).toNat

/-- The n-bit field of the stream at position p (R74). -/
def fieldAt (s : State) (p n : Nat) : BitVec n := BitVec.ofNat n (bigEndian (streamBit s) p n)

/-- Does stream bit i exist: below LEN, and in a byte of input memory (R71)? -/
def bitExists (s : State) (i : Nat) : Bool := decide (i < s.len.toNat) && decide (i < 8 * s.capIn.toNat)

/-- The n bits from p on, looked at to tell which instruction stands there (R112). A bit that does not exist is not read and
counts as 0: the instruction's own READs report it (log 15). -/
def windowAt (s : State) (p n : Nat) : BitVec n :=
  BitVec.ofNat n (bigEndian (fun i => bitExists s i && streamBit s i) p n)

/-- Bytes k, k+1, …, as one big-endian number. -/
def bytesValue (s : State) (k : Nat) : Nat → Nat
  | 0 => 0
  | m + 1 => 256 * bytesValue s k m + (inByte s (k + m)).toNat

/-- The byte-window form of the extractor (R146): the bytes that cover the field, shifted and masked. -/
def byteWindowField (s : State) (p n : Nat) : Nat :=
  let o := p % 8
  let m := (o + n + 7) / 8
  bytesValue s (p / 8) m >>> (8 * m - o - n) &&& (2 ^ n - 1)

/-- OpOf as a tagged result: the operation of an operator tag, and nothing for tag 4, where the functional form answers
InvalidTypeTag (R191, R192). -/
def opOf (t : Tag) : Option Operation :=
  match t.toNat with
  | 0 => some .sum
  | 1 => some .product
  | 2 => some .min
  | 3 => some .max
  | 5 => some .greaterThan
  | 6 => some .lessThan
  | 7 => some .equalTo
  | _ => none   -- 4, a literal

/-- W0 of a node record: reserved [31:19], NCHILD [18:7], TAG [6:4], VERSION [3:1], KIND [0] (R120). -/
def recordHead (nchild : BitVec 12) (tag : Tag) (ver : Version) (kind : BitVec 1) : Word :=
  0#13 ++ nchild ++ tag ++ ver ++ kind

/-- The record of a literal: KIND 0, TAG 4, NCHILD 0, the value in two words (R120, R229). -/
def literalRecord (ver : Version) (value : LitWord) : NodeRecord where
  w0 := recordHead 0 Config.literalTag ver 0
  w1 := value.extractLsb' 0 32
  w2 := value.extractLsb' 32 32

/-- The record of an operator: KIND 1, its tag and child count, VALUE 0 (R120, R230). -/
def operatorRecord (f : Frame) : NodeRecord where
  w0 := recordHead f.n f.tag f.ver 1
  w1 := 0
  w2 := 0

/-- KIND of a record (R120). -/
def recordKind (r : NodeRecord) : BitVec 1 := r.w0.extractLsb' 0 1

/-- VERSION of a record (R120). -/
def recordVersion (r : NodeRecord) : Version := r.w0.extractLsb' 1 3

/-- TAG of a record (R120). -/
def recordTag (r : NodeRecord) : Tag := r.w0.extractLsb' 4 3

/-- NCHILD of a record (R120). -/
def recordChildren (r : NodeRecord) : BitVec 12 := r.w0.extractLsb' 7 12

/-- VALUE of a record: VALUE_HI and VALUE_LO (R120). -/
def recordValue (r : NodeRecord) : LitWord := r.w2 ++ r.w1

/-- Word j of a record, j ∈ {0, 1, 2} (R82, R268). -/
def recordWord (r : NodeRecord) (j : Nat) : Word :=
  if j = 0 then r.w0 else if j = 1 then r.w1 else r.w2

end Sys2Proof.Machine
end

