-- ==== Sys2Proof/Machine/Ops.lean ====
section
/-! DEFINITION. The operations every step and every instruction is made of: error entry, READ, Emit, the frame stack. -/

namespace Sys2Proof.Machine

/-- ErrorEntry(E, P, A, B): the block's one way to take an error. Nothing else of the failing step is written; HV, HT, CONT,
ACC, the cursor and the node memory stay (R290, R291). There is no return from it but START and reset (R292). -/
def errorEntry (e : ErrorKind) (p a b : Word) (s : State) : State :=
  { s with
    errKind := e
    errPos := p
    errA := a
    errB := b
    endPos := p
    ncount := 0
    stack := []
    phase := .error }

/-- bits_remaining = LEN − pos (R34, R149). -/
def bitsRemaining (s : State) : Word := s.len - s.pos

/-- InsufficientBits(requested n, available LEN − pos, position pos) (R143, R282). -/
def insufficientBits (n : Nat) (s : State) : State :=
  errorEntry .insufficientBits s.pos (BitVec.ofNat 32 n) (bitsRemaining s) s

/-- The cursor moves n bits on (R33). -/
def moveCursor (n : Nat) (s : State) : State := { s with pos := s.pos + BitVec.ofNat 32 n }

/-- The cursor's part of READ(n) (R143, R144): the width must be 1 to 16 (R142), the field must end at or below LEN, and
`k` goes on with the cursor moved past it. -/
def takeField (n : Nat) (s : State) (k : State → Result) : Result :=
  if n = 0 ∨ Config.maxFieldWidth < n then .refused (.readWidth n)
  else if s.len.toNat < s.pos.toNat + n then .next (insufficientBits n s)
  else if 8 * s.capIn.toNat < s.pos.toNat + n then .fault .inputRange
  else k (moveCursor n s)

/-- READ(n): bounds check, big-endian value, cursor advance (R143). -/
def readField (n : Nat) (s : State) (k : BitVec n → State → Result) : Result :=
  takeField n s fun s1 => k (fieldAt s s.pos.toNat n) s1

/-- The child counters after an emission: the record is a child of the top frame (R228). -/
def countChild : List Frame → List Frame
  | [] => []
  | f :: rest => { f with n := f.n + 1 } :: rest

/-- Has the top frame room for another child in its 12-bit counter? R205 shows it always has. -/
def childRoom : List Frame → Bool
  | [] => true
  | f :: _ => decide (f.n.toNat < 4095)

/-- Emit(rec): the block's only store (R228). NCOUNT < NODE_CAPACITY holds before every Emit of a decode (R83). -/
def emit (r : NodeRecord) (s : State) : Result :=
  if s.ncount.toNat < s.capNode.toNat && childRoom s.stack then
    .next { s with
      node := Memory.write s.node s.ncount.toNat r
      ncount := s.ncount + 1
      stack := countChild s.stack }
  else .fault .emitRange

/-- Push of an operator's frame from HV and HT, with no child yet, at the cursor (R197, R198). -/
def pushFrame (mode : Framing) (target : BitVec 15) (s : State) : State :=
  { s with
    stack := { ver := s.hv, tag := s.ht, mode := mode, target := target, start := s.pos, n := 0 } :: s.stack }

/-- One step after another: the second runs only if the first left the decode going. -/
def thenStep (o : Result) (k : State → Result) : Result :=
  match o with
  | .next s => if s.phase = .error then .next s else k s
  | .fault f => .fault f
  | .refused r => .refused r

end Sys2Proof.Machine
end

