-- ==== Sys2Proof/Machine/HeaderReader.lean ====
section
/-! DEFINITION. The header reader's machine steps (41_header_reader.md): what each does once its READ has delivered a value
and moved the cursor. -/

namespace Sys2Proof.Machine

/-- Step HDR_V after READ(3): the version to HV (R163). -/
def versionRead (v : Version) (s : State) : Result := .next { s with hv := v, phase := .hdrT }

/-- Step HDR_T after READ(3), with dispatch: the type_tag to HT; 4 clears ACC and goes to the literal reader, the other seven
to the operator reader (R164). -/
def tagRead (t : Tag) (s : State) : Result :=
  if t = Config.literalTag then .next { s with ht := t, acc := 0, phase := .litC }
  else .next { s with ht := t, phase := .opM }

end Sys2Proof.Machine
end

