-- ==== Sys2Proof/Machine/LiteralReader.lean ====
section
/-! DEFINITION. The literal reader's machine steps (42_literal_reader.md): what each does once its READ has delivered a value
and moved the cursor. -/

namespace Sys2Proof.Machine

/-- The accumulator with one more nibble, exact: ACC · 16 + g (R178, R16). -/
def accumulate (acc : LitWord) (g : BitVec 4) : Nat := acc.toNat * 16 + g.toNat

/-- LiteralOverflow at the nibble field (R175, R281); `before` is the state before that field was read. -/
def literalOverflow (before : State) : State :=
  errorEntry .literalOverflow before.pos (BitVec.ofNat 32 Config.litWidth) 0 before

/-- Step LIT_C after READ(1): the continuation bit to CONT (R177). -/
def continuationRead (c : BitVec 1) (s : State) : Result := .next { s with cont := c, phase := .litG }

/-- Step LIT_G after READ(4): the overflow check, at which the cursor is not advanced; then the accumulator, and for the last
group the literal's record (R178, R175, R229). -/
def nibbleRead (before : State) (g : BitVec 4) (s : State) : Result :=
  if 2 ^ Config.litWidth ≤ accumulate s.acc g then .next (literalOverflow before)
  else
    let a : LitWord := BitVec.ofNat 64 (accumulate s.acc g)
    if s.cont = 1 then .next { s with acc := a, phase := .litC }
    else emit (literalRecord s.hv a) { s with acc := a, phase := .next }

end Sys2Proof.Machine
end

