-- ==== Sys2Proof/Machine/Literal.lean ====
section
/-! DEFINITION. The meanings of LIT, GROUP.CONT and GROUP.LAST: the engine steps of a literal's head and of one group, one
after another, with the field values the instruction carries. -/

namespace Sys2Proof.Machine

/-- The 6-bit header: HDR_V, then HDR_T (R160, R163, R164). -/
def headerSteps (v : Version) (t : Tag) (s : State) : Result :=
  thenStep (takeField 3 s (versionRead v)) fun s1 => takeField 3 s1 (tagRead t)

/-- One 5-bit group: LIT_C, then LIT_G (R177, R178). -/
def groupSteps (c : BitVec 1) (g : BitVec 4) (s : State) : Result :=
  thenStep (takeField 1 s (continuationRead c)) fun s1 => takeField 4 s1 (nibbleRead s1 g)

/-- LIT (R103): the header with type_tag 4; ACC is cleared and the groups come next. `c` belongs to the first group, whose
own READ takes it (log 14). -/
def execLit (v : Version) (_c : BitVec 1) (s : State) : Result := headerSteps v Config.literalTag s

/-- GROUP.CONT (R103): the nibble joins ACC, and another group follows. -/
def execGroupCont (g : BitVec 4) (s : State) : Result := groupSteps 1 g s

/-- GROUP.LAST (R103): the nibble joins ACC, and the literal is emitted. -/
def execGroupLast (g : BitVec 4) (s : State) : Result := groupSteps 0 g s

end Sys2Proof.Machine
end

