-- ==== Sys2Proof/Machine/OperatorReader.lean ====
section
/-! DEFINITION. The operator reader's machine steps (43_operator_reader.md): what each does once its READ has delivered a
value and moved the cursor. -/

namespace Sys2Proof.Machine

/-- DepthExceeded(limit STACK_DEPTH) at the length or count field (R203, R281); `before` is the state before that field was
read. -/
def depthExceeded (before : State) : State := errorEntry .depthExceeded before.pos before.capStack 0 before

/-- Step OP_M after READ(1): length_type_id 0 is total-length mode, 1 count mode; PHASE keeps it (R196). -/
def modeRead (m : BitVec 1) (s : State) : Result :=
  .next { s with phase := if m = 0 then .opL else .opN }

/-- Step OP_L after READ(15): the depth check, then a total-length frame (R197). -/
def totalBitsRead (before : State) (totalBits : BitVec 15) (s : State) : Result :=
  if stackFull s then .next (depthExceeded before)
  else .next { pushFrame .totalLength totalBits s with phase := .next }

/-- Step OP_N after READ(11): the depth check, then a count frame (R198). -/
def childCountRead (before : State) (childCount : BitVec 11) (s : State) : Result :=
  if stackFull s then .next (depthExceeded before)
  else .next { pushFrame .count (childCount.setWidth 15) s with phase := .next }

end Sys2Proof.Machine
end

