-- ==== Sys2Proof/Machine/Operator.lean ====
section
/-! DEFINITION. The meanings of the fourteen operator heads: header, mode bit, length or count field, and the push of the
frame under which the children are decoded as packets of their own (R106, R193). -/

namespace Sys2Proof.Machine

/-- An operator's head in total-length mode: HDR_V, HDR_T, OP_M, OP_L (R104, R193). -/
def lenHead (t : Tag) (v : Version) (totalBits : BitVec 15) (s : State) : Result :=
  thenStep (thenStep (headerSteps v t s) fun s2 => takeField 1 s2 (modeRead 0)) fun s3 =>
    takeField 15 s3 (totalBitsRead s3 totalBits)

/-- An operator's head in count mode: HDR_V, HDR_T, OP_M, OP_N (R105, R193). -/
def cntHead (t : Tag) (v : Version) (childCount : BitVec 11) (s : State) : Result :=
  thenStep (thenStep (headerSteps v t s) fun s2 => takeField 1 s2 (modeRead 1)) fun s3 =>
    takeField 11 s3 (childCountRead s3 childCount)

/-- SUM.LEN: Sum, type_tag 0, total-length mode (R104, R110). -/
def execSumLen (v : Version) (totalBits : BitVec 15) (s : State) : Result := lenHead 0 v totalBits s

/-- SUM.CNT: Sum, type_tag 0, count mode (R105, R110). -/
def execSumCnt (v : Version) (childCount : BitVec 11) (s : State) : Result := cntHead 0 v childCount s

/-- PRODUCT.LEN: Product, type_tag 1, total-length mode (R104, R110). -/
def execProductLen (v : Version) (totalBits : BitVec 15) (s : State) : Result := lenHead 1 v totalBits s

/-- PRODUCT.CNT: Product, type_tag 1, count mode (R105, R110). -/
def execProductCnt (v : Version) (childCount : BitVec 11) (s : State) : Result := cntHead 1 v childCount s

/-- MIN.LEN: Min, type_tag 2, total-length mode (R104, R110). -/
def execMinLen (v : Version) (totalBits : BitVec 15) (s : State) : Result := lenHead 2 v totalBits s

/-- MIN.CNT: Min, type_tag 2, count mode (R105, R110). -/
def execMinCnt (v : Version) (childCount : BitVec 11) (s : State) : Result := cntHead 2 v childCount s

/-- MAX.LEN: Max, type_tag 3, total-length mode (R104, R110). -/
def execMaxLen (v : Version) (totalBits : BitVec 15) (s : State) : Result := lenHead 3 v totalBits s

/-- MAX.CNT: Max, type_tag 3, count mode (R105, R110). -/
def execMaxCnt (v : Version) (childCount : BitVec 11) (s : State) : Result := cntHead 3 v childCount s

/-- GREATERTHAN.LEN: GreaterThan, type_tag 5, total-length mode (R104, R110). -/
def execGreaterThanLen (v : Version) (totalBits : BitVec 15) (s : State) : Result := lenHead 5 v totalBits s

/-- GREATERTHAN.CNT: GreaterThan, type_tag 5, count mode (R105, R110). -/
def execGreaterThanCnt (v : Version) (childCount : BitVec 11) (s : State) : Result := cntHead 5 v childCount s

/-- LESSTHAN.LEN: LessThan, type_tag 6, total-length mode (R104, R110). -/
def execLessThanLen (v : Version) (totalBits : BitVec 15) (s : State) : Result := lenHead 6 v totalBits s

/-- LESSTHAN.CNT: LessThan, type_tag 6, count mode (R105, R110). -/
def execLessThanCnt (v : Version) (childCount : BitVec 11) (s : State) : Result := cntHead 6 v childCount s

/-- EQUALTO.LEN: EqualTo, type_tag 7, total-length mode (R104, R110). -/
def execEqualToLen (v : Version) (totalBits : BitVec 15) (s : State) : Result := lenHead 7 v totalBits s

/-- EQUALTO.CNT: EqualTo, type_tag 7, count mode (R105, R110). -/
def execEqualToCnt (v : Version) (childCount : BitVec 11) (s : State) : Result := cntHead 7 v childCount s

end Sys2Proof.Machine
end

