-- ==== Sys2Proof/Machine/Start.lean ====
section
/-! DEFINITION. The meaning of START, the host's command (45_host_commands.md). -/

namespace Sys2Proof.Machine

/-- START's configuration check: LEN ≤ 8·IN_CAPACITY and START_POS ≤ LEN (R262). -/
def configLegal (s : State) : Bool :=
  decide (s.len.toNat ≤ 8 * s.capIn.toNat) && decide (s.startPos.toNat ≤ s.len.toNat)

/-- ConfigInvalid(len, start_pos), at START_POS (R262, R281, R287). -/
def configInvalid (s : State) : State := errorEntry .configInvalid s.startPos s.len s.startPos s

/-- A new decode at START_POS, with nothing of an earlier one left (R261, R264). -/
def launch (s : State) : State :=
  { s with
    pos := s.startPos
    stack := []
    hv := 0
    ht := 0
    cont := 0
    acc := 0
    ncount := 0
    endPos := 0
    errKind := .none
    errPos := 0
    errA := 0
    errB := 0
    phase := .hdrV }

/-- START: ignored while busy (R263), ConfigInvalid for an illegal configuration (R262), else a new decode. The reserved bits
of the CTRL word are ignored (R265). -/
def execStart (_reserved : BitVec 31) (s : State) : Result :=
  if busy s then .next s
  else if configLegal s then .next (launch s)
  else .next (configInvalid s)

end Sys2Proof.Machine
end

