-- ==== Sys2Proof/Machine/Dispatch.lean ====
section
/-! DEFINITION. One arm per instruction: the call of its meaning. -/

namespace Sys2Proof.Machine

def exec (i : Instr) (s : State) : Host.Outcome State Fault Refusal :=
  match i with
  | .lit v c => Sys2Proof.Machine.execLit v c s
  | .sumLen v n => Sys2Proof.Machine.execSumLen v n s
  | .sumCnt v n => Sys2Proof.Machine.execSumCnt v n s
  | .productLen v n => Sys2Proof.Machine.execProductLen v n s
  | .productCnt v n => Sys2Proof.Machine.execProductCnt v n s
  | .minLen v n => Sys2Proof.Machine.execMinLen v n s
  | .minCnt v n => Sys2Proof.Machine.execMinCnt v n s
  | .maxLen v n => Sys2Proof.Machine.execMaxLen v n s
  | .maxCnt v n => Sys2Proof.Machine.execMaxCnt v n s
  | .greaterThanLen v n => Sys2Proof.Machine.execGreaterThanLen v n s
  | .greaterThanCnt v n => Sys2Proof.Machine.execGreaterThanCnt v n s
  | .lessThanLen v n => Sys2Proof.Machine.execLessThanLen v n s
  | .lessThanCnt v n => Sys2Proof.Machine.execLessThanCnt v n s
  | .equalToLen v n => Sys2Proof.Machine.execEqualToLen v n s
  | .equalToCnt v n => Sys2Proof.Machine.execEqualToCnt v n s
  | .groupCont g => Sys2Proof.Machine.execGroupCont g s
  | .groupLast g => Sys2Proof.Machine.execGroupLast g s
  | .start reserved => Sys2Proof.Machine.execStart reserved s

end Sys2Proof.Machine
end

