-- ==== Sys2Proof/Machine/TreeBuilder.lean ====
section
/-! DEFINITION. The packet-tree builder: step NEXT, and the engine's step function (44_tree_builder.md). -/

namespace Sys2Proof.Machine

/-- MalformedLength(expected_total_bits, actual_consumed), at the end of the child that overshot (R236, R281). -/
def malformedLength (f : Frame) (consumed : Nat) (s : State) : State :=
  errorEntry .malformedLength s.pos (f.target.setWidth 32) (BitVec.ofNat 32 consumed) s

/-- Step NEXT: with no frame the decode is done (R232); else the top frame starts a child (R235), is popped and emitted
(R234), or has been overshot (R236). It reads no input bit (R233). -/
def stepNext (s : State) : Result :=
  match s.stack with
  | [] => .next { s with endPos := s.pos, phase := .done }
  | f :: rest =>
    match frameStatus f s.pos with
    | .more => .next { s with phase := .hdrV }
    | .complete => emit (operatorRecord f) { s with stack := rest, phase := .next }
    | .overshoot consumed => .next (malformedLength f consumed s)
    | .impossible => .fault .frameCount

/-- One engine step: for each busy PHASE exactly one, each read phase performing one READ of fixed width (R225, R231). In
IDLE, DONE and ERROR the engine has no step, and nothing changes (R226; log 3). -/
def engineStep (s : State) : Result :=
  match s.phase with
  | .hdrV => readField 3 s versionRead
  | .hdrT => readField 3 s tagRead
  | .litC => readField 1 s continuationRead
  | .litG => readField 4 s (nibbleRead s)
  | .opM => readField 1 s modeRead
  | .opL => readField 15 s (totalBitsRead s)
  | .opN => readField 11 s (childCountRead s)
  | .next => stepNext s
  | .idle | .done | .error => .next s

end Sys2Proof.Machine
end

