-- ==== Sys2Proof/Machine/Fetch.lean ====
section
/-! DEFINITION. Fetching: which instruction stands at the cursor, running it whole, and placing one to be run next. -/

namespace Sys2Proof.Machine

/-- The window of the instruction the engine has come to: a packet head in HDR_V, a literal group in LIT_C, none in the
phases inside an instruction, in NEXT, or where the engine has no step (R112, R225). -/
def fetchWindow (s : State) : Option Window :=
  match s.phase with
  | .hdrV => some (.head (windowAt s s.pos.toNat 22))
  | .litC => some (.group (windowAt s s.pos.toNat 5))
  | .idle | .hdrT | .litG | .opM | .opL | .opN | .next | .done | .error => none

/-- The engine runs the instruction at the cursor to its end, the host not acting in between; where none begins, it takes one
engine step (log 2). -/
def instrStep (s : State) : Result :=
  match fetchWindow s with
  | some x =>
    match decode x with
    | .ok i => exec i s
    | .error .ctrlWithoutStart => .next s
  | none => engineStep s

/-- Store consecutive bytes from address `k` on. -/
def storeBytes : List (Nat × Byte) → Nat → List Byte → List (Nat × Byte)
  | m, _, [] => m
  | m, k, b :: rest => storeBytes (Memory.write m k b) (k + 1) rest

/-- The input bytes that begin with a head window, the bits after it 0 (R73). -/
def headBytes (b : BitVec 22) : List Byte :=
  let x : BitVec 24 := b ++ 0#2
  [x.extractLsb' 16 8, x.extractLsb' 8 8, x.extractLsb' 0 8]

/-- The state in which a window is what the next step fetches and runs (log 17). A head or a group is placed at stream
position 0 of a stream of whole bytes, in the phase that reads it; a CTRL word is the host's next action. -/
def placeWindow (x : Window) (s : State) : State :=
  match x with
  | .head b =>
    { s with
      inMem := storeBytes s.inMem 0 (headBytes b)
      len := 24
      startPos := 0
      pos := 0
      phase := .hdrV
      turns := [.instr] }
  | .group g =>
    { s with
      inMem := storeBytes s.inMem 0 [g ++ 0#3]
      len := 8
      startPos := 0
      pos := 0
      phase := .litC
      turns := [.instr] }
  | .ctrl w => { s with turns := [.host (.writeReg 0 w)] }

/-- `placeWindow` for a word of the opcode table; a word the table has no window for changes nothing. -/
def placeTableWord (s : State) (nbits w : Nat) : State :=
  match tableWindow nbits w with
  | some x => placeWindow x s
  | none => s

end Sys2Proof.Machine
end

