-- ==== Sys2Proof/Machine/AddressMap.lean ====
section
/-! DEFINITION. The address map (R82): where the platform's three windows put each register, input byte and node word, and which
host action an access to an address is. -/

namespace Sys2Proof.Machine

/-- The address spaces of the block (R70). -/
inductive Space where
  | registers | input | node
deriving DecidableEq, Repr

/-- The base addresses that the platform chooses; the block fixes none (R82). -/
structure Placement where
  registers : Nat
  input : Nat
  node : Nat
deriving DecidableEq, Repr

/-- The host's accesses by width (R79). -/
inductive Access where
  | readWord | writeWord (word : Word)
  | readByte | writeByte (byte : Byte)
deriving DecidableEq, Repr

/-- The base of a space. -/
def Placement.base (p : Placement) : Space → Nat
  | .registers => p.registers
  | .input => p.input
  | .node => p.node

/-- The address of the register at word number `reg` (R45). -/
def Placement.regAddress (p : Placement) (reg : Nat) : Nat := p.registers + 4 * reg

/-- The address of IN[k]: input base + k (R82). -/
def Placement.inAddress (p : Placement) (k : Nat) : Nat := p.input + k

/-- The address of word j of node record i: node base + 12·i + 4·j (R82). -/
def Placement.nodeAddress (p : Placement) (i j : Nat) : Nat := p.node + 12 * i + 4 * j

/-- The node word at word number `n`, byte offset 4·n = 12·i + 4·j: record i and word j ∈ {0, 1, 2} (R82). -/
def nodeWordAt (n : Nat) : Nat × Nat := (n / 3, n % 3)

/-- The action of an aligned word access at a byte offset; none at an offset that is not aligned (R45, R79; log 11). -/
def alignedAction (offset : Nat) (action : Nat → HostAction) : Option HostAction :=
  if offset % 4 = 0 then some (action (offset / 4)) else none

/-- The host action that an access at a byte offset into a space is; none for an access the space does not have: another width
(R79, D25), or a write to node memory (R268). -/
def accessAction (space : Space) (access : Access) (offset : Nat) : Option HostAction :=
  match space, access with
  | .registers, .readWord => alignedAction offset .readReg
  | .registers, .writeWord w => alignedAction offset fun reg => .writeReg reg w
  | .input, .readByte => some (.readIn offset)
  | .input, .writeByte b => some (.writeIn offset b)
  | .node, .readWord => alignedAction offset .readNodeWord
  | .registers, .readByte | .registers, .writeByte _ => none
  | .input, .readWord | .input, .writeWord _ => none
  | .node, .writeWord _ | .node, .readByte | .node, .writeByte _ => none

/-- The host action that an access to a platform address is, the platform having selected the space (R82; log 26). -/
def Placement.action (p : Placement) (space : Space) (access : Access) (address : Nat) : Option HostAction :=
  if p.base space ≤ address then accessAction space access (address - p.base space) else none

end Sys2Proof.Machine
end

