-- ==== Sys2Proof/Machine/HostPort.lean ====
section
/-! DEFINITION. The host's actions (45_host_commands.md, 70_reset_and_hazards.md). -/

namespace Sys2Proof.Machine

/-- The host-visible registers (R45). -/
inductive Reg where
  | ctrl | status | len | startPos | endPos | nodeCount | errKind | errPos | errA | errB | capIn | capStack | capNode
deriving DecidableEq, Repr

/-- The register at byte offset 4·`reg`; none at a reserved offset (R45). -/
def regAt (reg : Nat) : Option Reg :=
  match reg with
  | 0x0 => some .ctrl       -- 0x00
  | 0x1 => some .status     -- 0x04
  | 0x2 => some .len        -- 0x08
  | 0x3 => some .startPos   -- 0x0C
  | 0x4 => some .endPos     -- 0x10
  | 0x5 => some .nodeCount  -- 0x14
  | 0x6 => some .errKind    -- 0x18
  | 0x7 => some .errPos     -- 0x1C
  | 0x8 => some .errA       -- 0x20
  | 0x9 => some .errB       -- 0x24
  | 0xA => some .capIn      -- 0x28
  | 0xB => some .capStack   -- 0x2C
  | 0xC => some .capNode    -- 0x30
  | _ => none

/-- The result registers, which read any value while busy (R315). -/
def isResult : Reg → Bool
  | .endPos | .nodeCount | .errKind | .errPos | .errA | .errB => true
  | .ctrl | .status | .len | .startPos | .capIn | .capStack | .capNode => false

/-- The register's current value; CTRL, write-only, reads 0 (R45, R46, R266). -/
def regValue (s : State) : Reg → Word
  | .ctrl => 0
  | .status => (statusState s).setWidth 32
  | .len => s.len
  | .startPos => s.startPos
  | .endPos => s.endPos
  | .nodeCount => s.ncount
  | .errKind => (errorCode s.errKind).setWidth 32
  | .errPos => s.errPos
  | .errA => s.errA
  | .errB => s.errB
  | .capIn => s.capIn
  | .capStack => s.capStack
  | .capNode => s.capNode

/-- A host read returns a value the block fixes. -/
def returnWord (w : Word) (s : State) : State := { s with readData := w }

/-- A host read returns any value: the next free word (R315, R316; log 7). -/
def returnAny (s : State) : State := { s with readData := Config.anyWord s.draws, draws := s.draws + 1 }

/-- Read a register (R266): reserved offsets read 0, and a result register read while busy is any value (R315). -/
def readReg (reg : Nat) (s : State) : State :=
  match regAt reg with
  | none => returnWord 0 s
  | some r => if isResult r && busy s then returnAny s else returnWord (regValue s r) s

/-- A write to CTRL: the command in the word, if any (R260, R265). -/
def writeCtrl (w : Word) (s : State) : Result :=
  match decode (.ctrl w) with
  | .ok i => exec i s
  | .error .ctrlWithoutStart => .next s

/-- Write a register: CTRL may start a decode; LEN and START_POS are stored unless busy (R50); a write to a read-only
register or a reserved offset is ignored (R45). -/
def writeReg (reg : Nat) (w : Word) (s : State) : Result :=
  match regAt reg with
  | some .ctrl => writeCtrl w s
  | some .len => .next (if busy s then s else { s with len := w })
  | some .startPos => .next (if busy s then s else { s with startPos := w })
  | some .status | some .endPos | some .nodeCount | some .errKind | some .errPos | some .errA | some .errB => .next s
  | some .capIn | some .capStack | some .capNode => .next s
  | none => .next s

/-- Write IN[k]: an index past the memory is ignored; while busy the host has no such move (R267, R314; logs 9, 10). -/
def writeIn (k : Nat) (b : Byte) (s : State) : Result :=
  if s.capIn.toNat ≤ k then .next s
  else if busy s then .refused .inputWriteWhileBusy
  else .next { s with inMem := Memory.write s.inMem k b }

/-- Read IN[k]: the byte, at any time; an index past the memory reads 0 (R267). -/
def readIn (k : Nat) (s : State) : State :=
  returnWord (if s.capIn.toNat ≤ k then 0 else (inByte s k).setWidth 32) s

/-- Read word j of record i: that word in DONE with i < NODE_COUNT and j ≤ 2, any value otherwise (R268, R316). -/
def readNode (i j : Nat) (s : State) : State :=
  if s.phase = .done ∧ i < s.ncount.toNat ∧ j ≤ 2 then
    match Memory.read s.node i with
    | some r => returnWord (recordWord r j) s
    | none => returnAny s
  else returnAny s

/-- Read the node word at byte offset 4·n: word j of the record i with 12·i + 4·j = 4·n (R82). -/
def readNodeWord (n : Nat) (s : State) : State := readNode (nodeWordAt n).1 (nodeWordAt n).2 s

/-- Reset, at any moment (R310, R311): every piece of state to R55's value, the hardwired registers as they are, the memories
unspecified. What is the host's own stays (log 23). -/
def resetBlock (s : State) : State :=
  { State.resetOf s.capIn s.capStack s.capNode with
    turns := s.turns
    readData := s.readData
    draws := s.draws
    resets := s.resets + 1 }

/-- One host action (R260). -/
def hostStep (a : HostAction) (s : State) : Result :=
  match a with
  | .writeReg reg w => writeReg reg w s
  | .readReg reg => .next (readReg reg s)
  | .writeIn k b => writeIn k b s
  | .readIn k => .next (readIn k s)
  | .readNode i j => .next (readNode i j s)
  | .readNodeWord n => .next (readNodeWord n s)
  | .reset => .next (resetBlock s)

end Sys2Proof.Machine
end

