-- ==== Sys2Proof/Machine/Step.lean ====
section
/-! DEFINITION. One step of the machine: the turn that is due. -/

namespace Sys2Proof.Machine

/-- One step. With no turn listed, and on an `engine` turn, the engine takes one engine step (R225); on an `instr` turn it
runs the instruction at the cursor whole; on a `host` turn the host acts (R30, R260; logs 1, 2). -/
def step (s : State) : Host.Outcome State Fault Refusal :=
  match s.turns with
  | [] => engineStep s
  | .engine :: rest => engineStep { s with turns := rest }
  | .instr :: rest => instrStep { s with turns := rest }
  | .host a :: rest => hostStep a { s with turns := rest }

/-- The state whose next step fetches and runs the instruction that the opcode table numbers `w`. -/
def State.withFetchWord (s : State) (nbits w : Nat) : State := placeTableWord s nbits w

end Sys2Proof.Machine
end

