-- ==== Sys2Proof/Machine/Functional.lean ====
section
/-! DEFINITION. The functional form: the readers and decode_packet as pure functions of a position, normative for a decode's
result (R17), and Rebuild (R238). Recursion takes fuel (log 20). -/

namespace Sys2Proof.Machine

/-- An error value with its operands and position (R281, R288). -/
inductive DecodeFailure where
  | insufficientBits (requested available position : Nat)
  | malformedLength (expectedTotalBits actualConsumed position : Nat)
  | invalidTypeTag (tag position : Nat)
  | literalOverflow (position : Nat)
  | depthExceeded (limit position : Nat)
deriving DecidableEq, Repr

/-- Ok(p, v) and Err(e) of R15. `fuelOut` is the model's own: the recursion's fuel ran out, which enough fuel rules out. -/
inductive Decoded (α : Type) where
  | ok (p : Nat) (v : α)
  | err (e : DecodeFailure)
  | fuelOut
deriving Repr

/-- x ← e: an Err, or fuel run out, is returned at once (R15). -/
def Decoded.bind {α β : Type} (x : Decoded α) (k : Nat → α → Decoded β) : Decoded β :=
  match x with
  | .ok p v => k p v
  | .err e => .err e
  | .fuelOut => .fuelOut

/-- The immutable bit sequence a decode works on, and its depth limit: B, L and STACK_DEPTH (R12, R11). -/
structure Stream where
  len : Nat
  bit : Nat → Bool
  depthLimit : Option Nat

/-- read(p, n) (R145). -/
def streamRead (st : Stream) (p n : Nat) : Decoded Nat :=
  if p + n ≤ st.len then .ok (p + n) (bigEndian st.bit p n)
  else .err (.insufficientBits n (st.len - p) p)

/-- bits_remaining(p) = L − p (R149). -/
def remaining (st : Stream) (p : Nat) : Nat := st.len - p

/-- read_header (R161). -/
def readHeader (st : Stream) (p : Nat) : Decoded Header :=
  (streamRead st p 3).bind fun p1 v =>
  (streamRead st p1 3).bind fun p2 t =>
  .ok p2 ⟨BitVec.ofNat 3 v, BitVec.ofNat 3 t⟩

/-- groups(p, acc) (R171): exact accumulation, the overflow check at each group. -/
def readGroups (st : Stream) : Nat → Nat → Nat → Decoded Nat
  | 0, _, _ => .fuelOut
  | fuel + 1, p, acc =>
    (streamRead st p 1).bind fun p1 c =>
    (streamRead st p1 4).bind fun p2 g =>
    let a := acc * 16 + g
    if 2 ^ Config.litWidth ≤ a then .err (.literalOverflow p1)
    else if c = 1 then readGroups st fuel p2 a
    else .ok p2 a

/-- read_literal (R171). Every group takes 5 bits, so `len + 1` groups are fuel enough. -/
def readLiteral (st : Stream) (p : Nat) : Decoded Nat := readGroups st (st.len + 1) p 0

/-- The children of total-length mode (R193): while fewer than `total` bits from `start` are consumed, one more child. -/
def lenChildren (child : Nat → Decoded Packet) (total start : Nat) : Nat → Nat → List Packet → Decoded (List Packet)
  | 0, _, _ => .fuelOut
  | fuel + 1, p, cs =>
    if p - start < total then
      (child p).bind fun p' c =>
      if total < p' - start then .err (.malformedLength total (p' - start) p')
      else lenChildren child total start fuel p' (cs ++ [c])
    else .ok p cs

/-- The children of count mode (R193): exactly `k` more. -/
def cntChildren (child : Nat → Decoded Packet) : Nat → Nat → List Packet → Decoded (List Packet)
  | 0, p, cs => .ok p cs
  | k + 1, p, cs => (child p).bind fun p' c => cntChildren child k p' (cs ++ [c])

/-- d ≥ STACK_DEPTH (R193). -/
def tooDeep (st : Stream) (d : Nat) : Option Nat :=
  match st.depthLimit with
  | none => none
  | some limit => if limit ≤ d then some limit else none

/-- read_operator after its header (R193): `child` decodes one child one level deeper. -/
def readOperator (st : Stream) (child : Nat → Decoded Packet) (p : Nat) (t : Tag) (d : Nat) :
    Decoded (List Packet × Operation) :=
  (streamRead st p 1).bind fun q m =>
  let children : Decoded (List Packet) :=
    if m = 0 then
      (streamRead st q 15).bind fun s total =>
      match tooDeep st d with
      | some limit => .err (.depthExceeded limit q)
      | none => lenChildren child total s (st.len + 1) s []
    else
      (streamRead st q 11).bind fun s count =>
      match tooDeep st d with
      | some limit => .err (.depthExceeded limit q)
      | none => cntChildren child count s []
  children.bind fun p' cs =>
  match opOf t with
  | some op => .ok p' (cs, op)
  | none => .err (.invalidTypeTag t.toNat (p - 3))

/-- decode_packet(p, d) (R220), the single recursive entry point (R222). The fuel bounds the nesting. -/
def decodePacket (st : Stream) : Nat → Nat → Nat → Decoded Packet
  | 0, _, _ => .fuelOut
  | fuel + 1, p, d =>
    (readHeader st p).bind fun p1 h =>
    if h.typeTag = Config.literalTag then
      (readLiteral st p1).bind fun p2 v => .ok p2 (.literal h.version (BitVec.ofNat 64 v))
    else
      (readOperator st (fun q => decodePacket st fuel q (d + 1)) p1 h.typeTag d).bind fun p2 r =>
      .ok p2 (.operator h.version r.2 r.1)

/-- The stream a state holds (R12, R71). -/
def streamOf (s : State) : Stream where
  len := s.len.toNat
  bit := streamBit s
  depthLimit := depthLimit s

/-- The top-level decode of one START: decode_packet(START_POS, 0) (R221). Each nesting takes at least 18 bits, so `LEN + 1`
is fuel enough. -/
def topDecode (s : State) : Decoded Packet :=
  decodePacket (streamOf s) (s.len.toNat + 1) s.startPos.toNat 0

/-- How an error value stands in the error registers: kind, ERR_POS, ERR_A, ERR_B (R281). -/
def failureRegisters : DecodeFailure → ErrorKind × Nat × Nat × Nat
  | .insufficientBits requested available position => (.insufficientBits, position, requested, available)
  | .malformedLength expected actual position => (.malformedLength, position, expected, actual)
  | .invalidTypeTag tag position => (.invalidTypeTag, position, tag, 0)
  | .literalOverflow position => (.literalOverflow, position, Config.litWidth, 0)
  | .depthExceeded limit position => (.depthExceeded, position, limit, 0)

/-- One record of Rebuild: `built` is the stack of packets W, the newest first (R238). -/
def rebuildRecord (built : List Packet) (r : NodeRecord) : Option (List Packet) :=
  if recordKind r = 0 then some (.literal (recordVersion r) (recordValue r) :: built)
  else
    let k := (recordChildren r).toNat
    match opOf (recordTag r) with
    | some op =>
      if k ≤ built.length then
        some (.operator (recordVersion r) op (built.take k).reverse :: built.drop k)
      else none
    | none => none

/-- The packets left after the records of a list (R238). -/
def rebuildAll : List Packet → List NodeRecord → Option (List Packet)
  | built, [] => some built
  | built, r :: rest =>
    match rebuildRecord built r with
    | some built' => rebuildAll built' rest
    | none => none

/-- NODE[i .. i+k−1], if every one of them is stored. -/
def recordsFrom (node : List (Nat × NodeRecord)) : Nat → Nat → Option (List NodeRecord)
  | _, 0 => some []
  | i, k + 1 =>
    match Memory.read node i, recordsFrom node (i + 1) k with
    | some r, some rest => some (r :: rest)
    | _, _ => none

/-- Rebuild(NODE[0 .. NCOUNT−1]): the tree the records encode, if they leave exactly one packet (R238). -/
def rebuild (s : State) : Option Packet :=
  match recordsFrom s.node 0 s.ncount.toNat with
  | some rs =>
    match rebuildAll [] rs with
    | some [t] => some t
    | _ => none
  | none => none

end Sys2Proof.Machine
end

