-- ==== Sys2Proof/Safety.lean ====
section
/-! DEFINITION. What a safe run is, in the terms the statements use: the parameters R10 admits, the properties the spec says
hold in every reachable state, and the state right after an accepted START. -/

namespace Sys2Proof

open Machine

/-- The parameters' constraints (R10). -/
def ParamsLegal (s : State) : Prop :=
  1 ≤ s.capIn.toNat ∧ 8 * s.capIn.toNat ≤ 2 ^ 32 - 1 ∧ 8 * s.capIn.toNat / 11 ≤ s.capNode.toNat

/-- START_POS ≤ pos ≤ LEN ≤ 8·IN_CAPACITY through a decode (R32, R262). -/
def CursorInside (s : State) : Prop :=
  busy s = true →
    s.startPos.toNat ≤ s.pos.toNat ∧ s.pos.toNat ≤ s.len.toNat ∧ s.len.toNat ≤ 8 * s.capIn.toNat

/-- depth ≤ STACK_DEPTH (R38), and no frame is left once no decode runs (R55, R232, R290). -/
def StackWithinDepth (s : State) : Prop :=
  (∀ limit, depthLimit s = some limit → s.stack.length ≤ limit) ∧ (busy s = false → s.stack = [])

/-- The bits of the packet at hand that have been read when a phase begins, at least (R102 to R105). -/
def ownBits : Phase → Nat
  | .hdrV => 0
  | .hdrT => 3
  | .litC => 6
  | .litG => 7
  | .opM => 6
  | .opL => 7
  | .opN => 7
  | .next | .idle | .done | .error => 0

/-- Every record stands for at least 11 bits already read, every frame for at least 18, and all are disjoint (R39, R83). -/
def BitsAccounted (s : State) : Prop :=
  busy s = true →
    s.startPos.toNat + 11 * s.ncount.toNat + 18 * s.stack.length + ownBits s.phase ≤ s.pos.toNat

/-- The error record is clear but in ERROR, where it holds a kind that can be raised (R49, R51, R52, R285, R290); END_POS is
the cursor in DONE (R49). -/
def ErrorsRecorded (s : State) : Prop :=
  (s.phase ≠ .error → s.errKind = .none ∧ s.errPos = 0 ∧ s.errA = 0 ∧ s.errB = 0) ∧
  (s.phase = .error → s.errKind ≠ .none ∧ s.errKind ≠ .invalidTypeTag ∧ s.endPos = s.errPos ∧ s.ncount = 0) ∧
  (s.phase = .done → s.endPos = s.pos)

/-- The literal phases have tag 4, the operator phases another, and no frame has tag 4 (R40, R164, R192). -/
def TagsFit (s : State) : Prop :=
  (s.phase = .litC ∨ s.phase = .litG → s.ht = Config.literalTag) ∧
  (s.phase = .opM ∨ s.phase = .opL ∨ s.phase = .opN → s.ht ≠ Config.literalTag) ∧
  ∀ f ∈ s.stack, f.tag ≠ Config.literalTag

/-- The bounds of one frame's child counter (R41, R205): with a child under way (`childOpen`) one fewer than at a child
boundary. -/
def ChildCountFits (childOpen : Bool) (f : Frame) : Prop :=
  match f.mode with
  | .totalLength => f.n.toNat ≤ if childOpen then 2978 else 2979
  | .count => f.target.toNat ≤ 2047 ∧ if childOpen then f.n.toNat < f.target.toNat else f.n.toNat ≤ f.target.toNat

/-- The frames from the top down: each began, and its children so far (11 bits each at least) lie, `gap` bits before
`limit`; the frame below lies before this one's own 18 bits (R41, R205). -/
def FramesFit : Bool → Nat → Nat → List Frame → Prop
  | _, _, _, [] => True
  | childOpen, gap, limit, f :: rest =>
    f.start.toNat + 11 * f.n.toNat + gap ≤ limit ∧ ChildCountFits childOpen f ∧ FramesFit true 18 f.start.toNat rest

/-- The frame stack of a running decode fits the cursor. -/
def StackFits (s : State) : Prop :=
  busy s = true → FramesFit (decide (s.phase ≠ .next)) (ownBits s.phase) s.pos.toNat s.stack

/-- Both memories are in canonical form and inside their capacities (R70). -/
def MemoryCanonical (s : State) : Prop :=
  Memory.wf s.inMem = true ∧ Memory.below s.capIn.toNat s.inMem = true ∧
  Memory.wf s.node = true ∧ Memory.below s.capNode.toNat s.node = true

/-- The records of the current or last decode are stored (R51, R228). -/
def RecordsStored (s : State) : Prop :=
  busy s = true ∨ s.phase = .done → ∀ i, i < s.ncount.toNat → (Memory.read s.node i).isSome = true

/-- A legal state: what the spec says of every reachable state. -/
def Legal (s : State) : Prop :=
  ParamsLegal s ∧ CursorInside s ∧ StackWithinDepth s ∧ BitsAccounted s ∧ ErrorsRecorded s ∧ TagsFit s ∧ StackFits s ∧
  MemoryCanonical s ∧ RecordsStored s

/-- Is the decode over (R226, R321)? -/
def Ended (s : State) : Prop := s.phase = .done ∨ s.phase = .error

/-- No state of the run from `s` is an end before `k` steps have been taken. -/
def RunningBefore (k : Nat) (s : State) : Prop := ∀ j u, j < k → Host.Core.run core j s = .next u → ¬ Ended u

/-- The run from `s` ends at `t`, after `k` steps of the model: the first state in DONE or ERROR (R321). -/
def EndOfRun (k : Nat) (s t : State) : Prop := Host.Core.run core k s = .next t ∧ Ended t ∧ RunningBefore k s

/-- Does the next turn belong to a host action for which `p` holds? -/
def HostTurn (p : HostAction → Prop) (s : State) : Prop := ∃ a rest, s.turns = .host a :: rest ∧ p a

/-- The host actions that a clean launch bars until the end of the run: a write to IN, and reset (R322). -/
def Disturbs (a : HostAction) : Prop := a = .reset ∨ ∃ k b, a = .writeIn k b

/-- No host write to IN and no reset occurs until the end of the run from `s` (R322). Every other host action may. -/
def Undisturbed (s : State) : Prop :=
  ∀ k t, Host.Core.run core k s = .next t → RunningBefore (k + 1) s → ¬ HostTurn Disturbs t

/-- Every input byte that covers a bit of [START_POS, LEN) has been written since the last reset (R322): input memory lists the
written bytes and nothing else (log 8). -/
def InputWritten (s : State) : Prop :=
  ∀ i, s.startPos.toNat ≤ i → i < s.len.toNat → (Memory.read s.inMem (i / 8)).isSome = true

/-- START is accepted in `before`, finds a legal configuration, and leaves `s` (R261, R262). -/
def Accepted (before s : State) : Prop :=
  busy before = false ∧ configLegal before = true ∧ ∃ reserved, exec (.start reserved) before = .next s

/-- CleanLaunch(IN, LEN, START_POS), with IN, LEN and START_POS those of `before` (R322). -/
def CleanLaunch (before s : State) : Prop := Accepted before s ∧ InputWritten before ∧ Undisturbed s

/-- The state an accepted START leaves on a machine of legal parameters, whose run is not disturbed: R322's premise without the
one on written bytes, since a decode over unwritten input is well defined too (R313). -/
def Launched (s : State) : Prop := ∃ before, Accepted before s ∧ ParamsLegal before ∧ Undisturbed s

/-- A stream holds, from p on, the k groups of the literal v: continuation bits 1 but for the last, nibbles most significant
first (R103, R108). -/
def HoldsLiteral (st : Stream) (p k v : Nat) : Prop :=
  p + 5 * k ≤ st.len ∧
  ∀ i, i < k →
    bigEndian st.bit (p + 5 * i) 1 = (if i + 1 < k then 1 else 0) ∧
    bigEndian st.bit (p + 5 * i + 1) 4 = v / 16 ^ (k - 1 - i) % 16

/-- The instruction is a packet's head: LIT or an operator. -/
def Instr.isHead (i : Instr) : Bool :=
  match encode i with
  | .head _ => true
  | .group _ | .ctrl _ => false

/-- How many engine steps an instruction of the engine is made of: one READ each (R231). -/
def Instr.engineSteps (i : Instr) : Nat :=
  match i with
  | .lit _ _ | .groupCont _ | .groupLast _ => 2
  | .start _ => 0
  | .sumLen _ _ | .productLen _ _ | .minLen _ _ | .maxLen _ _ => 4
  | .greaterThanLen _ _ | .lessThanLen _ _ | .equalToLen _ _ => 4
  | .sumCnt _ _ | .productCnt _ _ | .minCnt _ _ | .maxCnt _ _ => 4
  | .greaterThanCnt _ _ | .lessThanCnt _ _ | .equalToCnt _ _ => 4

end Sys2Proof
end

