-- ==== Sys2Proof/Certificates/Slice0/Obligations.lean ====
section
/-! DEFINITION. The statements for the provers, from the numbered rules of spec/. -/

open Sys2Proof Sys2Proof.Machine

/-! ### What the statements are written with -/

/-- `t` is `s` after error entry with the given kind, position and operands, and nothing else written (R290). -/
def Sys2Proof.EntersError (t s : State) (e : ErrorKind) (p a b : Word) : Prop :=
  t = { s with
    errKind := e, errPos := p, errA := a, errB := b, endPos := p, ncount := 0, stack := [], phase := .error }

/-- The next `n` bits lie in the stream and in input memory (R144, R262). -/
def Sys2Proof.FieldFits (s : State) (n : Nat) : Prop :=
  s.pos.toNat + n ≤ s.len.toNat ∧ s.len.toNat ≤ 8 * s.capIn.toNat

/-- Emit has room: NCOUNT < NODE_CAPACITY (R83) and the top frame's counter below 4095 (R205). -/
def Sys2Proof.EmitFits (s : State) : Prop :=
  s.ncount.toNat < s.capNode.toNat ∧ ∀ f rest, s.stack = f :: rest → f.n.toNat < 4095

/-- The frames with one more child of the top one (R228). -/
def Sys2Proof.withChild (fs : List Frame) : List Frame :=
  match fs with
  | [] => []
  | f :: rest => { f with n := f.n + 1 } :: rest

/-- The seven operators' heads of a framing, with their type_tags (R110). -/
def Sys2Proof.lenHeads : List ((Version → BitVec 15 → Instr) × Tag) :=
  [(.sumLen, 0), (.productLen, 1), (.minLen, 2), (.maxLen, 3), (.greaterThanLen, 5), (.lessThanLen, 6), (.equalToLen, 7)]

/-- The same for count mode (R110). -/
def Sys2Proof.cntHeads : List ((Version → BitVec 11 → Instr) × Tag) :=
  [(.sumCnt, 0), (.productCnt, 1), (.minCnt, 2), (.maxCnt, 3), (.greaterThanCnt, 5), (.lessThanCnt, 6), (.equalToCnt, 7)]

/-- Two states differ at most in what the engine never reads before it writes it, and in input bits outside [pos, LEN). -/
def Sys2Proof.SameDecode (a b : State) : Prop :=
  a.phase = b.phase ∧ a.endPos = b.endPos ∧ a.ncount = b.ncount ∧
  a.errKind = b.errKind ∧ a.errPos = b.errPos ∧ a.errA = b.errA ∧ a.errB = b.errB ∧
  ∀ i, i < a.ncount.toNat → Memory.read a.node i = Memory.read b.node i

/-! ### Encoding -/

/-- R102 to R105, R112: the decoder reads back every instruction the encoder writes, with every operand at every value. -/
def Obligations.EncodedInstructionsDecodeBack : Prop :=
  ∀ i : Instr, decode (encode i) = .ok i

/-- R112: among the rows a window is looked up in, exactly one matches, and it is the row of the instruction decoded. -/
def Obligations.EveryWindowHitsOnlyItsInstructionsRow : Prop :=
  ∀ (x : Window) (i : Instr), decode x = .ok i →
    (x.rows.filter fun r => r.hits x.tableValue).map (·.mnemonic) = [i.mnemonic]

/-- R103 to R105: the bits after an instruction's own do not change what is decoded. -/
def Obligations.DecodingIgnoresBitsAfterTheInstruction : Prop :=
  ∀ b b' : BitVec 22,
    b >>> (22 - (decodeHead b).encodedWidth) = b' >>> (22 - (decodeHead b).encodedWidth) →
    decodeHead b' = decodeHead b

/-- Words written out from the spec's own examples: scenario A's and B's heads and groups (R179, R206), the count head of
R206's corrected scenario, P3's head, and a CTRL word (R261). -/
def Obligations.SpecWordsDecodeToTheirInstructions : Prop :=
  decode (.head 0b1101001011111110001010#22) = .ok (.lit 6 1) ∧
  decode (.head 0b0011100000000000011011#22) = .ok (.lessThanLen 1 27) ∧
  decode (.head 0b0011101000000000101101#22) = .ok (.lessThanCnt 1 2) ∧
  decode (.head 0b1110111000000000110101#22) = .ok (.maxCnt 7 3) ∧
  decode (.group 0b10111#5) = .ok (.groupCont 7) ∧
  decode (.group 0b00101#5) = .ok (.groupLast 5) ∧
  decode (.ctrl 0x00000001#32) = .ok (.start 0) ∧
  decode (.ctrl 0xFFFFFFFE#32) = .error .ctrlWithoutStart

/-- Model's own (log 17): the instruction placed for a word of the opcode table is what the next step runs. -/
def Obligations.PlacedTableWordIsRunNext : Prop :=
  ∀ (s : State) (nbits w : Nat) (i : Instr), 3 ≤ s.capIn.toNat → decodeTableWord nbits w = some i →
    step (s.withFetchWord nbits w) = exec i { s.withFetchWord nbits w with turns := [] }

/-! ### The bit cursor and the extractor -/

/-- R13, R73, R74: a field is the big-endian sum of its stream bits, and stream bit i is bit 7 − (i mod 8) of byte ⌊i/8⌋. -/
def Obligations.FieldIsBigEndianSumOfItsBits : Prop :=
  ∀ (s : State) (p n : Nat),
    (fieldAt s p n).toNat = ((List.range n).map fun i => (streamBit s (p + i)).toNat * 2 ^ (n - 1 - i)).sum ∧
    ∀ i, (streamBit s i).toNat = (inByte s (i / 8)).toNat / 2 ^ (7 - i % 8) % 2

/-- R146: the byte-window form of the extractor gives the same field. -/
def Obligations.ByteWindowFormGivesTheField : Prop :=
  ∀ (s : State) (p n : Nat), 1 ≤ n → n ≤ 16 → byteWindowField s p n = (fieldAt s p n).toNat

/-- R75: BE(p, a+b) = BE(p, a)·2^b + BE(p+a, b). -/
def Obligations.FieldSplitsConcatenate : Prop :=
  ∀ (bit : Nat → Bool) (p a b : Nat),
    bigEndian bit p (a + b) = bigEndian bit p a * 2 ^ b + bigEndian bit (p + a) b

/-- R142, R143, R144, R147: READ(n) is refused for a width outside 1 to 16; past LEN it enters InsufficientBits(n, LEN − pos) at
pos; inside it delivers BE(pos, n) and moves the cursor n bits. -/
def Obligations.ReadHasExactlyItsOutcomes : Prop :=
  ∀ (s : State) (n : Nat) (k : BitVec n → State → Result), s.len.toNat ≤ 8 * s.capIn.toNat →
    ((n = 0 ∨ 16 < n) → readField n s k = .refused (.readWidth n)) ∧
    (1 ≤ n → n ≤ 16 → s.pos.toNat + n ≤ s.len.toNat →
      readField n s k = k (fieldAt s s.pos.toNat n) { s with pos := BitVec.ofNat 32 (s.pos.toNat + n) }) ∧
    (1 ≤ n → n ≤ 16 → s.len.toNat < s.pos.toNat + n →
      ∃ t, readField n s k = .next t ∧
        EntersError t s .insufficientBits s.pos (BitVec.ofNat 32 n) (s.len - s.pos))

/-! ### Engine steps -/

/-- R163, R164: HDR_V and HDR_T, and their error when the field runs past LEN. -/
def Obligations.HeaderStepsFollowTheirRules : Prop :=
  ∀ s : State, s.len.toNat ≤ 8 * s.capIn.toNat →
    (s.phase = .hdrV → s.pos.toNat + 3 ≤ s.len.toNat →
      engineStep s = .next { s with pos := s.pos + 3, hv := fieldAt s s.pos.toNat 3, phase := .hdrT }) ∧
    (s.phase = .hdrT → s.pos.toNat + 3 ≤ s.len.toNat → fieldAt s s.pos.toNat 3 = 4 →
      engineStep s = .next { s with pos := s.pos + 3, ht := 4, acc := 0, phase := .litC }) ∧
    (s.phase = .hdrT → s.pos.toNat + 3 ≤ s.len.toNat → fieldAt s s.pos.toNat 3 ≠ 4 →
      engineStep s = .next { s with pos := s.pos + 3, ht := fieldAt s s.pos.toNat 3, phase := .opM }) ∧
    (s.phase = .hdrV ∨ s.phase = .hdrT → s.len.toNat < s.pos.toNat + 3 →
      ∃ t, engineStep s = .next t ∧ EntersError t s .insufficientBits s.pos 3 (s.len - s.pos))

/-- R177, R178: LIT_C and LIT_G: accumulation, overflow, emission, and their error when the field runs past LEN. -/
def Obligations.LiteralStepsFollowTheirRules : Prop :=
  ∀ s : State, s.len.toNat ≤ 8 * s.capIn.toNat →
    (s.phase = .litC → s.pos.toNat + 1 ≤ s.len.toNat →
      engineStep s = .next { s with pos := s.pos + 1, cont := fieldAt s s.pos.toNat 1, phase := .litG }) ∧
    (s.phase = .litG → s.pos.toNat + 4 ≤ s.len.toNat →
      2 ^ 64 ≤ s.acc.toNat * 16 + (fieldAt s s.pos.toNat 4).toNat →
      ∃ t, engineStep s = .next t ∧ EntersError t s .literalOverflow s.pos 64 0) ∧
    (s.phase = .litG → s.pos.toNat + 4 ≤ s.len.toNat → ∀ a : LitWord,
      a.toNat = s.acc.toNat * 16 + (fieldAt s s.pos.toNat 4).toNat →
      (s.cont = 1 → engineStep s = .next { s with pos := s.pos + 4, acc := a, phase := .litC }) ∧
      (s.cont = 0 → EmitFits s → engineStep s = .next { s with
        pos := s.pos + 4, acc := a, phase := .next,
        node := Memory.write s.node s.ncount.toNat (literalRecord s.hv a),
        ncount := s.ncount + 1, stack := withChild s.stack })) ∧
    (s.phase = .litC → s.len.toNat < s.pos.toNat + 1 →
      ∃ t, engineStep s = .next t ∧ EntersError t s .insufficientBits s.pos 1 (s.len - s.pos)) ∧
    (s.phase = .litG → s.len.toNat < s.pos.toNat + 4 →
      ∃ t, engineStep s = .next t ∧ EntersError t s .insufficientBits s.pos 4 (s.len - s.pos))

/-- R196, R197, R198: OP_M, OP_L and OP_N: the mode, the frame push, DepthExceeded, and their error when the field runs past
LEN. STACK_DEPTH 0 in CAP_STACK is unbounded (R45). -/
def Obligations.OperatorStepsFollowTheirRules : Prop :=
  ∀ s : State, s.len.toNat ≤ 8 * s.capIn.toNat →
    (s.phase = .opM → s.pos.toNat + 1 ≤ s.len.toNat →
      engineStep s = .next { s with
        pos := s.pos + 1, phase := if fieldAt s s.pos.toNat 1 = 0 then .opL else .opN }) ∧
    (s.phase = .opL → s.pos.toNat + 15 ≤ s.len.toNat → (s.capStack = 0 ∨ s.stack.length < s.capStack.toNat) →
      engineStep s = .next { s with
        pos := s.pos + 15, phase := .next,
        stack := ⟨s.hv, s.ht, .totalLength, fieldAt s s.pos.toNat 15, s.pos + 15, 0⟩ :: s.stack }) ∧
    (s.phase = .opN → s.pos.toNat + 11 ≤ s.len.toNat → (s.capStack = 0 ∨ s.stack.length < s.capStack.toNat) →
      engineStep s = .next { s with
        pos := s.pos + 11, phase := .next,
        stack := ⟨s.hv, s.ht, .count, (fieldAt s s.pos.toNat 11).setWidth 15, s.pos + 11, 0⟩ :: s.stack }) ∧
    (s.phase = .opL ∧ s.pos.toNat + 15 ≤ s.len.toNat ∨ s.phase = .opN ∧ s.pos.toNat + 11 ≤ s.len.toNat →
      s.capStack ≠ 0 → s.capStack.toNat ≤ s.stack.length →
      ∃ t, engineStep s = .next t ∧ EntersError t s .depthExceeded s.pos s.capStack 0) ∧
    (s.phase = .opM → s.len.toNat < s.pos.toNat + 1 →
      ∃ t, engineStep s = .next t ∧ EntersError t s .insufficientBits s.pos 1 (s.len - s.pos)) ∧
    (s.phase = .opL → s.len.toNat < s.pos.toNat + 15 →
      ∃ t, engineStep s = .next t ∧ EntersError t s .insufficientBits s.pos 15 (s.len - s.pos)) ∧
    (s.phase = .opN → s.len.toNat < s.pos.toNat + 11 →
      ∃ t, engineStep s = .next t ∧ EntersError t s .insufficientBits s.pos 11 (s.len - s.pos))

/-- R199, R232 to R236: NEXT ends the decode on an empty stack, and else starts a child, pops and emits, or reports the
overshoot, as the top frame says. -/
def Obligations.NextStepFollowsTheTopFrame : Prop :=
  ∀ s : State, s.phase = .next →
    (s.stack = [] → engineStep s = .next { s with endPos := s.pos, phase := .done }) ∧
    ∀ f rest, s.stack = f :: rest → f.start.toNat ≤ s.pos.toNat →
      (f.mode = .totalLength → s.pos.toNat - f.start.toNat < f.target.toNat →
        engineStep s = .next { s with phase := .hdrV }) ∧
      (f.mode = .count → f.n.toNat < f.target.toNat → engineStep s = .next { s with phase := .hdrV }) ∧
      (f.mode = .totalLength ∧ s.pos.toNat - f.start.toNat = f.target.toNat ∨
          f.mode = .count ∧ f.n.toNat = f.target.toNat →
        EmitFits { s with stack := rest } → engineStep s = .next { s with
          stack := withChild rest,
          node := Memory.write s.node s.ncount.toNat (operatorRecord f),
          ncount := s.ncount + 1 }) ∧
      (f.mode = .totalLength → f.target.toNat < s.pos.toNat - f.start.toNat →
        ∃ t, engineStep s = .next t ∧
          EntersError t s .malformedLength s.pos (f.target.setWidth 32) (s.pos - f.start))

/-- R228: Emit stores the record at NCOUNT and no other, counts it, and counts it as a child of the top frame, wherever it has
room: NCOUNT < NODE_CAPACITY (R83), and the top frame's 12-bit counter below 4095 (R205). Without room the model faults
(log 12). -/
def Obligations.EmitStoresOneRecordAndCountsIt : Prop :=
  ∀ (r : NodeRecord) (s : State), EmitFits s →
    ∃ t, emit r s = .next t ∧
      t = { s with node := t.node, ncount := s.ncount + 1, stack := withChild s.stack } ∧
      Memory.read t.node s.ncount.toNat = some r ∧
      ∀ a, a ≠ s.ncount.toNat → Memory.read t.node a = Memory.read s.node a

/-- R290: an engine step that ends in ERROR has made error entry at the cursor with the kind it reports, and none of the step's
other writes. -/
def Obligations.FailingEngineStepsWriteOnlyTheErrorState : Prop :=
  ∀ s t : State, busy s = true → engineStep s = .next t → t.phase = .error →
    t.errKind ≠ .none ∧ EntersError t s t.errKind s.pos t.errA t.errB

/-- R226: in IDLE, DONE and ERROR the engine has no step: with no host action due, nothing changes (log 3). -/
def Obligations.EngineRestsOutsideTheBusySet : Prop :=
  ∀ s : State, s.turns = [] → s.phase = .idle ∨ s.phase = .done ∨ s.phase = .error → step s = .next s

/-! ### Instructions: what each completes with -/

/-- R103, R163, R164: LIT reads its 6-bit header, clears ACC and leaves the engine at the first group. -/
def Obligations.LitCompletes : Prop :=
  ∀ (s : State) (v : Version) (c : BitVec 1), s.phase = .hdrV → FieldFits s 6 →
    exec (.lit v c) s = .next { s with pos := s.pos + 6, hv := v, ht := 4, acc := 0, phase := .litC }

/-- R104, R197: each of SUM.LEN, PRODUCT.LEN, MIN.LEN, MAX.LEN, GREATERTHAN.LEN, LESSTHAN.LEN and EQUALTO.LEN reads its 22 bits
and pushes its total-length frame, if the stack has room. -/
def Obligations.TotalLengthHeadsComplete : Prop :=
  ∀ h ∈ lenHeads, ∀ (s : State) (v : Version) (n : BitVec 15), s.phase = .hdrV → FieldFits s 22 →
    (s.capStack = 0 ∨ s.stack.length < s.capStack.toNat) →
    exec (h.1 v n) s = .next { s with
      pos := s.pos + 22, hv := v, ht := h.2, phase := .next,
      stack := ⟨v, h.2, .totalLength, n, s.pos + 22, 0⟩ :: s.stack }

/-- R105, R198: each of SUM.CNT, PRODUCT.CNT, MIN.CNT, MAX.CNT, GREATERTHAN.CNT, LESSTHAN.CNT and EQUALTO.CNT reads its 18 bits
and pushes its count frame, if the stack has room. -/
def Obligations.CountHeadsComplete : Prop :=
  ∀ h ∈ cntHeads, ∀ (s : State) (v : Version) (n : BitVec 11), s.phase = .hdrV → FieldFits s 18 →
    (s.capStack = 0 ∨ s.stack.length < s.capStack.toNat) →
    exec (h.1 v n) s = .next { s with
      pos := s.pos + 18, hv := v, ht := h.2, phase := .next,
      stack := ⟨v, h.2, .count, n.setWidth 15, s.pos + 18, 0⟩ :: s.stack }

/-- R103, R172, R177, R178: GROUP.CONT appends its nibble to ACC and leaves the engine at the next group. -/
def Obligations.GroupContCompletes : Prop :=
  ∀ (s : State) (g : BitVec 4), s.phase = .litC → FieldFits s 5 → s.acc.toNat < 2 ^ 60 →
    exec (.groupCont g) s = .next { s with
      pos := s.pos + 5, cont := 1, acc := s.acc * 16 + g.setWidth 64, phase := .litC }

/-- R103, R172, R178, R228, R229: GROUP.LAST appends its nibble to ACC and emits the literal's record as a child of the top
frame. -/
def Obligations.GroupLastCompletes : Prop :=
  ∀ (s : State) (g : BitVec 4), s.phase = .litC → FieldFits s 5 → s.acc.toNat < 2 ^ 60 → EmitFits s →
    exec (.groupLast g) s = .next { s with
      pos := s.pos + 5, cont := 0, acc := s.acc * 16 + g.setWidth 64, phase := .next,
      node := Memory.write s.node s.ncount.toNat (literalRecord s.hv (s.acc * 16 + g.setWidth 64)),
      ncount := s.ncount + 1, stack := withChild s.stack }

/-- R261, R264: START in IDLE, DONE or ERROR with a legal configuration begins a new decode at START_POS. -/
def Obligations.StartBeginsANewDecode : Prop :=
  ∀ (s : State) (reserved : BitVec 31), s.phase = .idle ∨ s.phase = .done ∨ s.phase = .error →
    s.len.toNat ≤ 8 * s.capIn.toNat → s.startPos.toNat ≤ s.len.toNat →
    exec (.start reserved) s = .next { s with
      pos := s.startPos, stack := [], hv := 0, ht := 0, cont := 0, acc := 0, ncount := 0, endPos := 0,
      errKind := .none, errPos := 0, errA := 0, errB := 0, phase := .hdrV }

/-- R262, R263: START while busy changes nothing; otherwise an illegal configuration goes straight to ERROR with
ConfigInvalid. -/
def Obligations.StartIsIgnoredBusyAndChecksItsConfiguration : Prop :=
  ∀ (s : State) (reserved : BitVec 31),
    (busy s = true → exec (.start reserved) s = .next s) ∧
    (busy s = false → 8 * s.capIn.toNat < s.len.toNat ∨ s.len.toNat < s.startPos.toNat →
      ∃ t, exec (.start reserved) s = .next t ∧
        EntersError t s .configInvalid s.startPos s.len s.startPos)

/-! ### Instructions: where they take an error -/

/-- R162: every packet head on a stream with fewer than 6 bits left fails at whichever 3-bit read first runs past LEN. -/
def Obligations.ShortHeadersRaiseInsufficientBits : Prop :=
  ∀ (i : Instr) (s : State), i.isHead = true → s.pos.toNat ≤ s.len.toNat → s.len.toNat ≤ 8 * s.capIn.toNat →
    (s.len.toNat - s.pos.toNat < 3 →
      ∃ t, exec i s = .next t ∧ EntersError t s .insufficientBits s.pos 3 (s.len - s.pos)) ∧
    (3 ≤ s.len.toNat - s.pos.toNat → s.len.toNat - s.pos.toNat < 6 →
      ∃ t u, exec i s = .next t ∧ u.pos = s.pos + 3 ∧ u = { s with pos := u.pos, hv := u.hv, phase := .hdrT } ∧
        EntersError t u .insufficientBits (s.pos + 3) 3 (s.len - (s.pos + 3)))

/-- R196, R197, R198, R282: an operator's head with its header but not its mode bit, or not its whole length or count field,
fails there. -/
def Obligations.ShortOperatorFieldsRaiseInsufficientBits : Prop :=
  (∀ h ∈ lenHeads, ∀ (s : State) (v : Version) (n : BitVec 15), s.len.toNat ≤ 8 * s.capIn.toNat →
    (s.len.toNat = s.pos.toNat + 6 →
      ∃ t u, exec (h.1 v n) s = .next t ∧ u = { s with pos := s.pos + 6, hv := v, ht := h.2, phase := .opM } ∧
        EntersError t u .insufficientBits (s.pos + 6) 1 0) ∧
    (s.pos.toNat + 7 ≤ s.len.toNat → s.len.toNat < s.pos.toNat + 22 →
      ∃ t u, exec (h.1 v n) s = .next t ∧ u = { s with pos := s.pos + 7, hv := v, ht := h.2, phase := .opL } ∧
        EntersError t u .insufficientBits (s.pos + 7) 15 (s.len - (s.pos + 7)))) ∧
  (∀ h ∈ cntHeads, ∀ (s : State) (v : Version) (n : BitVec 11), s.len.toNat ≤ 8 * s.capIn.toNat →
    (s.len.toNat = s.pos.toNat + 6 →
      ∃ t u, exec (h.1 v n) s = .next t ∧ u = { s with pos := s.pos + 6, hv := v, ht := h.2, phase := .opM } ∧
        EntersError t u .insufficientBits (s.pos + 6) 1 0) ∧
    (s.pos.toNat + 7 ≤ s.len.toNat → s.len.toNat < s.pos.toNat + 18 →
      ∃ t u, exec (h.1 v n) s = .next t ∧ u = { s with pos := s.pos + 7, hv := v, ht := h.2, phase := .opN } ∧
        EntersError t u .insufficientBits (s.pos + 7) 11 (s.len - (s.pos + 7))))

/-- R203, R281, R283: an operator's head with all its bits, on a full stack, fails with DepthExceeded at its length or count
field. -/
def Obligations.FullStackRaisesDepthExceeded : Prop :=
  (∀ h ∈ lenHeads, ∀ (s : State) (v : Version) (n : BitVec 15), FieldFits s 22 →
    s.capStack ≠ 0 → s.capStack.toNat ≤ s.stack.length →
    ∃ t u, exec (h.1 v n) s = .next t ∧ u = { s with pos := s.pos + 7, hv := v, ht := h.2, phase := .opL } ∧
      EntersError t u .depthExceeded (s.pos + 7) s.capStack 0) ∧
  (∀ h ∈ cntHeads, ∀ (s : State) (v : Version) (n : BitVec 11), FieldFits s 18 →
    s.capStack ≠ 0 → s.capStack.toNat ≤ s.stack.length →
    ∃ t u, exec (h.1 v n) s = .next t ∧ u = { s with pos := s.pos + 7, hv := v, ht := h.2, phase := .opN } ∧
      EntersError t u .depthExceeded (s.pos + 7) s.capStack 0)

/-- R175: a group overflows exactly when the accumulator before it is at least 2^60, whatever its nibble; the error stands at
the nibble field. -/
def Obligations.GroupsOverflowExactlyFromTwoToTheSixty : Prop :=
  ∀ (i : Instr) (c : BitVec 1) (g : BitVec 4) (s : State),
    i = .groupCont g ∧ c = 1 ∨ i = .groupLast g ∧ c = 0 → FieldFits s 5 →
    (2 ^ 60 ≤ s.acc.toNat →
      ∃ t u, exec i s = .next t ∧ u = { s with pos := s.pos + 1, cont := c, phase := .litG } ∧
        EntersError t u .literalOverflow (s.pos + 1) 64 0) ∧
    (s.acc.toNat < 2 ^ 60 → ∀ t, exec i s = .next t → t.phase ≠ .error)

/-- R174: a group on a stream that ends at its start, or inside its nibble, fails there. -/
def Obligations.ShortGroupsRaiseInsufficientBits : Prop :=
  ∀ (i : Instr) (c : BitVec 1) (g : BitVec 4) (s : State),
    i = .groupCont g ∧ c = 1 ∨ i = .groupLast g ∧ c = 0 → s.len.toNat ≤ 8 * s.capIn.toNat →
    (s.pos = s.len → ∃ t, exec i s = .next t ∧ EntersError t s .insufficientBits s.pos 1 0) ∧
    (s.pos.toNat + 1 ≤ s.len.toNat → s.len.toNat < s.pos.toNat + 5 →
      ∃ t u, exec i s = .next t ∧ u = { s with pos := s.pos + 1, cont := c, phase := .litG } ∧
        EntersError t u .insufficientBits (s.pos + 1) 4 (s.len - (s.pos + 1)))

/-! ### Instructions: what they leave unchanged -/

/-- The frame of the fifteen packet heads (R36, R50, R52, R88, R228, R290): they write the cursor, HV, HT, PHASE, LIT also ACC, the
operators also the stack; the error and result registers change only on error entry; no memory changes. -/
def Obligations.PacketHeadsFrame : Prop :=
  ∀ (i : Instr) (s t : State), i.isHead = true → exec i s = .next t →
    (∀ a, Memory.read t.inMem a = Memory.read s.inMem a) ∧ (∀ a, inByte t a = inByte s a) ∧
    (∀ a, Memory.read t.node a = Memory.read s.node a) ∧
    t.cont = s.cont ∧ t.len = s.len ∧ t.startPos = s.startPos ∧
    t.capIn = s.capIn ∧ t.capStack = s.capStack ∧ t.capNode = s.capNode ∧
    t.turns = s.turns ∧ t.readData = s.readData ∧ t.draws = s.draws ∧ t.resets = s.resets ∧
    ((∀ v c, i ≠ .lit v c) → t.acc = s.acc) ∧
    (t.phase ≠ .error →
      t.endPos = s.endPos ∧ t.ncount = s.ncount ∧
      t.errKind = s.errKind ∧ t.errPos = s.errPos ∧ t.errA = s.errA ∧ t.errB = s.errB ∧
      (∀ v c, i = .lit v c → t.stack = s.stack) ∧
      ((∀ v c, i ≠ .lit v c) → ∃ f, t.stack = f :: s.stack))

/-- The frame of GROUP.CONT and GROUP.LAST (R177, R178, R228): they write the cursor, CONT, ACC and PHASE; GROUP.LAST also record
NCOUNT of node memory, NCOUNT and the top frame's counter; the error and result registers change only on error entry. -/
def Obligations.LiteralGroupsFrame : Prop :=
  ∀ (i : Instr) (g : BitVec 4) (s t : State), i = .groupCont g ∨ i = .groupLast g → exec i s = .next t →
    (∀ a, Memory.read t.inMem a = Memory.read s.inMem a) ∧ (∀ a, inByte t a = inByte s a) ∧
    (∀ a, a ≠ s.ncount.toNat → Memory.read t.node a = Memory.read s.node a) ∧
    (i = .groupCont g → ∀ a, Memory.read t.node a = Memory.read s.node a) ∧
    t.hv = s.hv ∧ t.ht = s.ht ∧ t.len = s.len ∧ t.startPos = s.startPos ∧
    t.capIn = s.capIn ∧ t.capStack = s.capStack ∧ t.capNode = s.capNode ∧
    t.turns = s.turns ∧ t.readData = s.readData ∧ t.draws = s.draws ∧ t.resets = s.resets ∧
    (t.phase ≠ .error →
      t.endPos = s.endPos ∧
      t.errKind = s.errKind ∧ t.errPos = s.errPos ∧ t.errA = s.errA ∧ t.errB = s.errB ∧
      (i = .groupCont g → t.ncount = s.ncount ∧ t.stack = s.stack) ∧
      (i = .groupLast g → t.ncount = s.ncount + 1 ∧ t.stack.tail = s.stack.tail))

/-- The frame of START (R261, R263, R290): whatever it does, it leaves LEN, START_POS, the hardwired registers and both memories;
on ConfigInvalid also the cursor, HV, HT, CONT and ACC. -/
def Obligations.StartFrame : Prop :=
  ∀ (reserved : BitVec 31) (s t : State), exec (.start reserved) s = .next t →
    (∀ a, Memory.read t.inMem a = Memory.read s.inMem a) ∧ (∀ a, inByte t a = inByte s a) ∧
    (∀ a, Memory.read t.node a = Memory.read s.node a) ∧
    t.len = s.len ∧ t.startPos = s.startPos ∧
    t.capIn = s.capIn ∧ t.capStack = s.capStack ∧ t.capNode = s.capNode ∧
    t.turns = s.turns ∧ t.readData = s.readData ∧ t.draws = s.draws ∧ t.resets = s.resets ∧
    (t.phase = .error → t.pos = s.pos ∧ t.hv = s.hv ∧ t.ht = s.ht ∧ t.cont = s.cont ∧ t.acc = s.acc)

/-! ### Steps and instructions -/

/-- What a step runs: with no turn, an engine step; on an `instr` turn, the instruction decoded from the head or group window at
the cursor; on a host CTRL write, the command in the word (R112, R225, R265; logs 1, 2). -/
def Obligations.StepRunsTheDecodedInstruction : Prop :=
  (∀ s : State, s.turns = [] → step s = engineStep s) ∧
  (∀ s : State, s.phase = .hdrV → fetchWindow s = some (.head (windowAt s s.pos.toNat 22))) ∧
  (∀ s : State, s.phase = .litC → fetchWindow s = some (.group (windowAt s s.pos.toNat 5))) ∧
  (∀ (s : State) (rest : List Turn) (x : Window) (i : Instr), s.turns = .instr :: rest → fetchWindow s = some x →
    decode x = .ok i → step s = exec i { s with turns := rest }) ∧
  (∀ (s : State) (rest : List Turn) (w : Word) (i : Instr), s.turns = .host (.writeReg 0 w) :: rest →
    decode (.ctrl w) = .ok i → step s = exec i { s with turns := rest })

/-- R225, R231: running the instruction at the cursor whole is running its engine steps, one READ each, to the same next state,
error, or stop: 2 for LIT and a group, 4 for an operator's head. -/
def Obligations.InstructionsAreTheirEngineSteps : Prop :=
  ∀ (s : State) (x : Window) (i : Instr), s.turns = [] → fetchWindow s = some x → decode x = .ok i →
    Host.Core.run core i.engineSteps s = exec i s

/-! ### Whole decodes -/

/-- R240, R281, R321: from the state an accepted START leaves, on whatever turns that neither write IN nor reset, the run ends as
decode_packet(START_POS, 0) answers: in DONE with its end position and, rebuilt from the node records, its tree; or in ERROR
with the registers encoding its error. -/
def Obligations.EngineRealisesDecodePacket : Prop :=
  ∀ s : State, Launched s →
    match topDecode s with
    | .ok p tree =>
      ∃ k t, EndOfRun k s t ∧ t.phase = .done ∧ t.endPos.toNat = p ∧ rebuild t = some tree
    | .err e =>
      ∃ k t, EndOfRun k s t ∧ t.phase = .error ∧
        (t.errKind, t.errPos.toNat, t.errA.toNat, t.errB.toNat) = failureRegisters e ∧
        t.endPos = t.errPos ∧ t.ncount = 0
    | .fuelOut => False

/-- R241, R320: every run ends, within 2·(LEN − START_POS) + 3 engine steps after START; a host turn taken meanwhile is a step of the
model but none of the engine. -/
def Obligations.RunsEndWithinTheStepBound : Prop :=
  ∀ s : State, Launched s →
    ∃ k t, k ≤ s.turns.length + 2 * (s.len.toNat - s.startPos.toNat) + 3 ∧ EndOfRun k s t

/-- R54, R115, R321: two decodes of the same stream bits with the same LEN, START_POS and STACK_DEPTH give the same results: step by
step where no turn is listed, and at the end of the run from a clean launch (R322) whatever turns are; whatever the datapath and
node memory held, whatever the input holds outside [START_POS, LEN), and whatever the capacities. -/
def Obligations.ResultsDependOnlyOnTheStreamAndParameters : Prop :=
  ∀ (a b a' b' u v : State),
    a.len = b.len → a.startPos = b.startPos → a.capStack = b.capStack →
    (∀ i, a.startPos.toNat ≤ i → i < a.len.toNat → streamBit a i = streamBit b i) →
    (∀ k, Accepted a a' → Accepted b b' → a.turns = [] → b.turns = [] →
      Host.Core.run core k a' = .next u → Host.Core.run core k b' = .next v → SameDecode u v) ∧
    (∀ k l, CleanLaunch a a' → CleanLaunch b b' → EndOfRun k a' u → EndOfRun l b' v → SameDecode u v)

/-- R162, R166: with fewer than 3 bits left read_header fails at the version, with 3 to 5 at the type_tag; with 6 or more, the
6 bits of 8·version + type_tag are read as that header, 6 bits on. -/
def Obligations.HeaderReadsFollowTheirRules : Prop :=
  ∀ (st : Stream) (p : Nat), p ≤ st.len →
    (st.len - p < 3 → readHeader st p = .err (.insufficientBits 3 (st.len - p) p)) ∧
    (3 ≤ st.len - p → st.len - p < 6 →
      readHeader st p = .err (.insufficientBits 3 (st.len - p - 3) (p + 3))) ∧
    (6 ≤ st.len - p → ∀ (v : Version) (t : Tag), bigEndian st.bit p 6 = 8 * v.toNat + t.toNat →
      readHeader st p = .ok (p + 6) ⟨v, t⟩)

/-- R172, R173, R176, R180: k groups of a value below 2^64, leading zero groups among them, are read as that value, 5·k bits
on. -/
def Obligations.LiteralRoundTrip : Prop :=
  ∀ (st : Stream) (p k v : Nat), 1 ≤ k → v < 16 ^ k → v < 2 ^ 64 → HoldsLiteral st p k v →
    readLiteral st p = .ok (p + 5 * k) v

/-- R194, R195: a total-length operator's children fill exactly total_bits bits; a count operator's are exactly child_count. -/
def Obligations.FramingIsExact : Prop :=
  (∀ (child : Nat → Decoded Packet) (total start fuel p : Nat) (cs : List Packet),
    lenChildren child total start fuel start [] = .ok p cs → p - start = total) ∧
  (∀ (child : Nat → Decoded Packet) (k start p : Nat) (cs : List Packet),
    cntChildren child k start [] = .ok p cs → cs.length = k)

/-- R118, R205: a decoded packet is at least 11 bits long and ends inside the stream, and an operator has at most 2978
children. -/
def Obligations.PacketSizesAndChildCountsAreBounded : Prop :=
  ∀ (st : Stream) (fuel p d p' : Nat) (t : Packet), decodePacket st fuel p d = .ok p' t →
    p + 11 ≤ p' ∧ p' ≤ st.len ∧ ∀ v op cs, t = .operator v op cs → p + 18 ≤ p' ∧ cs.length ≤ 2978

/-- R191, R192: OpOf on the seven operator tags, one to one, and no operation for tag 4. -/
def Obligations.OpOfMapsTheSevenOperatorTags : Prop :=
  opOf 0 = some .sum ∧ opOf 1 = some .product ∧ opOf 2 = some .min ∧ opOf 3 = some .max ∧ opOf 4 = none ∧
  opOf 5 = some .greaterThan ∧ opOf 6 = some .lessThan ∧ opOf 7 = some .equalTo ∧
  ∀ t u : Tag, opOf t = opOf u → t = u

/-- R120, R229, R230: every field of a literal's and of an operator's record, the reserved bits among them. -/
def Obligations.NodeRecordsHaveTheirLayout : Prop :=
  (∀ (v : Version) (x : LitWord),
    (literalRecord v x).w0.toNat = 2 * v.toNat + 16 * 4 ∧
    (literalRecord v x).w1.toNat = x.toNat % 2 ^ 32 ∧ (literalRecord v x).w2.toNat = x.toNat / 2 ^ 32) ∧
  (∀ f : Frame,
    (operatorRecord f).w0.toNat = 1 + 2 * f.ver.toNat + 16 * f.tag.toNat + 128 * f.n.toNat ∧
    (operatorRecord f).w1 = 0 ∧ (operatorRecord f).w2 = 0) ∧
  (∀ r : NodeRecord,
    (recordKind r).toNat = r.w0.toNat % 2 ∧ (recordVersion r).toNat = r.w0.toNat / 2 % 8 ∧
    (recordTag r).toNat = r.w0.toNat / 16 % 8 ∧ (recordChildren r).toNat = r.w0.toNat / 128 % 4096 ∧
    (recordValue r).toNat = r.w2.toNat * 2 ^ 32 + r.w1.toNat)

/-! ### Invariants -/

/-- Every step from a legal state that answers a next state answers a legal one: every engine step, whole instruction and host
action (R32, R38, R41, R49, R52, R83, R192, R205; `Legal` lists the parts). -/
def Obligations.EveryStepKeepsTheStateLegal : Prop :=
  ∀ s t : State, Legal s → step s = .next t → Legal t

/-- The reset state is legal (model's choice of the OPEN parameters, log 4), and so is reset of any instance whose parameters meet
R10. -/
def Obligations.ResetStatesAreLegal : Prop :=
  Legal State.reset ∧
  ∀ capIn capStack capNode : Word, ParamsLegal (State.resetOf capIn capStack capNode) →
    Legal (State.resetOf capIn capStack capNode)

/-- R83, R199, R205, R225: in a legal state the engine's step is total: neither an engine step nor a whole instruction stops. -/
def Obligations.LegalStatesNeverStopTheEngine : Prop :=
  ∀ s : State, Legal s → (∃ t, engineStep s = .next t) ∧ ∃ t, instrStep s = .next t

/-- R32, R262: START_POS ≤ pos ≤ LEN ≤ 8·IN_CAPACITY while busy is kept by every step. -/
def Obligations.CursorStaysInsideTheStream : Prop :=
  ∀ s t : State, CursorInside s → step s = .next t → CursorInside t

/-- R39, R83: a legal busy state has at most ⌊(LEN − START_POS)/18⌋ frames and ⌊(LEN − START_POS)/11⌋ records, no more than
NODE_CAPACITY; and a STACK_DEPTH of at least ⌊8·IN_CAPACITY/18⌋ never gives DepthExceeded. -/
def Obligations.DepthAndRecordsAreBounded : Prop :=
  ∀ s : State, Legal s → busy s = true →
    s.stack.length ≤ (s.len.toNat - s.startPos.toNat) / 18 ∧
    s.ncount.toNat ≤ (s.len.toNat - s.startPos.toNat) / 11 ∧ s.ncount.toNat ≤ s.capNode.toNat ∧
    ∀ limit t, depthLimit s = some limit → 8 * s.capIn.toNat / 18 ≤ limit → step s = .next t →
      t.errKind ≠ .depthExceeded

/-- Both memories keep their canonical form and their capacities (model's form of R70, log 8). -/
def Obligations.MemoriesStayCanonical : Prop :=
  ∀ s t : State, MemoryCanonical s → step s = .next t → MemoryCanonical t

/-- R285: no step raises InvalidTypeTag. -/
def Obligations.InvalidTypeTagIsNeverRaised : Prop :=
  ∀ s t : State, s.errKind ≠ .invalidTypeTag → step s = .next t → t.errKind ≠ .invalidTypeTag

/-! ### Whole-machine rules -/

/-- R32: within one decode no step moves the cursor backward. -/
def Obligations.CursorNeverMovesBackward : Prop :=
  ∀ s t : State, busy s = true → step s = .next t → ¬ HostTurn (· = .reset) s → s.pos.toNat ≤ t.pos.toNat

/-- R226, R292: only START or reset takes the block out of IDLE, DONE or ERROR. -/
def Obligations.OnlyStartOrResetLeavesAFinalPhase : Prop :=
  ∀ s t : State, busy s = false → step s = .next t → t.phase ≠ s.phase →
    HostTurn (fun a => a = .reset ∨ ∃ w : Word, a = .writeReg 0 w ∧ w.getLsbD 0 = true) s

/-- R50: LEN and START_POS keep their values while busy, whatever the host writes, unless it resets; and CAP_IN, CAP_STACK and
CAP_NODE never change (R45). -/
def Obligations.ConfigurationIsFixedWhileBusy : Prop :=
  ∀ s t : State, step s = .next t →
    (busy s = true → ¬ HostTurn (· = .reset) s → t.len = s.len ∧ t.startPos = s.startPos) ∧
    t.capIn = s.capIn ∧ t.capStack = s.capStack ∧ t.capNode = s.capNode

/-- R88, R228, R268: only the host's writes and reset change input memory; only the engine, at record NCOUNT, and reset change node
memory. -/
def Obligations.MemoriesHaveTheirOnlyWriters : Prop :=
  ∀ s t : State, step s = .next t →
    (t.inMem ≠ s.inMem → HostTurn (fun a => a = .reset ∨ ∃ k b, a = .writeIn k b) s) ∧
    (t.node ≠ s.node → HostTurn (· = .reset) s ∨
      busy s = true ∧ ¬ HostTurn (fun _ => True) s ∧
        ∀ a, a ≠ s.ncount.toNat → Memory.read t.node a = Memory.read s.node a)

/-! ### The host's actions -/

/-- R45, R46, R266: what a register read returns: outside the busy set every register's value by its offset, reserved offsets 0; the
exact registers also while busy. -/
def Obligations.RegisterReadsFollowTheMap : Prop :=
  ∀ (s : State) (reg : Nat),
    (busy s = false ∨ reg ∉ [4, 5, 6, 7, 8, 9] → hostStep (.readReg reg) s = .next { s with readData :=
      if reg = 1 then
        (if s.phase = .idle then 0 else if s.phase = .done then 2 else if s.phase = .error then 3 else 1)
      else if reg = 2 then s.len else if reg = 3 then s.startPos else if reg = 4 then s.endPos
      else if reg = 5 then s.ncount
      else if reg = 6 then
        (match s.errKind with
          | .none => 0 | .insufficientBits => 1 | .malformedLength => 2 | .invalidTypeTag => 3
          | .literalOverflow => 4 | .depthExceeded => 5 | .configInvalid => 6)
      else if reg = 7 then s.errPos else if reg = 8 then s.errA else if reg = 9 then s.errB
      else if reg = 10 then s.capIn else if reg = 11 then s.capStack else if reg = 12 then s.capNode
      else 0 })

/-- R315: END_POS, NODE_COUNT, ERR_KIND, ERR_POS, ERR_A and ERR_B read while busy return the next free word, whatever it is (log 7). -/
def Obligations.BusyResultReadsReturnAnyValue : Prop :=
  ∀ (s : State) (reg : Nat), busy s = true → reg ∈ [4, 5, 6, 7, 8, 9] →
    hostStep (.readReg reg) s = .next { s with readData := Config.anyWord s.draws, draws := s.draws + 1 }

/-- R45, R50, R265, R317: a LEN or START_POS write is stored unless busy; a CTRL write with bit 0 = 0, and a write to a read-only or
reserved register, changes nothing. -/
def Obligations.RegisterWritesFollowTheMap : Prop :=
  ∀ (s : State) (reg : Nat) (w : Word),
    (busy s = false → reg = 2 → hostStep (.writeReg reg w) s = .next { s with len := w }) ∧
    (busy s = false → reg = 3 → hostStep (.writeReg reg w) s = .next { s with startPos := w }) ∧
    (busy s = true → reg = 2 ∨ reg = 3 → hostStep (.writeReg reg w) s = .next s) ∧
    (reg = 0 → w.getLsbD 0 = false → hostStep (.writeReg reg w) s = .next s) ∧
    (reg = 1 ∨ 4 ≤ reg → hostStep (.writeReg reg w) s = .next s)

/-- R267, R314: outside the busy set a byte write to IN[k] stores that byte and no other; while busy it has no move, which the model
refuses by name (log 9). A write past the memory is ignored; that it is so while busy too, where R267 says both "ignores" and
"no move", is the model's reading (log 10). -/
def Obligations.InputWritesStoreOneByte : Prop :=
  ∀ (s : State) (k : Nat) (b : Byte),
    (busy s = false → k < s.capIn.toNat →
      ∃ t, hostStep (.writeIn k b) s = .next t ∧ t = { s with inMem := t.inMem } ∧
        inByte t k = b ∧ ∀ j, j ≠ k → inByte t j = inByte s j) ∧
    (s.capIn.toNat ≤ k → hostStep (.writeIn k b) s = .next s) ∧
    (busy s = true → k < s.capIn.toNat → hostStep (.writeIn k b) s = .refused .inputWriteWhileBusy)

/-- R81, R82, R266 to R268: a host read of a register, an input byte or a node word changes nothing of the block; an input byte
reads as it stands, and past the memory as 0. Wherever the platform places the three spaces, the access at a register's, a
byte's or a node word's address is that read or write. -/
def Obligations.HostReadsHaveNoSideEffect : Prop :=
  (∀ (s : State) (a : HostAction),
    (∃ reg, a = .readReg reg) ∨ (∃ k, a = .readIn k) ∨ (∃ i j, a = .readNode i j) ∨ (∃ n, a = .readNodeWord n) →
    ∃ t, hostStep a s = .next t ∧ t = { s with readData := t.readData, draws := t.draws } ∧
      ∀ k, a = .readIn k → t.readData.toNat = if k < s.capIn.toNat then (inByte s k).toNat else 0) ∧
  ∀ (p : Placement) (reg k i j : Nat) (w : Word) (b : Byte), j ≤ 2 →
    p.regAddress reg = p.registers + 4 * reg ∧ p.inAddress k = p.input + k ∧
    p.nodeAddress i j = p.node + 12 * i + 4 * j ∧
    p.action .registers .readWord (p.regAddress reg) = some (.readReg reg) ∧
    p.action .registers (.writeWord w) (p.regAddress reg) = some (.writeReg reg w) ∧
    p.action .input .readByte (p.inAddress k) = some (.readIn k) ∧
    p.action .input (.writeByte b) (p.inAddress k) = some (.writeIn k b) ∧
    ∃ a, p.action .node .readWord (p.nodeAddress i j) = some a ∧
      ∀ s : State, hostStep a s = hostStep (.readNode i j) s

/-- R82, R268, R316: in DONE, word j ∈ {0, 1, 2} of a record i < NODE_COUNT, and the word at node offset 12·i + 4·j, is the stored
word; every other node read is any value (log 7). -/
def Obligations.NodeReadsAreExactOnlyInAResult : Prop :=
  ∀ (s : State) (i j : Nat),
    (∀ r, s.phase = .done → i < s.ncount.toNat → Memory.read s.node i = some r →
      (j = 0 → hostStep (.readNode i j) s = .next { s with readData := r.w0 }) ∧
      (j = 1 → hostStep (.readNode i j) s = .next { s with readData := r.w1 }) ∧
      (j = 2 → hostStep (.readNode i j) s = .next { s with readData := r.w2 })) ∧
    (s.phase ≠ .done ∨ s.ncount.toNat ≤ i ∨ 2 < j →
      hostStep (.readNode i j) s = .next { s with readData := Config.anyWord s.draws, draws := s.draws + 1 }) ∧
    (j ≤ 2 → ∀ n, 4 * n = 12 * i + 4 * j → hostStep (.readNodeWord n) s = hostStep (.readNode i j) s)

/-- R55, R310: reset, at any moment, sets every piece of state to its reset value; the hardwired registers stay; the memories hold
unspecified contents: every input byte is a fresh free value and no record is stored (logs 6, 8). -/
def Obligations.ResetSetsEveryResetValue : Prop :=
  ∀ (s : State) (rest : List Turn), s.turns = .host .reset :: rest →
    ∃ t, step s = .next t ∧ t.turns = rest ∧
      t.phase = .idle ∧ t.pos = 0 ∧ t.hv = 0 ∧ t.ht = 0 ∧ t.cont = 0 ∧ t.acc = 0 ∧ t.stack = [] ∧
      t.len = 0 ∧ t.startPos = 0 ∧ t.endPos = 0 ∧ t.ncount = 0 ∧
      t.errKind = .none ∧ t.errPos = 0 ∧ t.errA = 0 ∧ t.errB = 0 ∧
      t.capIn = s.capIn ∧ t.capStack = s.capStack ∧ t.capNode = s.capNode ∧
      statusState t = 0 ∧ regValue t .ctrl = 0 ∧
      (∀ k, inByte t k = Config.unwrittenByte (s.resets + 1) k) ∧ ∀ i, Memory.read t.node i = none
end

