-- ==== Sys2Proof/Laws/Memory.lean ====
section
/-! SUPPORT. The laws of the two memories: a read after a write, and that a write keeps the canonical form and the bound. -/

namespace Sys2Proof.Machine

variable {α : Type}

@[simp] theorem Memory.read_write_same (m : List (Nat × α)) (k : Nat) (x : α) :
    Memory.read (Memory.write m k x) k = some x := by
  induction m with
  | nil => simp [Memory.write, Memory.read]
  | cons e rest ih =>
    obtain ⟨a, y⟩ := e
    simp only [Memory.write]
    split
    · simp [Memory.read]
    · split
      · simp [Memory.read]
      · rename_i h
        simp [Memory.read, Ne.symm h, ih]

theorem Memory.read_write_other (m : List (Nat × α)) {k j : Nat} (x : α) (h : j ≠ k) :
    Memory.read (Memory.write m k x) j = Memory.read m j := by
  induction m with
  | nil => simp [Memory.write, Memory.read, Ne.symm h]
  | cons e rest ih =>
    obtain ⟨a, y⟩ := e
    simp only [Memory.write]
    split
    · simp [Memory.read, Ne.symm h]
    · split
      · rename_i e
        subst e
        simp [Memory.read, Ne.symm h]
      · simp [Memory.read, ih]

theorem Memory.read_write (m : List (Nat × α)) (k j : Nat) (x : α) :
    Memory.read (Memory.write m k x) j = if j = k then some x else Memory.read m j := by
  split
  · rename_i e
    subst e
    exact Memory.read_write_same m j x
  · exact Memory.read_write_other m x ‹_›

theorem Memory.write_rises (m : List (Nat × α)) (a k : Nat) (x : α) (h : Memory.risesFrom a m = true) (hk : a < k) :
    Memory.risesFrom a (Memory.write m k x) = true := by
  induction m generalizing a with
  | nil => simp [Memory.write, Memory.risesFrom, hk]
  | cons e rest ih =>
    obtain ⟨b, y⟩ := e
    simp only [Memory.risesFrom, Bool.and_eq_true, decide_eq_true_eq] at h
    simp only [Memory.write]
    split
    · rename_i hb
      simp [Memory.risesFrom, hk, hb, h.2]
    · split
      · rename_i e
        subst e
        simp [Memory.risesFrom, hk, h.2]
      · have hb : b < k := by omega
        simp [Memory.risesFrom, h.1, ih b h.2 hb]

/-- A write keeps the canonical form. -/
theorem Memory.write_wf (m : List (Nat × α)) (k : Nat) (x : α) (h : Memory.wf m = true) :
    Memory.wf (Memory.write m k x) = true := by
  cases m with
  | nil => rfl
  | cons e rest =>
    obtain ⟨a, y⟩ := e
    simp only [Memory.wf] at h
    simp only [Memory.write]
    split
    · rename_i hb
      simp [Memory.wf, Memory.risesFrom, hb, h]
    · split
      · rename_i e
        subst e
        simpa [Memory.wf] using h
      · exact Memory.write_rises rest a k x h (by omega)

/-- A write below the bound keeps every address below it. -/
theorem Memory.write_below (m : List (Nat × α)) (bound k : Nat) (x : α) (h : Memory.below bound m = true)
    (hk : k < bound) : Memory.below bound (Memory.write m k x) = true := by
  induction m with
  | nil => simp [Memory.write, Memory.below, hk]
  | cons e rest ih =>
    obtain ⟨a, y⟩ := e
    simp only [Memory.below, List.all_cons, Bool.and_eq_true, decide_eq_true_eq] at h ih ⊢
    simp only [Memory.write]
    split
    · simp [hk, h.1, h.2]
    · split
      · simp [hk, h.2]
      · simp [h.1, ih h.2]

end Sys2Proof.Machine
end

