-- ==== Sys2Proof/Laws/State.lean ====
section
/-! SUPPORT. One lemma per field and named update of the state: what the update leaves in the field. Named updates are never
unfolded in a proof; these lemmas are simp's. -/

namespace Sys2Proof.Machine

@[simp] theorem errorEntry_phase (e : ErrorKind) (p a b : Word) (s : State) : (errorEntry e p a b s).phase = .error := rfl
@[simp] theorem errorEntry_pos (e : ErrorKind) (p a b : Word) (s : State) : (errorEntry e p a b s).pos = s.pos := rfl
@[simp] theorem errorEntry_hv (e : ErrorKind) (p a b : Word) (s : State) : (errorEntry e p a b s).hv = s.hv := rfl
@[simp] theorem errorEntry_ht (e : ErrorKind) (p a b : Word) (s : State) : (errorEntry e p a b s).ht = s.ht := rfl
@[simp] theorem errorEntry_cont (e : ErrorKind) (p a b : Word) (s : State) : (errorEntry e p a b s).cont = s.cont := rfl
@[simp] theorem errorEntry_acc (e : ErrorKind) (p a b : Word) (s : State) : (errorEntry e p a b s).acc = s.acc := rfl
@[simp] theorem errorEntry_stack (e : ErrorKind) (p a b : Word) (s : State) : (errorEntry e p a b s).stack = [] := rfl
@[simp] theorem errorEntry_inMem (e : ErrorKind) (p a b : Word) (s : State) : (errorEntry e p a b s).inMem = s.inMem := rfl
@[simp] theorem errorEntry_node (e : ErrorKind) (p a b : Word) (s : State) : (errorEntry e p a b s).node = s.node := rfl
@[simp] theorem errorEntry_ncount (e : ErrorKind) (p a b : Word) (s : State) : (errorEntry e p a b s).ncount = 0 := rfl
@[simp] theorem errorEntry_len (e : ErrorKind) (p a b : Word) (s : State) : (errorEntry e p a b s).len = s.len := rfl
@[simp] theorem errorEntry_startPos (e : ErrorKind) (p a b : Word) (s : State) : (errorEntry e p a b s).startPos = s.startPos := rfl
@[simp] theorem errorEntry_endPos (e : ErrorKind) (p a b : Word) (s : State) : (errorEntry e p a b s).endPos = p := rfl
@[simp] theorem errorEntry_errKind (e : ErrorKind) (p a b : Word) (s : State) : (errorEntry e p a b s).errKind = e := rfl
@[simp] theorem errorEntry_errPos (e : ErrorKind) (p a b : Word) (s : State) : (errorEntry e p a b s).errPos = p := rfl
@[simp] theorem errorEntry_errA (e : ErrorKind) (p a b : Word) (s : State) : (errorEntry e p a b s).errA = a := rfl
@[simp] theorem errorEntry_errB (e : ErrorKind) (p a b : Word) (s : State) : (errorEntry e p a b s).errB = b := rfl
@[simp] theorem errorEntry_capIn (e : ErrorKind) (p a b : Word) (s : State) : (errorEntry e p a b s).capIn = s.capIn := rfl
@[simp] theorem errorEntry_capStack (e : ErrorKind) (p a b : Word) (s : State) : (errorEntry e p a b s).capStack = s.capStack := rfl
@[simp] theorem errorEntry_capNode (e : ErrorKind) (p a b : Word) (s : State) : (errorEntry e p a b s).capNode = s.capNode := rfl
@[simp] theorem errorEntry_turns (e : ErrorKind) (p a b : Word) (s : State) : (errorEntry e p a b s).turns = s.turns := rfl
@[simp] theorem errorEntry_readData (e : ErrorKind) (p a b : Word) (s : State) : (errorEntry e p a b s).readData = s.readData := rfl
@[simp] theorem errorEntry_draws (e : ErrorKind) (p a b : Word) (s : State) : (errorEntry e p a b s).draws = s.draws := rfl
@[simp] theorem errorEntry_resets (e : ErrorKind) (p a b : Word) (s : State) : (errorEntry e p a b s).resets = s.resets := rfl

@[simp] theorem moveCursor_phase (n : Nat) (s : State) : (moveCursor n s).phase = s.phase := rfl
@[simp] theorem moveCursor_pos (n : Nat) (s : State) : (moveCursor n s).pos = s.pos + BitVec.ofNat 32 n := rfl
@[simp] theorem moveCursor_hv (n : Nat) (s : State) : (moveCursor n s).hv = s.hv := rfl
@[simp] theorem moveCursor_ht (n : Nat) (s : State) : (moveCursor n s).ht = s.ht := rfl
@[simp] theorem moveCursor_cont (n : Nat) (s : State) : (moveCursor n s).cont = s.cont := rfl
@[simp] theorem moveCursor_acc (n : Nat) (s : State) : (moveCursor n s).acc = s.acc := rfl
@[simp] theorem moveCursor_stack (n : Nat) (s : State) : (moveCursor n s).stack = s.stack := rfl
@[simp] theorem moveCursor_inMem (n : Nat) (s : State) : (moveCursor n s).inMem = s.inMem := rfl
@[simp] theorem moveCursor_node (n : Nat) (s : State) : (moveCursor n s).node = s.node := rfl
@[simp] theorem moveCursor_ncount (n : Nat) (s : State) : (moveCursor n s).ncount = s.ncount := rfl
@[simp] theorem moveCursor_len (n : Nat) (s : State) : (moveCursor n s).len = s.len := rfl
@[simp] theorem moveCursor_startPos (n : Nat) (s : State) : (moveCursor n s).startPos = s.startPos := rfl
@[simp] theorem moveCursor_endPos (n : Nat) (s : State) : (moveCursor n s).endPos = s.endPos := rfl
@[simp] theorem moveCursor_errKind (n : Nat) (s : State) : (moveCursor n s).errKind = s.errKind := rfl
@[simp] theorem moveCursor_errPos (n : Nat) (s : State) : (moveCursor n s).errPos = s.errPos := rfl
@[simp] theorem moveCursor_errA (n : Nat) (s : State) : (moveCursor n s).errA = s.errA := rfl
@[simp] theorem moveCursor_errB (n : Nat) (s : State) : (moveCursor n s).errB = s.errB := rfl
@[simp] theorem moveCursor_capIn (n : Nat) (s : State) : (moveCursor n s).capIn = s.capIn := rfl
@[simp] theorem moveCursor_capStack (n : Nat) (s : State) : (moveCursor n s).capStack = s.capStack := rfl
@[simp] theorem moveCursor_capNode (n : Nat) (s : State) : (moveCursor n s).capNode = s.capNode := rfl
@[simp] theorem moveCursor_turns (n : Nat) (s : State) : (moveCursor n s).turns = s.turns := rfl
@[simp] theorem moveCursor_readData (n : Nat) (s : State) : (moveCursor n s).readData = s.readData := rfl
@[simp] theorem moveCursor_draws (n : Nat) (s : State) : (moveCursor n s).draws = s.draws := rfl
@[simp] theorem moveCursor_resets (n : Nat) (s : State) : (moveCursor n s).resets = s.resets := rfl

@[simp] theorem pushFrame_phase (m : Framing) (t : BitVec 15) (s : State) : (pushFrame m t s).phase = s.phase := rfl
@[simp] theorem pushFrame_pos (m : Framing) (t : BitVec 15) (s : State) : (pushFrame m t s).pos = s.pos := rfl
@[simp] theorem pushFrame_hv (m : Framing) (t : BitVec 15) (s : State) : (pushFrame m t s).hv = s.hv := rfl
@[simp] theorem pushFrame_ht (m : Framing) (t : BitVec 15) (s : State) : (pushFrame m t s).ht = s.ht := rfl
@[simp] theorem pushFrame_cont (m : Framing) (t : BitVec 15) (s : State) : (pushFrame m t s).cont = s.cont := rfl
@[simp] theorem pushFrame_acc (m : Framing) (t : BitVec 15) (s : State) : (pushFrame m t s).acc = s.acc := rfl
@[simp] theorem pushFrame_stack (m : Framing) (t : BitVec 15) (s : State) : (pushFrame m t s).stack = { ver := s.hv, tag := s.ht, mode := m, target := t, start := s.pos, n := 0 } :: s.stack := rfl
@[simp] theorem pushFrame_inMem (m : Framing) (t : BitVec 15) (s : State) : (pushFrame m t s).inMem = s.inMem := rfl
@[simp] theorem pushFrame_node (m : Framing) (t : BitVec 15) (s : State) : (pushFrame m t s).node = s.node := rfl
@[simp] theorem pushFrame_ncount (m : Framing) (t : BitVec 15) (s : State) : (pushFrame m t s).ncount = s.ncount := rfl
@[simp] theorem pushFrame_len (m : Framing) (t : BitVec 15) (s : State) : (pushFrame m t s).len = s.len := rfl
@[simp] theorem pushFrame_startPos (m : Framing) (t : BitVec 15) (s : State) : (pushFrame m t s).startPos = s.startPos := rfl
@[simp] theorem pushFrame_endPos (m : Framing) (t : BitVec 15) (s : State) : (pushFrame m t s).endPos = s.endPos := rfl
@[simp] theorem pushFrame_errKind (m : Framing) (t : BitVec 15) (s : State) : (pushFrame m t s).errKind = s.errKind := rfl
@[simp] theorem pushFrame_errPos (m : Framing) (t : BitVec 15) (s : State) : (pushFrame m t s).errPos = s.errPos := rfl
@[simp] theorem pushFrame_errA (m : Framing) (t : BitVec 15) (s : State) : (pushFrame m t s).errA = s.errA := rfl
@[simp] theorem pushFrame_errB (m : Framing) (t : BitVec 15) (s : State) : (pushFrame m t s).errB = s.errB := rfl
@[simp] theorem pushFrame_capIn (m : Framing) (t : BitVec 15) (s : State) : (pushFrame m t s).capIn = s.capIn := rfl
@[simp] theorem pushFrame_capStack (m : Framing) (t : BitVec 15) (s : State) : (pushFrame m t s).capStack = s.capStack := rfl
@[simp] theorem pushFrame_capNode (m : Framing) (t : BitVec 15) (s : State) : (pushFrame m t s).capNode = s.capNode := rfl
@[simp] theorem pushFrame_turns (m : Framing) (t : BitVec 15) (s : State) : (pushFrame m t s).turns = s.turns := rfl
@[simp] theorem pushFrame_readData (m : Framing) (t : BitVec 15) (s : State) : (pushFrame m t s).readData = s.readData := rfl
@[simp] theorem pushFrame_draws (m : Framing) (t : BitVec 15) (s : State) : (pushFrame m t s).draws = s.draws := rfl
@[simp] theorem pushFrame_resets (m : Framing) (t : BitVec 15) (s : State) : (pushFrame m t s).resets = s.resets := rfl

@[simp] theorem launch_phase (s : State) : (launch s).phase = .hdrV := rfl
@[simp] theorem launch_pos (s : State) : (launch s).pos = s.startPos := rfl
@[simp] theorem launch_hv (s : State) : (launch s).hv = 0 := rfl
@[simp] theorem launch_ht (s : State) : (launch s).ht = 0 := rfl
@[simp] theorem launch_cont (s : State) : (launch s).cont = 0 := rfl
@[simp] theorem launch_acc (s : State) : (launch s).acc = 0 := rfl
@[simp] theorem launch_stack (s : State) : (launch s).stack = [] := rfl
@[simp] theorem launch_inMem (s : State) : (launch s).inMem = s.inMem := rfl
@[simp] theorem launch_node (s : State) : (launch s).node = s.node := rfl
@[simp] theorem launch_ncount (s : State) : (launch s).ncount = 0 := rfl
@[simp] theorem launch_len (s : State) : (launch s).len = s.len := rfl
@[simp] theorem launch_startPos (s : State) : (launch s).startPos = s.startPos := rfl
@[simp] theorem launch_endPos (s : State) : (launch s).endPos = 0 := rfl
@[simp] theorem launch_errKind (s : State) : (launch s).errKind = .none := rfl
@[simp] theorem launch_errPos (s : State) : (launch s).errPos = 0 := rfl
@[simp] theorem launch_errA (s : State) : (launch s).errA = 0 := rfl
@[simp] theorem launch_errB (s : State) : (launch s).errB = 0 := rfl
@[simp] theorem launch_capIn (s : State) : (launch s).capIn = s.capIn := rfl
@[simp] theorem launch_capStack (s : State) : (launch s).capStack = s.capStack := rfl
@[simp] theorem launch_capNode (s : State) : (launch s).capNode = s.capNode := rfl
@[simp] theorem launch_turns (s : State) : (launch s).turns = s.turns := rfl
@[simp] theorem launch_readData (s : State) : (launch s).readData = s.readData := rfl
@[simp] theorem launch_draws (s : State) : (launch s).draws = s.draws := rfl
@[simp] theorem launch_resets (s : State) : (launch s).resets = s.resets := rfl

@[simp] theorem returnWord_phase (w : Word) (s : State) : (returnWord w s).phase = s.phase := rfl
@[simp] theorem returnWord_pos (w : Word) (s : State) : (returnWord w s).pos = s.pos := rfl
@[simp] theorem returnWord_hv (w : Word) (s : State) : (returnWord w s).hv = s.hv := rfl
@[simp] theorem returnWord_ht (w : Word) (s : State) : (returnWord w s).ht = s.ht := rfl
@[simp] theorem returnWord_cont (w : Word) (s : State) : (returnWord w s).cont = s.cont := rfl
@[simp] theorem returnWord_acc (w : Word) (s : State) : (returnWord w s).acc = s.acc := rfl
@[simp] theorem returnWord_stack (w : Word) (s : State) : (returnWord w s).stack = s.stack := rfl
@[simp] theorem returnWord_inMem (w : Word) (s : State) : (returnWord w s).inMem = s.inMem := rfl
@[simp] theorem returnWord_node (w : Word) (s : State) : (returnWord w s).node = s.node := rfl
@[simp] theorem returnWord_ncount (w : Word) (s : State) : (returnWord w s).ncount = s.ncount := rfl
@[simp] theorem returnWord_len (w : Word) (s : State) : (returnWord w s).len = s.len := rfl
@[simp] theorem returnWord_startPos (w : Word) (s : State) : (returnWord w s).startPos = s.startPos := rfl
@[simp] theorem returnWord_endPos (w : Word) (s : State) : (returnWord w s).endPos = s.endPos := rfl
@[simp] theorem returnWord_errKind (w : Word) (s : State) : (returnWord w s).errKind = s.errKind := rfl
@[simp] theorem returnWord_errPos (w : Word) (s : State) : (returnWord w s).errPos = s.errPos := rfl
@[simp] theorem returnWord_errA (w : Word) (s : State) : (returnWord w s).errA = s.errA := rfl
@[simp] theorem returnWord_errB (w : Word) (s : State) : (returnWord w s).errB = s.errB := rfl
@[simp] theorem returnWord_capIn (w : Word) (s : State) : (returnWord w s).capIn = s.capIn := rfl
@[simp] theorem returnWord_capStack (w : Word) (s : State) : (returnWord w s).capStack = s.capStack := rfl
@[simp] theorem returnWord_capNode (w : Word) (s : State) : (returnWord w s).capNode = s.capNode := rfl
@[simp] theorem returnWord_turns (w : Word) (s : State) : (returnWord w s).turns = s.turns := rfl
@[simp] theorem returnWord_readData (w : Word) (s : State) : (returnWord w s).readData = w := rfl
@[simp] theorem returnWord_draws (w : Word) (s : State) : (returnWord w s).draws = s.draws := rfl
@[simp] theorem returnWord_resets (w : Word) (s : State) : (returnWord w s).resets = s.resets := rfl

@[simp] theorem returnAny_phase (s : State) : (returnAny s).phase = s.phase := rfl
@[simp] theorem returnAny_pos (s : State) : (returnAny s).pos = s.pos := rfl
@[simp] theorem returnAny_hv (s : State) : (returnAny s).hv = s.hv := rfl
@[simp] theorem returnAny_ht (s : State) : (returnAny s).ht = s.ht := rfl
@[simp] theorem returnAny_cont (s : State) : (returnAny s).cont = s.cont := rfl
@[simp] theorem returnAny_acc (s : State) : (returnAny s).acc = s.acc := rfl
@[simp] theorem returnAny_stack (s : State) : (returnAny s).stack = s.stack := rfl
@[simp] theorem returnAny_inMem (s : State) : (returnAny s).inMem = s.inMem := rfl
@[simp] theorem returnAny_node (s : State) : (returnAny s).node = s.node := rfl
@[simp] theorem returnAny_ncount (s : State) : (returnAny s).ncount = s.ncount := rfl
@[simp] theorem returnAny_len (s : State) : (returnAny s).len = s.len := rfl
@[simp] theorem returnAny_startPos (s : State) : (returnAny s).startPos = s.startPos := rfl
@[simp] theorem returnAny_endPos (s : State) : (returnAny s).endPos = s.endPos := rfl
@[simp] theorem returnAny_errKind (s : State) : (returnAny s).errKind = s.errKind := rfl
@[simp] theorem returnAny_errPos (s : State) : (returnAny s).errPos = s.errPos := rfl
@[simp] theorem returnAny_errA (s : State) : (returnAny s).errA = s.errA := rfl
@[simp] theorem returnAny_errB (s : State) : (returnAny s).errB = s.errB := rfl
@[simp] theorem returnAny_capIn (s : State) : (returnAny s).capIn = s.capIn := rfl
@[simp] theorem returnAny_capStack (s : State) : (returnAny s).capStack = s.capStack := rfl
@[simp] theorem returnAny_capNode (s : State) : (returnAny s).capNode = s.capNode := rfl
@[simp] theorem returnAny_turns (s : State) : (returnAny s).turns = s.turns := rfl
@[simp] theorem returnAny_readData (s : State) : (returnAny s).readData = Config.anyWord s.draws := rfl
@[simp] theorem returnAny_draws (s : State) : (returnAny s).draws = s.draws + 1 := rfl
@[simp] theorem returnAny_resets (s : State) : (returnAny s).resets = s.resets := rfl

@[simp] theorem resetBlock_phase (s : State) : (resetBlock s).phase = .idle := rfl
@[simp] theorem resetBlock_pos (s : State) : (resetBlock s).pos = 0 := rfl
@[simp] theorem resetBlock_hv (s : State) : (resetBlock s).hv = 0 := rfl
@[simp] theorem resetBlock_ht (s : State) : (resetBlock s).ht = 0 := rfl
@[simp] theorem resetBlock_cont (s : State) : (resetBlock s).cont = 0 := rfl
@[simp] theorem resetBlock_acc (s : State) : (resetBlock s).acc = 0 := rfl
@[simp] theorem resetBlock_stack (s : State) : (resetBlock s).stack = [] := rfl
@[simp] theorem resetBlock_inMem (s : State) : (resetBlock s).inMem = [] := rfl
@[simp] theorem resetBlock_node (s : State) : (resetBlock s).node = [] := rfl
@[simp] theorem resetBlock_ncount (s : State) : (resetBlock s).ncount = 0 := rfl
@[simp] theorem resetBlock_len (s : State) : (resetBlock s).len = 0 := rfl
@[simp] theorem resetBlock_startPos (s : State) : (resetBlock s).startPos = 0 := rfl
@[simp] theorem resetBlock_endPos (s : State) : (resetBlock s).endPos = 0 := rfl
@[simp] theorem resetBlock_errKind (s : State) : (resetBlock s).errKind = .none := rfl
@[simp] theorem resetBlock_errPos (s : State) : (resetBlock s).errPos = 0 := rfl
@[simp] theorem resetBlock_errA (s : State) : (resetBlock s).errA = 0 := rfl
@[simp] theorem resetBlock_errB (s : State) : (resetBlock s).errB = 0 := rfl
@[simp] theorem resetBlock_capIn (s : State) : (resetBlock s).capIn = s.capIn := rfl
@[simp] theorem resetBlock_capStack (s : State) : (resetBlock s).capStack = s.capStack := rfl
@[simp] theorem resetBlock_capNode (s : State) : (resetBlock s).capNode = s.capNode := rfl
@[simp] theorem resetBlock_turns (s : State) : (resetBlock s).turns = s.turns := rfl
@[simp] theorem resetBlock_readData (s : State) : (resetBlock s).readData = s.readData := rfl
@[simp] theorem resetBlock_draws (s : State) : (resetBlock s).draws = s.draws := rfl
@[simp] theorem resetBlock_resets (s : State) : (resetBlock s).resets = s.resets + 1 := rfl

end Sys2Proof.Machine
end

