-- ==== Sys2Proof/Laws/Ops.lean ====
section
/-! SUPPORT. One lemma per shared operation that says what it does, so that a proof cites it and does not unfold. -/

namespace Sys2Proof.Machine

/-- READ's cursor part on a field that lies inside the stream and the memory. -/
theorem takeField_fits {n : Nat} {s : State} {k : State → Result} (h1 : 1 ≤ n) (h16 : n ≤ 16)
    (hlen : s.pos.toNat + n ≤ s.len.toNat) (hcap : s.len.toNat ≤ 8 * s.capIn.toNat) :
    takeField n s k = k (moveCursor n s) := by
  unfold takeField Config.maxFieldWidth
  rw [if_neg (by omega), if_neg (by omega), if_neg (by omega)]

/-- READ's cursor part on a field that runs past LEN. -/
theorem takeField_short {n : Nat} {s : State} {k : State → Result} (h1 : 1 ≤ n) (h16 : n ≤ 16)
    (hlen : s.len.toNat < s.pos.toNat + n) : takeField n s k = .next (insufficientBits n s) := by
  unfold takeField Config.maxFieldWidth
  rw [if_neg (by omega), if_pos (by omega)]

/-- Everything READ's cursor part can do when it answers a next state. -/
theorem takeField_next {n : Nat} {s t : State} {k : State → Result} (h : takeField n s k = .next t) :
    (s.len.toNat < s.pos.toNat + n ∧ t = insufficientBits n s) ∨
    (s.pos.toNat + n ≤ s.len.toNat ∧ s.pos.toNat + n ≤ 8 * s.capIn.toNat ∧ k (moveCursor n s) = .next t) := by
  unfold takeField at h
  split at h
  · cases h
  · split at h
    · exact .inl ⟨by assumption, by cases h; rfl⟩
    · split at h
      · cases h
      · exact .inr ⟨by omega, by omega, h⟩

/-- The cursor after a field that fits does not wrap (R32). -/
theorem moveCursor_toNat {n : Nat} {s : State} (hlen : s.pos.toNat + n ≤ s.len.toNat) :
    (moveCursor n s).pos.toNat = s.pos.toNat + n := by
  have := s.len.isLt
  rw [moveCursor_pos, BitVec.toNat_add, BitVec.toNat_ofNat]
  omega

/-- Everything Emit can do when it answers a next state. -/
theorem emit_next {r : NodeRecord} {s t : State} (h : emit r s = .next t) :
    s.ncount.toNat < s.capNode.toNat ∧ childRoom s.stack = true ∧
    t = { s with
      node := Memory.write s.node s.ncount.toNat r, ncount := s.ncount + 1, stack := countChild s.stack } := by
  unfold emit at h
  split at h
  · rename_i hc
    simp only [Bool.and_eq_true, decide_eq_true_eq] at hc
    exact ⟨hc.1, hc.2, by cases h; rfl⟩
  · cases h

/-- Emit where NCOUNT and the top frame have room. -/
theorem emit_room {r : NodeRecord} {s : State} (h : s.ncount.toNat < s.capNode.toNat) (hc : childRoom s.stack = true) :
    emit r s = .next { s with
      node := Memory.write s.node s.ncount.toNat r, ncount := s.ncount + 1, stack := countChild s.stack } := by
  unfold emit
  rw [if_pos (by simp [h, hc])]

/-- Everything one step after another can do when it answers a next state. -/
theorem thenStep_next {o : Result} {k : State → Result} {t : State} (h : thenStep o k = .next t) :
    ∃ s, o = .next s ∧ ((s.phase = .error ∧ t = s) ∨ (s.phase ≠ .error ∧ k s = .next t)) := by
  cases o with
  | next s =>
    refine ⟨s, rfl, ?_⟩
    simp only [thenStep] at h
    split at h
    · exact .inl ⟨‹_›, by cases h; rfl⟩
    · exact .inr ⟨‹_›, h⟩
  | fault f => cases h
  | refused r => cases h

/-- The second step runs where the first left the decode going. -/
theorem thenStep_going {s : State} {k : State → Result} (h : s.phase ≠ .error) : thenStep (.next s) k = k s := by
  simp [thenStep, h]

/-- Everything LIT_G's writes can do when they answer a next state. -/
theorem nibbleRead_next {before s t : State} {g : BitVec 4} (h : nibbleRead before g s = .next t) :
    (2 ^ Config.litWidth ≤ accumulate s.acc g ∧ t = literalOverflow before) ∨
    (accumulate s.acc g < 2 ^ Config.litWidth ∧ s.cont = 1 ∧
      t = { s with acc := BitVec.ofNat 64 (accumulate s.acc g), phase := .litC }) ∨
    (accumulate s.acc g < 2 ^ Config.litWidth ∧ s.cont ≠ 1 ∧
      emit (literalRecord s.hv (BitVec.ofNat 64 (accumulate s.acc g)))
        { s with acc := BitVec.ofNat 64 (accumulate s.acc g), phase := .next } = .next t) := by
  unfold nibbleRead at h
  split at h
  · exact .inl ⟨‹_›, by cases h; rfl⟩
  · split at h
    · exact .inr (.inl ⟨by omega, ‹_›, by cases h; rfl⟩)
    · exact .inr (.inr ⟨by omega, ‹_›, h⟩)

/-- Everything HDR_T's writes do. -/
theorem tagRead_next {t : Tag} {s u : State} (h : tagRead t s = .next u) :
    (t = Config.literalTag ∧ u = { s with ht := t, acc := 0, phase := .litC }) ∨
    (t ≠ Config.literalTag ∧ u = { s with ht := t, phase := .opM }) := by
  unfold tagRead at h
  split at h
  · exact .inl ⟨‹_›, by cases h; rfl⟩
  · exact .inr ⟨‹_›, by cases h; rfl⟩

/-- What a frame's status says of it (R199). -/
theorem frameStatus_cases (f : Frame) (pos : Word) :
    (frameStatus f pos = .more ∧
      (f.mode = .totalLength ∧ pos.toNat - f.start.toNat < f.target.toNat ∨
       f.mode = .count ∧ f.n.toNat < f.target.toNat)) ∨
    (frameStatus f pos = .complete ∧
      (f.mode = .totalLength ∧ pos.toNat - f.start.toNat = f.target.toNat ∨
       f.mode = .count ∧ f.n.toNat = f.target.toNat)) ∨
    (frameStatus f pos = .overshoot (pos.toNat - f.start.toNat) ∧
      f.mode = .totalLength ∧ f.target.toNat < pos.toNat - f.start.toNat) ∨
    (frameStatus f pos = .impossible ∧ f.mode = .count ∧ f.target.toNat < f.n.toNat) := by
  unfold frameStatus
  cases hm : f.mode
  · rcases Nat.lt_trichotomy (pos.toNat - f.start.toNat) f.target.toNat with h | h | h
    · simp [h]
    · simp [h]
    · simp [h, Nat.lt_asymm h, Nat.ne_of_gt h]
  · rcases Nat.lt_trichotomy f.n.toNat f.target.toNat with h | h | h
    · simp [h]
    · simp [h]
    · simp [h, Nat.lt_asymm h, Nat.ne_of_gt h]

/-- Everything NEXT can do when it answers a next state. -/
theorem stepNext_next {s t : State} (h : stepNext s = .next t) :
    (s.stack = [] ∧ t = { s with endPos := s.pos, phase := .done }) ∨
    ∃ f rest, s.stack = f :: rest ∧
      ((frameStatus f s.pos = .more ∧ t = { s with phase := .hdrV }) ∨
       (frameStatus f s.pos = .complete ∧ emit (operatorRecord f) { s with stack := rest, phase := .next } = .next t) ∨
       (∃ c, frameStatus f s.pos = .overshoot c ∧ t = malformedLength f c s)) := by
  unfold stepNext at h
  split at h
  · exact .inl ⟨‹_›, by cases h; rfl⟩
  · rename_i f rest hs
    refine .inr ⟨f, rest, hs, ?_⟩
    split at h
    · exact .inl ⟨‹_›, by cases h; rfl⟩
    · exact .inr (.inl ⟨‹_›, h⟩)
    · rename_i c hc
      exact .inr (.inr ⟨c, hc, by cases h; rfl⟩)
    · cases h

/-- Everything START can do: it never stops. -/
theorem execStart_cases (reserved : BitVec 31) (s : State) :
    (busy s = true ∧ execStart reserved s = .next s) ∨
    (busy s = false ∧ configLegal s = true ∧ execStart reserved s = .next (launch s)) ∨
    (busy s = false ∧ configLegal s = false ∧ execStart reserved s = .next (configInvalid s)) := by
  unfold execStart
  cases hb : busy s <;> cases hc : configLegal s <;> simp

/-- Storing consecutive bytes keeps the canonical form. -/
theorem storeBytes_wf (bs : List Byte) (m : List (Nat × Byte)) (k : Nat) (h : Memory.wf m = true) :
    Memory.wf (storeBytes m k bs) = true := by
  induction bs generalizing m k with
  | nil => exact h
  | cons b rest ih => exact ih _ _ (Memory.write_wf m k b h)

/-- No frame can be pushed exactly where STACK_DEPTH is finite and reached. -/
theorem stackFull_iff (s : State) : stackFull s = true ↔ s.capStack ≠ 0 ∧ s.capStack.toNat ≤ s.stack.length := by
  unfold stackFull depthLimit
  by_cases h : s.capStack = 0
  · simp [h]
  · rw [if_neg h]
    simp only [decide_eq_true_eq]
    exact ⟨fun h' => ⟨h, h'⟩, fun h' => h'.2⟩

/-- The cursor after two fields of one stream (no wrap is needed). -/
theorem pos_add (p : Word) (a b : Nat) : p + BitVec.ofNat 32 a + BitVec.ofNat 32 b = p + BitVec.ofNat 32 (a + b) := by
  rw [BitVec.add_assoc, BitVec.ofNat_add]

/-- A position inside the stream, n bits on. -/
theorem pos_add_toNat {p l : Word} {n : Nat} (h : p.toNat + n ≤ l.toNat) :
    (p + BitVec.ofNat 32 n).toNat = p.toNat + n := by
  have := l.isLt
  rw [BitVec.toNat_add, BitVec.toNat_ofNat]
  omega

/-- The 6-bit header where it fits: everything but HDR_T's own writes is done. -/
theorem headerSteps_fits {s : State} {v : Version} {t : Tag} (hlen : s.pos.toNat + 6 ≤ s.len.toNat)
    (hcap : s.len.toNat ≤ 8 * s.capIn.toNat) :
    headerSteps v t s = tagRead t { s with pos := s.pos + BitVec.ofNat 32 6, hv := v, phase := .hdrT } := by
  have e := pos_add_toNat (p := s.pos) (n := 3) (l := s.len) (by omega)
  unfold headerSteps
  rw [takeField_fits (by omega) (by omega) (by omega) hcap]
  simp only [versionRead]
  rw [thenStep_going (by simp), takeField_fits (by omega) (by omega)
    (by simp only [moveCursor_pos, moveCursor_len]; omega) (by simpa using hcap)]
  simp only [moveCursor, pos_add]

/-- One group where it fits: everything but LIT_G's own writes is done. -/
theorem groupSteps_fits {s : State} {c : BitVec 1} {g : BitVec 4} (hlen : s.pos.toNat + 5 ≤ s.len.toNat)
    (hcap : s.len.toNat ≤ 8 * s.capIn.toNat) :
    groupSteps c g s =
      nibbleRead { s with pos := s.pos + BitVec.ofNat 32 1, cont := c, phase := .litG } g
        { s with pos := s.pos + BitVec.ofNat 32 5, cont := c, phase := .litG } := by
  have e := pos_add_toNat (p := s.pos) (n := 1) (l := s.len) (by omega)
  unfold groupSteps
  rw [takeField_fits (by omega) (by omega) (by omega) hcap]
  simp only [continuationRead]
  rw [thenStep_going (by simp), takeField_fits (by omega) (by omega)
    (by simp only [moveCursor_pos, moveCursor_len]; omega) (by simpa using hcap)]
  simp only [moveCursor, pos_add]

end Sys2Proof.Machine
end

