-- ==== Sys2Proof/Laws/Launch.lean ====
section
/-! SUPPORT. What turns do through a step, and the launch premises of R322. -/

namespace Sys2Proof

open Machine

/-- READ's cursor part keeps what the rest of its step keeps of the turns. -/
theorem takeField_turns {n : Nat} {s t : State} {k : State → Result} (h : takeField n s k = .next t)
    (hk : ∀ u v, k u = .next v → v.turns = u.turns) : t.turns = s.turns := by
  rcases takeField_next h with ⟨_, rfl⟩ | ⟨_, _, h⟩
  · rfl
  · exact hk (moveCursor n s) _ h

/-- Two steps that keep the turns, one after another, keep them. -/
theorem thenStep_turns {o : Result} {k : State → Result} {s t : State} (h : thenStep o k = .next t)
    (ho : ∀ u, o = .next u → u.turns = s.turns) (hk : ∀ u v, k u = .next v → v.turns = u.turns) : t.turns = s.turns := by
  obtain ⟨u, e, ⟨_, rfl⟩ | ⟨_, h⟩⟩ := thenStep_next h
  · exact ho _ e
  · rw [hk _ _ h, ho _ e]

theorem emit_turns {r : NodeRecord} {s t : State} (h : emit r s = .next t) : t.turns = s.turns := by
  obtain ⟨_, _, rfl⟩ := emit_next h
  rfl

theorem versionRead_turns {v : Version} {s t : State} (h : versionRead v s = .next t) : t.turns = s.turns := by
  cases h
  rfl

theorem tagRead_turns {g : Tag} {s t : State} (h : tagRead g s = .next t) : t.turns = s.turns := by
  rcases tagRead_next h with ⟨_, rfl⟩ | ⟨_, rfl⟩ <;> rfl

theorem continuationRead_turns {c : BitVec 1} {s t : State} (h : continuationRead c s = .next t) : t.turns = s.turns := by
  cases h
  rfl

theorem nibbleRead_turns {before s t : State} {g : BitVec 4} (hb : before.turns = s.turns)
    (h : nibbleRead before g s = .next t) : t.turns = s.turns := by
  rcases nibbleRead_next h with ⟨_, rfl⟩ | ⟨_, _, rfl⟩ | ⟨_, _, h⟩
  · exact hb
  · rfl
  · exact (emit_turns h).trans rfl

theorem modeRead_turns {m : BitVec 1} {s t : State} (h : modeRead m s = .next t) : t.turns = s.turns := by
  cases h
  rfl

theorem totalBitsRead_turns {before s t : State} {n : BitVec 15} (hb : before.turns = s.turns)
    (h : totalBitsRead before n s = .next t) : t.turns = s.turns := by
  unfold totalBitsRead at h
  split at h <;> cases h
  · exact hb
  · rfl

theorem childCountRead_turns {before s t : State} {n : BitVec 11} (hb : before.turns = s.turns)
    (h : childCountRead before n s = .next t) : t.turns = s.turns := by
  unfold childCountRead at h
  split at h <;> cases h
  · exact hb
  · rfl

/-- A field step whose own writes may look back at the state before it. -/
theorem takeField_turns_before {n : Nat} {s t : State} {k : State → State → Result} (h : takeField n s (k s) = .next t)
    (hk : ∀ b u v, b.turns = u.turns → k b u = .next v → v.turns = u.turns) : t.turns = s.turns := by
  rcases takeField_next h with ⟨_, rfl⟩ | ⟨_, _, h⟩
  · rfl
  · exact hk s (moveCursor n s) _ rfl h

theorem stepNext_turns {s t : State} (h : stepNext s = .next t) : t.turns = s.turns := by
  rcases stepNext_next h with ⟨_, rfl⟩ | ⟨f, rest, _, ⟨_, rfl⟩ | ⟨_, h⟩ | ⟨c, _, rfl⟩⟩
  · rfl
  · rfl
  · exact (emit_turns h).trans rfl
  · rfl

/-- An engine step takes no turn. -/
theorem engineStep_turns {s t : State} (h : engineStep s = .next t) : t.turns = s.turns := by
  unfold engineStep at h
  split at h
  · exact takeField_turns h fun _ _ => versionRead_turns
  · exact takeField_turns h fun _ _ => tagRead_turns
  · exact takeField_turns h fun _ _ => continuationRead_turns
  · exact takeField_turns_before (k := fun b u => nibbleRead b _ u) h fun _ _ _ => nibbleRead_turns
  · exact takeField_turns h fun _ _ => modeRead_turns
  · exact takeField_turns_before (k := fun b u => totalBitsRead b _ u) h fun _ _ _ => totalBitsRead_turns
  · exact takeField_turns_before (k := fun b u => childCountRead b _ u) h fun _ _ _ => childCountRead_turns
  · exact stepNext_turns h
  all_goals cases h; rfl

theorem headerSteps_turns {v : Version} {g : Tag} {s t : State} (h : headerSteps v g s = .next t) : t.turns = s.turns :=
  thenStep_turns h (fun _ h => takeField_turns h fun _ _ => versionRead_turns) fun _ _ h =>
    takeField_turns h fun _ _ => tagRead_turns

theorem groupSteps_turns {c : BitVec 1} {g : BitVec 4} {s t : State} (h : groupSteps c g s = .next t) : t.turns = s.turns :=
  thenStep_turns h (fun _ h => takeField_turns h fun _ _ => continuationRead_turns) fun _ _ h =>
    takeField_turns_before (k := fun b u => nibbleRead b _ u) h fun _ _ _ => nibbleRead_turns

theorem lenHead_turns {g : Tag} {v : Version} {n : BitVec 15} {s t : State} (h : lenHead g v n s = .next t) :
    t.turns = s.turns :=
  thenStep_turns h (fun _ h => thenStep_turns h (fun _ => headerSteps_turns) fun _ _ h =>
    takeField_turns h fun _ _ => modeRead_turns) fun _ _ h =>
      takeField_turns_before (k := fun b u => totalBitsRead b _ u) h fun _ _ _ => totalBitsRead_turns

theorem cntHead_turns {g : Tag} {v : Version} {n : BitVec 11} {s t : State} (h : cntHead g v n s = .next t) :
    t.turns = s.turns :=
  thenStep_turns h (fun _ h => thenStep_turns h (fun _ => headerSteps_turns) fun _ _ h =>
    takeField_turns h fun _ _ => modeRead_turns) fun _ _ h =>
      takeField_turns_before (k := fun b u => childCountRead b _ u) h fun _ _ _ => childCountRead_turns

theorem execStart_turns {r : BitVec 31} {s t : State} (h : execStart r s = .next t) : t.turns = s.turns := by
  rcases execStart_cases r s with ⟨_, e⟩ | ⟨_, _, e⟩ | ⟨_, _, e⟩ <;> rw [e] at h <;> cases h <;> rfl

/-- No instruction takes a turn. -/
theorem exec_turns {i : Instr} {s t : State} (h : exec i s = .next t) : t.turns = s.turns := by
  cases i <;>
    first
      | exact headerSteps_turns h
      | exact lenHead_turns h
      | exact cntHead_turns h
      | exact groupSteps_turns h
      | exact execStart_turns (r := ‹BitVec 31›) h

theorem instrStep_turns {s t : State} (h : instrStep s = .next t) : t.turns = s.turns := by
  unfold instrStep at h
  split at h
  · split at h
    · exact exec_turns h
    · cases h; rfl
  · exact engineStep_turns h

theorem readReg_turns (reg : Nat) (s : State) : (readReg reg s).turns = s.turns := by
  unfold readReg
  split
  · rfl
  · split <;> rfl

theorem readNode_turns (i j : Nat) (s : State) : (readNode i j s).turns = s.turns := by
  unfold readNode
  split
  · split <;> rfl
  · rfl

theorem writeReg_turns {reg : Nat} {w : Word} {s t : State} (h : writeReg reg w s = .next t) : t.turns = s.turns := by
  unfold writeReg at h
  split at h
  · unfold writeCtrl at h
    split at h
    · exact exec_turns h
    · cases h; rfl
  · cases h; split <;> rfl
  · cases h; split <;> rfl
  all_goals cases h; rfl

/-- No host action takes another turn. -/
theorem hostStep_turns {a : HostAction} {s t : State} (h : hostStep a s = .next t) : t.turns = s.turns := by
  cases a with
  | writeReg reg w => exact writeReg_turns h
  | readReg reg => cases h; exact readReg_turns reg s
  | writeIn k b =>
    simp only [hostStep, writeIn] at h
    split at h
    · cases h; rfl
    · split at h <;> cases h; rfl
  | readIn k => cases h; rfl
  | readNode i j => cases h; exact readNode_turns i j s
  | readNodeWord n => cases h; exact readNode_turns _ _ s
  | reset => cases h; rfl

/-- A step takes the turn that is due, and no other. -/
theorem step_turns {s t : State} (h : step s = .next t) : t.turns = s.turns.tail := by
  unfold step at h
  split at h <;> rename_i e <;> rw [e]
  · rw [engineStep_turns h, e]; rfl
  · exact engineStep_turns h
  · exact instrStep_turns h
  · exact hostStep_turns h

/-- After k steps the first k turns are taken. -/
theorem run_turns {k : Nat} {s t : State} (h : Host.Core.run core k s = .next t) : t.turns = s.turns.drop k := by
  induction k generalizing s with
  | zero => cases h; rfl
  | succ n ih =>
    simp only [Host.Core.run] at h
    split at h
    · rename_i u hu
      rw [ih h, step_turns hu, List.drop_tail]
    · cases h
    · cases h

/-- A run whose list of turns holds no write to IN and no reset is not disturbed. -/
theorem undisturbed_of_turns {s : State} (h : ∀ a, Turn.host a ∈ s.turns → ¬ Disturbs a) : Undisturbed s := by
  rintro k t hk - ⟨a, rest, ht, ha⟩
  refine h a ?_ ha
  have : Turn.host a ∈ s.turns.drop k := by rw [← run_turns hk, ht]; exact List.mem_cons_self
  exact List.mem_of_mem_drop this

/-- A clean launch on a machine of legal parameters is a launch, so that what is stated of launches holds of clean ones. -/
theorem CleanLaunch_launched {before s : State} (h : CleanLaunch before s) (hp : ParamsLegal before) : Launched s :=
  ⟨before, h.1, hp, h.2.2⟩

/-- An accepted START leaves `launch` of the state it found. -/
theorem Accepted_launch {before s : State} (h : Accepted before s) : s = launch before := by
  obtain ⟨hb, hc, r, h⟩ := h
  rcases execStart_cases r before with ⟨e, _⟩ | ⟨_, _, e⟩ | ⟨_, e, _⟩
  · rw [hb] at e; cases e
  · exact (Host.Outcome.next.inj (e.symm.trans h)).symm
  · rw [hc] at e; cases e

end Sys2Proof
end

