-- ==== Sys2Proof/Laws/PerInstr.lean ====
section
/-! SUPPORT. TableRow: every instruction's encoding hits the row of the opcode table that names it (R112). -/

namespace Sys2Proof.Laws.TableRow

/-- The encoding of an instruction hits exactly its own row among the rows its kind of window is looked up in. -/
def Statement (i : Instr) : Prop :=
  ((encode i).rows.filter fun r => r.hits (encode i).tableValue).map (·.mnemonic) = [i.mnemonic]

/-- The head window's value W is the packet's first seven bits: version, type_tag, and the bit after them. -/
theorem head_tableValue (v : Version) (t : Tag) (m : BitVec 1) (x : BitVec 15) :
    (Window.head (v ++ t ++ m ++ x)).tableValue = (v ++ t ++ m).setWidth 32 := by
  have h : (v ++ t ++ m ++ x).extractLsb' 15 7 = v ++ t ++ m := by
    apply BitVec.eq_of_getLsbD_eq
    intro i hi
    rw [BitVec.getLsbD_extractLsb', BitVec.getLsbD_append, if_neg (by omega), Nat.add_sub_cancel_left]
    simp only [hi, decide_true, Bool.true_and]
  simp only [Window.tableValue, h]

/-- A packet's window looks its row up by version, tag and the bit after them. -/
theorem head_hits (t : Tag) (b : BitVec 1) (v : Version) (x : BitVec 15) (m : String)
    (h : ∀ v : Version, (headRows.filter fun r => r.hits ((v ++ t ++ b).setWidth 32)).map (·.mnemonic) = [m]) :
    (headRows.filter fun r => r.hits (Window.head (v ++ t ++ b ++ x)).tableValue).map (·.mnemonic) = [m] := by
  simp only [head_tableValue]
  exact h v

/-- An operator's window in total-length mode, mode bit 0. -/
theorem len_hits (t : Tag) (v : Version) (x : BitVec 15) (m : String)
    (h : ∀ v : Version, (headRows.filter fun r => r.hits ((v ++ t ++ 0#1).setWidth 32)).map (·.mnemonic) = [m]) :
    ((lenWindow t v x).rows.filter fun r => r.hits (lenWindow t v x).tableValue).map (·.mnemonic) = [m] :=
  head_hits t 0 v x m h

/-- The same in count mode, mode bit 1. -/
theorem cnt_hits (t : Tag) (v : Version) (x : BitVec 11) (m : String)
    (h : ∀ v : Version, (headRows.filter fun r => r.hits ((v ++ t ++ 1#1).setWidth 32)).map (·.mnemonic) = [m]) :
    ((cntWindow t v x).rows.filter fun r => r.hits (cntWindow t v x).tableValue).map (·.mnemonic) = [m] := by
  have e : v ++ t ++ 1#1 ++ x ++ 0#4 = v ++ t ++ 1#1 ++ (x ++ 0#4) := by
    apply BitVec.eq_of_getLsbD_eq
    intro i hi
    simp only [BitVec.getLsbD_append]
    by_cases h4 : i < 4
    · have : i < 11 + 4 := by omega
      simp [h4, this]
    · by_cases h15 : i < 15
      · have : i - 4 < 11 := by omega
        have h15' : i < 11 + 4 := by omega
        simp [h4, this, h15']
      · have : ¬ i - 4 < 11 := by omega
        have h15' : ¬ i < 11 + 4 := by omega
        simp [h4, this, h15', Nat.sub_sub]
  have e' : cntWindow t v x = Window.head (v ++ t ++ 1#1 ++ (x ++ 0#4)) := congrArg Window.head e
  rw [e']
  exact head_hits t 1 v (x ++ 0#4) m h

theorem lit (v : Version) (c : BitVec 1) : Statement (.lit v c) := by
  have h : ∀ (v : Version) (c : BitVec 1),
      (headRows.filter fun r => r.hits ((v ++ 4#3 ++ c).setWidth 32)).map (·.mnemonic) = ["LIT"] := by decide
  simp only [Statement, encode, head_tableValue, Instr.mnemonic]
  exact h v c

theorem sumLen (v : Version) (n : BitVec 15) : Statement (.sumLen v n) :=
  len_hits 0 v n "SUM.LEN" (by decide)

theorem sumCnt (v : Version) (n : BitVec 11) : Statement (.sumCnt v n) :=
  cnt_hits 0 v n "SUM.CNT" (by decide)

theorem productLen (v : Version) (n : BitVec 15) : Statement (.productLen v n) :=
  len_hits 1 v n "PRODUCT.LEN" (by decide)

theorem productCnt (v : Version) (n : BitVec 11) : Statement (.productCnt v n) :=
  cnt_hits 1 v n "PRODUCT.CNT" (by decide)

theorem minLen (v : Version) (n : BitVec 15) : Statement (.minLen v n) :=
  len_hits 2 v n "MIN.LEN" (by decide)

theorem minCnt (v : Version) (n : BitVec 11) : Statement (.minCnt v n) :=
  cnt_hits 2 v n "MIN.CNT" (by decide)

theorem maxLen (v : Version) (n : BitVec 15) : Statement (.maxLen v n) :=
  len_hits 3 v n "MAX.LEN" (by decide)

theorem maxCnt (v : Version) (n : BitVec 11) : Statement (.maxCnt v n) :=
  cnt_hits 3 v n "MAX.CNT" (by decide)

theorem greaterThanLen (v : Version) (n : BitVec 15) : Statement (.greaterThanLen v n) :=
  len_hits 5 v n "GREATERTHAN.LEN" (by decide)

theorem greaterThanCnt (v : Version) (n : BitVec 11) : Statement (.greaterThanCnt v n) :=
  cnt_hits 5 v n "GREATERTHAN.CNT" (by decide)

theorem lessThanLen (v : Version) (n : BitVec 15) : Statement (.lessThanLen v n) :=
  len_hits 6 v n "LESSTHAN.LEN" (by decide)

theorem lessThanCnt (v : Version) (n : BitVec 11) : Statement (.lessThanCnt v n) :=
  cnt_hits 6 v n "LESSTHAN.CNT" (by decide)

theorem equalToLen (v : Version) (n : BitVec 15) : Statement (.equalToLen v n) :=
  len_hits 7 v n "EQUALTO.LEN" (by decide)

theorem equalToCnt (v : Version) (n : BitVec 11) : Statement (.equalToCnt v n) :=
  cnt_hits 7 v n "EQUALTO.CNT" (by decide)

theorem groupCont (g : BitVec 4) : Statement (.groupCont g) := by
  unfold Statement
  revert g
  decide

theorem groupLast (g : BitVec 4) : Statement (.groupLast g) := by
  unfold Statement
  revert g
  decide

theorem start (reserved : BitVec 31) : Statement (.start reserved) := by
  have h : (reserved ++ 1#1 : BitVec 32) &&& 1#32 = 1#32 := by
    apply BitVec.eq_of_getLsbD_eq
    intro i hi
    rcases Nat.eq_zero_or_pos i with rfl | hp
    · rw [BitVec.getLsbD_and, BitVec.getLsbD_append]
      rfl
    · have : (1#32).getLsbD i = false := by
        rw [BitVec.getLsbD_one]
        simp
        omega
      simp [this]
  simp only [Statement, encode, Window.rows, Window.tableValue, ctrlRows, Instr.mnemonic, Row.hits]
  simp [List.filter, h]

end Sys2Proof.Laws.TableRow
end

