-- ==== Sys2Proof/Tests/Slice0.lean ====
section
/-! SUPPORT. Checks of the model on values written in spec/95_test_vectors.md, and for every statement with hypotheses a
concrete state and operands that meet them all. -/

namespace Sys2Proof.Tests

open Sys2Proof Sys2Proof.Machine

/-! ### Helpers -/

/-- The reference machine with input bytes and LEN, the engine in a phase with its cursor at `pos`. -/
def engineAt (bytes : List Byte) (len pos : Word) (phase : Phase) : State :=
  { State.reset with inMem := storeBytes [] 0 bytes, len := len, pos := pos, phase := phase }

/-- The same, with one instruction due. -/
def instrAt (bytes : List Byte) (len pos : Word) (phase : Phase) : State :=
  { engineAt bytes len pos phase with turns := [.instr] }

/-- What an outcome's next state is asked for. -/
def ask {α : Type} (o : Result) (f : State → α) : Option α :=
  match o with
  | .next t => some (f t)
  | .fault _ | .refused _ => none

/-- The refusal an outcome is, if it is one. -/
def refusalOf (o : Result) : Option Refusal :=
  match o with
  | .refused r => some r
  | .next _ | .fault _ => none

/-- The error registers: kind, position, operands. -/
def errorOf (t : State) : ErrorKind × Nat × Nat × Nat := (t.errKind, t.errPos.toNat, t.errA.toNat, t.errB.toNat)

/-- The cursor and the frames after an operator's head. -/
def cursorAndFrames (t : State) : Nat × List Frame := (t.pos.toNat, t.stack)

/-- The bytes of scenario A (95 §1.1). -/
def bytesA : List Byte := [0xD2, 0xFE, 0x28]

/-! ### WellFormed: R45's reserved bits -/

theorem test_start_with_zeros_is_well_formed : (Instr.start 0).wf = true := by decide
theorem test_start_with_a_reserved_bit_is_refused : (Instr.start 1).wf = false := by decide
theorem test_start_with_the_top_bit_is_refused : (Instr.start 0x40000000).wf = false := by decide
theorem test_packets_are_well_formed :
    (Instr.lit 7 1).wf = true ∧ (Instr.sumLen 7 32767).wf = true ∧ (Instr.equalToCnt 7 2047).wf = true ∧
    (Instr.groupCont 15).wf = true ∧ (Instr.groupLast 0).wf = true := by decide

/-! ### Decode: every row by a word written out from its layout (R102 to R105, R112; the heads of 95 §2.4) -/

theorem test_decode_lit : decode (.head 0b1101001011111110001010) = .ok (.lit 6 1) := by decide
theorem test_decode_lit_last : decode (.head 0b1101000101000000000000) = .ok (.lit 6 0) := by decide
theorem test_decode_sumLen : decode (.head 0b0000000000000000001011) = .ok (.sumLen 0 11) := by decide
theorem test_decode_sumCnt : decode (.head 0b0000001000000000100011) = .ok (.sumCnt 0 2) := by decide
theorem test_decode_productLen : decode (.head 0b0010010000000000001011) = .ok (.productLen 1 11) := by decide
theorem test_decode_productCnt : decode (.head 0b0010011000000000100011) = .ok (.productCnt 1 2) := by decide
theorem test_decode_minLen : decode (.head 0b0100100000000000001011) = .ok (.minLen 2 11) := by decide
theorem test_decode_minCnt : decode (.head 0b0100101000000000100011) = .ok (.minCnt 2 2) := by decide
theorem test_decode_maxLen : decode (.head 0b0110110000000000001011) = .ok (.maxLen 3 11) := by decide
theorem test_decode_maxCnt : decode (.head 0b0110111000000000100011) = .ok (.maxCnt 3 2) := by decide
theorem test_decode_greaterThanLen : decode (.head 0b1011010000000000001011) = .ok (.greaterThanLen 5 11) := by decide
theorem test_decode_greaterThanCnt : decode (.head 0b1011011000000000100011) = .ok (.greaterThanCnt 5 2) := by decide
theorem test_decode_lessThanLen : decode (.head 0b1101100000000000001011) = .ok (.lessThanLen 6 11) := by decide
theorem test_decode_lessThanCnt : decode (.head 0b1101101000000000100011) = .ok (.lessThanCnt 6 2) := by decide
theorem test_decode_equalToLen : decode (.head 0b1111110000000000001011) = .ok (.equalToLen 7 11) := by decide
theorem test_decode_equalToCnt : decode (.head 0b1111111000000000100011) = .ok (.equalToCnt 7 2) := by decide
theorem test_decode_groupCont : decode (.group 0b11110) = .ok (.groupCont 14) := by decide
theorem test_decode_groupLast : decode (.group 0b00101) = .ok (.groupLast 5) := by decide
theorem test_decode_start : decode (.ctrl 0x00000001) = .ok (.start 0) := by decide
theorem test_ctrl_without_bit_0_is_rejected : decode (.ctrl 0xFFFFFFFE) = .error .ctrlWithoutStart := by decide
theorem test_decode_takes_the_widest_fields :
    decode (.head 0b1110000111111111111111) = .ok (.sumLen 7 32767) ∧
    decode (.head 0b1110001111111111111111) = .ok (.sumCnt 7 2047) := by decide

/-! ### READ and the extractor (95 §2.1, stream B3 8F, LEN 16) -/

/-- The stream of 95 §2.1. -/
def readStream : State := engineAt [0xB3, 0x8F] 16 0 .hdrV

theorem test_fields_of_the_read_vectors :
    fieldAt readStream 0 1 = 1 ∧ fieldAt readStream 0 3 = 5 ∧ fieldAt readStream 2 4 = 12 ∧
    fieldAt readStream 0 15 = 22983 ∧ fieldAt readStream 0 16 = 45967 ∧ fieldAt readStream 3 13 = 5007 ∧
    fieldAt readStream 5 8 = 113 ∧ fieldAt readStream 7 2 = 3 := by decide
theorem test_byte_windows_of_the_read_vectors :
    byteWindowField readStream 0 16 = 45967 ∧ byteWindowField readStream 3 13 = 5007 ∧
    byteWindowField readStream 5 8 = 113 ∧ byteWindowField readStream 7 2 = 3 := by decide
theorem test_read_past_the_end :
    ask (readField 7 { readStream with pos := 10 } fun _ t => .next t) errorOf =
      some (.insufficientBits, 10, 7, 6) := by decide
theorem test_read_of_width_17_is_refused :
    refusalOf (readField 17 readStream fun _ t => .next t) = some (.readWidth 17) := by decide

/-! ### One instruction, from a word in input memory (95 §2.4's bytes; scenarios A and B) -/

theorem test_lit : ask (step (instrAt bytesA 24 0 .hdrV)) (fun t => (t.phase, t.pos, t.hv, t.ht)) =
    some (.litC, 6, 6, 4) := by decide
theorem test_sumLen : ask (step (instrAt [0x00, 0x00, 0x2C, 0x40, 0x80] 33 0 .hdrV)) cursorAndFrames =
    some (22, [⟨0, 0, .totalLength, 11, 22, 0⟩]) := by decide
theorem test_sumCnt : ask (step (instrAt [0x02, 0x00, 0x8C, 0x02, 0x8F] 40 0 .hdrV)) cursorAndFrames =
    some (18, [⟨0, 0, .count, 2, 18, 0⟩]) := by decide
theorem test_productLen : ask (step (instrAt [0x24, 0x00, 0x2C, 0xC1, 0x00] 33 0 .hdrV)) cursorAndFrames =
    some (22, [⟨1, 1, .totalLength, 11, 22, 0⟩]) := by decide
theorem test_productCnt : ask (step (instrAt [0x26, 0x00, 0x8C, 0x0A, 0x8F] 40 0 .hdrV)) cursorAndFrames =
    some (18, [⟨1, 1, .count, 2, 18, 0⟩]) := by decide
theorem test_minLen : ask (step (instrAt [0x48, 0x00, 0x2D, 0x41, 0x80] 33 0 .hdrV)) cursorAndFrames =
    some (22, [⟨2, 2, .totalLength, 11, 22, 0⟩]) := by decide
theorem test_minCnt : ask (step (instrAt [0x4A, 0x00, 0x8C, 0x12, 0x8F] 40 0 .hdrV)) cursorAndFrames =
    some (18, [⟨2, 2, .count, 2, 18, 0⟩]) := by decide
theorem test_maxLen : ask (step (instrAt [0x6C, 0x00, 0x2D, 0xC2, 0x00] 33 0 .hdrV)) cursorAndFrames =
    some (22, [⟨3, 3, .totalLength, 11, 22, 0⟩]) := by decide
theorem test_maxCnt : ask (step (instrAt [0x6E, 0x00, 0x8C, 0x1A, 0x8F] 40 0 .hdrV)) cursorAndFrames =
    some (18, [⟨3, 3, .count, 2, 18, 0⟩]) := by decide
theorem test_greaterThanLen : ask (step (instrAt [0xB4, 0x00, 0x2E, 0xC3, 0x00] 33 0 .hdrV)) cursorAndFrames =
    some (22, [⟨5, 5, .totalLength, 11, 22, 0⟩]) := by decide
theorem test_greaterThanCnt : ask (step (instrAt [0xB6, 0x00, 0x8C, 0x2A, 0x8F] 40 0 .hdrV)) cursorAndFrames =
    some (18, [⟨5, 5, .count, 2, 18, 0⟩]) := by decide
theorem test_lessThanLen : ask (step (instrAt [0xD8, 0x00, 0x2F, 0x43, 0x80] 33 0 .hdrV)) cursorAndFrames =
    some (22, [⟨6, 6, .totalLength, 11, 22, 0⟩]) := by decide
theorem test_lessThanCnt : ask (step (instrAt [0xDA, 0x00, 0x8C, 0x32, 0x8F] 40 0 .hdrV)) cursorAndFrames =
    some (18, [⟨6, 6, .count, 2, 18, 0⟩]) := by decide
theorem test_equalToLen : ask (step (instrAt [0xFC, 0x00, 0x2F, 0xC4, 0x00] 33 0 .hdrV)) cursorAndFrames =
    some (22, [⟨7, 7, .totalLength, 11, 22, 0⟩]) := by decide
theorem test_equalToCnt : ask (step (instrAt [0xFE, 0x00, 0x8C, 0x3A, 0x8F] 40 0 .hdrV)) cursorAndFrames =
    some (18, [⟨7, 7, .count, 2, 18, 0⟩]) := by decide

/-- 95 §3, P1 step 6: ACC 7 and nibble 14 give 126. -/
theorem test_groupCont :
    ask (step { instrAt bytesA 24 11 .litC with acc := 7 }) (fun t => (t.phase, t.pos, t.cont, t.acc)) =
      some (.litC, 16, 1, 126) := by decide
/-- 95 §3, P1 step 8: ACC 126 and nibble 5 give 2021, emitted with version 6. -/
theorem test_groupLast :
    ask (step { instrAt bytesA 24 16 .litC with hv := 6, acc := 126 })
        (fun t => (t.phase, t.pos, t.ncount, Memory.read t.node 0)) =
      some (.next, 21, 1, some ⟨0x0000004C, 0x000007E5, 0x00000000⟩) := by decide
/-- 95 §2.3, the overflow row: 2^60 in ACC overflows at the nibble. -/
theorem test_groupCont_overflow :
    ask (step { instrAt [0x80] 8 0 .litC with acc := 1152921504606846976 }) (fun t => (errorOf t, t.pos)) =
      some ((.literalOverflow, 1, 64, 0), 1) := by decide
/-- 95 §2.3: the stream ends inside the nibble. -/
theorem test_group_short_of_its_nibble :
    ask (step (instrAt [0x12] 8 6 .litC)) errorOf = some (.insufficientBits, 7, 4, 1) := by decide
/-- 95 §2.4: total_bits field short, L = 11. -/
theorem test_sumLen_short :
    ask (step (instrAt [0x00, 0x00] 11 0 .hdrV)) errorOf = some (.insufficientBits, 7, 15, 4) := by decide
/-- 95 §2.4: child_count field short, L = 11. -/
theorem test_sumCnt_short :
    ask (step (instrAt [0x02, 0x00] 11 0 .hdrV)) errorOf = some (.insufficientBits, 7, 11, 4) := by decide
/-- 95 §2.4, P4 at STACK_DEPTH 1: the second operator's child_count field at 25. -/
theorem test_minCnt_on_a_full_stack :
    ask (step { instrAt [0x8A, 0x00, 0x4A, 0x80, 0x1A, 0x80, 0x02, 0xF4, 0x78] 72 18 .hdrV with
        capStack := 1, stack := [⟨4, 2, .count, 1, 18, 0⟩] }) errorOf =
      some (.depthExceeded, 25, 1, 0) := by decide
/-- 95 §1.3: the stream `11010`. -/
theorem test_lit_short_header :
    ask (step (instrAt [0xD0] 5 0 .hdrV)) errorOf = some (.insufficientBits, 3, 3, 2) := by decide

/-! ### NEXT (95 §3) -/

/-- P2 step 17: consumed 27 of 27, the operator is emitted. -/
theorem test_next_emits_the_operator :
    ask (step { engineAt [] 56 49 .next with stack := [⟨1, 6, .totalLength, 27, 22, 2⟩], ncount := 2 })
        (fun t => (t.phase, t.stack, t.ncount, Memory.read t.node 2)) =
      some (.next, [], 3, some ⟨0x00000163, 0, 0⟩) := by decide
/-- P5 step 10: consumed 11 of 10. -/
theorem test_next_reports_the_overshoot :
    ask (step { engineAt [] 33 33 .next with stack := [⟨0, 0, .totalLength, 10, 22, 1⟩] }) errorOf =
      some (.malformedLength, 33, 10, 11) := by decide
/-- P1 step 9: no frame, the decode is done. -/
theorem test_next_ends_the_decode :
    ask (step (engineAt bytesA 24 21 .next)) (fun t => (t.phase, t.endPos)) = some (.done, 21) := by decide

/-! ### START and the host (95 §2.5) -/

theorem test_start :
    ask (exec (.start 0) { engineAt [] 28 9 .done with startPos := 4, acc := 5 })
      (fun t => (t.phase, t.pos, t.acc)) = some (.hdrV, 4, 0) := by decide
theorem test_start_refuses_a_long_stream :
    ask (exec (.start 0) { engineAt [] 33 0 .idle with capIn := 4 }) (fun t => (errorOf t, t.endPos, statusState t)) =
      some ((.configInvalid, 0, 33, 0), 0, 3) := by decide
theorem test_start_refuses_a_late_start :
    ask (exec (.start 0) { engineAt [] 100 0 .idle with startPos := 101 }) errorOf =
      some (.configInvalid, 101, 100, 101) := by decide
theorem test_reset_registers_read_zero :
    ask (hostStep (.readReg 1) State.reset) (·.readData) = some 0 ∧
    ask (hostStep (.readReg 0) State.reset) (·.readData) = some 0 ∧
    ask (hostStep (.readReg 0xA) State.reset) (·.readData) = some 536870911 := by decide
theorem test_reserved_offset_reads_zero :
    ask (hostStep (.readReg 0xD) { engineAt [] 7 7 .done with endPos := 7 }) (·.readData) = some 0 := by decide
theorem test_input_write_while_busy_has_no_move :
    refusalOf (hostStep (.writeIn 0 1) (engineAt [] 24 0 .hdrV)) = some .inputWriteWhileBusy := by decide
theorem test_node_word_of_a_result :
    ask (hostStep (.readNode 0 1) { engineAt [] 24 21 .done with ncount := 1, node := [(0, ⟨0x4C, 0x7E5, 0⟩)] })
      (·.readData) = some 0x7E5 := by decide

/-- R82: word 2 of record 1 is at node base + 20. -/
theorem test_node_word_by_its_address :
    (Placement.action ⟨0x1000, 0x2000, 0x3000⟩ .node .readWord 0x3014) = some (.readNodeWord 5) ∧ nodeWordAt 5 = (1, 2) := by
  decide
theorem test_node_word_of_a_result_by_its_offset :
    ask (hostStep (.readNodeWord 5)
        { engineAt [] 24 21 .done with ncount := 2, node := [(0, ⟨1, 2, 3⟩), (1, ⟨4, 5, 6⟩)] })
      (·.readData) = some 6 := by decide
/-- R45: STATUS is at offset 0x04; R82: IN[2] is at input base + 2; no other width, and no write to node memory. -/
theorem test_addresses_of_a_register_and_a_byte :
    (Placement.action ⟨0x1000, 0x2000, 0x3000⟩ .registers .readWord 0x1004) = some (.readReg 1) ∧
    (Placement.action ⟨0x1000, 0x2000, 0x3000⟩ .input (.writeByte 7) 0x2002) = some (.writeIn 2 7) ∧
    (Placement.action ⟨0x1000, 0x2000, 0x3000⟩ .registers .readWord 0x1005) = none ∧
    (Placement.action ⟨0x1000, 0x2000, 0x3000⟩ .node (.writeWord 7) 0x3000) = none := by decide

/-! ### The machine on a word of the opcode table, as the first instruction after reset -/

theorem test_fetch_word_lit :
    ask (step (State.reset.withFetchWord 8 0x08)) (fun t => (t.phase, t.pos, t.ht)) = some (.litC, 6, 4) := by decide
theorem test_fetch_word_equalToCnt :
    ask (step (State.reset.withFetchWord 8 0x0F)) cursorAndFrames = some (18, [⟨0, 7, .count, 0, 18, 0⟩]) := by decide
theorem test_fetch_word_groupCont :
    ask (step (State.reset.withFetchWord 5 0x11)) (fun t => (t.phase, t.pos, t.acc)) = some (.litC, 5, 1) := by decide
theorem test_fetch_word_start :
    ask (step (State.reset.withFetchWord 32 1)) (·.phase) = some .hdrV := by decide

/-! ### Memory -/

theorem test_reset_memories_are_canonical :
    Memory.wf State.reset.inMem = true ∧ Memory.wf State.reset.node = true := by decide
theorem test_an_unsorted_memory_is_not_canonical :
    Memory.wf [(1, (0 : Byte)), (1, (0 : Byte))] = false := by decide

/-! ### Witnesses: the hypotheses of each statement can be met together -/

theorem witness_EveryWindowHitsOnlyItsInstructionsRow :
    decode (.head 0b1101001011111110001010) = .ok (.lit 6 1) ∧ decode (.group 0b11111) = .ok (.groupCont 15) ∧
    decode (.ctrl 0xFFFFFFFF) = .ok (.start 0x7FFFFFFF) := by decide

/-- Two windows of SUM.CNT that differ in the 4 bits after it. -/
theorem witness_DecodingIgnoresBitsAfterTheInstruction :
    (0b0000001000000000100000 : BitVec 22) ≠ 0b0000001000000000101111 ∧
    (0b0000001000000000100000 : BitVec 22) >>> (22 - (decodeHead 0b0000001000000000100000).encodedWidth) =
      0b0000001000000000101111#22 >>> (22 - (decodeHead 0b0000001000000000100000).encodedWidth) := by decide

theorem witness_PlacedTableWordIsRunNext :
    3 ≤ State.reset.capIn.toNat ∧ decodeTableWord 8 0x7F = some (.equalToCnt 7 0) ∧
    decodeTableWord 5 0x1F = some (.groupCont 15) ∧ decodeTableWord 32 1 = some (.start 0) := by decide

theorem witness_ByteWindowFormGivesTheField : 1 ≤ 1 ∧ 1 ≤ 16 ∧ 16 ≤ 16 := by decide

/-- READ: both refused widths; 1 and 16 bits that end exactly at LEN; 1 bit too many for each. -/
theorem witness_ReadHasExactlyItsOutcomes :
    readStream.len.toNat ≤ 8 * readStream.capIn.toNat ∧ 16 < 17 ∧
    (1 ≤ 16 ∧ 16 ≤ 16 ∧ readStream.pos.toNat + 16 ≤ readStream.len.toNat) ∧
    ({ readStream with pos := 15 }.pos.toNat + 1 ≤ readStream.len.toNat) ∧
    readStream.len.toNat < { readStream with pos := 1 }.pos.toNat + 16 ∧
    readStream.len.toNat < { readStream with pos := 16 }.pos.toNat + 1 := by decide

/-- HDR_V, HDR_T on tag 4 and on tag 6, each with its field ending at LEN, and with one bit too few. -/
theorem witness_HeaderStepsFollowTheirRules :
    (engineAt [0xD2] 3 0 .hdrV).len.toNat ≤ 8 * (engineAt [0xD2] 3 0 .hdrV).capIn.toNat ∧
    ((engineAt [0xD2] 3 0 .hdrV).phase = .hdrV ∧ 0 + 3 ≤ (engineAt [0xD2] 3 0 .hdrV).len.toNat) ∧
    ((engineAt [0xD2] 6 3 .hdrT).phase = .hdrT ∧ 3 + 3 ≤ (engineAt [0xD2] 6 3 .hdrT).len.toNat ∧
      fieldAt (engineAt [0xD2] 6 3 .hdrT) 3 3 = 4) ∧
    fieldAt (engineAt [0x38] 6 3 .hdrT) 3 3 ≠ 4 ∧
    (engineAt [0xD2] 2 0 .hdrV).len.toNat < 0 + 3 ∧ (engineAt [0xD2] 5 3 .hdrT).len.toNat < 3 + 3 := by decide

/-- LIT_C and LIT_G: the field ending at LEN and one bit too few; ACC one below and at 2^60; both values of CONT; room to
emit. -/
theorem witness_LiteralStepsFollowTheirRules :
    ((engineAt bytesA 7 6 .litC).phase = .litC ∧ 6 + 1 ≤ (engineAt bytesA 7 6 .litC).len.toNat) ∧
    ((engineAt bytesA 11 7 .litG).phase = .litG ∧ 7 + 4 ≤ (engineAt bytesA 11 7 .litG).len.toNat) ∧
    2 ^ 64 ≤ (0x1000000000000000 : LitWord).toNat * 16 + (fieldAt (engineAt bytesA 11 7 .litG) 7 4).toNat ∧
    (0xFFFFFFFFFFFFFFF7 : LitWord).toNat =
      (0x0FFFFFFFFFFFFFFF : LitWord).toNat * 16 + (fieldAt (engineAt bytesA 11 7 .litG) 7 4).toNat ∧
    { engineAt bytesA 11 7 .litG with cont := 1 }.cont = 1 ∧ (engineAt bytesA 11 7 .litG).cont = 0 ∧
    (engineAt bytesA 6 6 .litC).len.toNat < 6 + 1 ∧ (engineAt bytesA 10 7 .litG).len.toNat < 7 + 4 := by decide
theorem witness_literal_emission_has_room : EmitFits (engineAt bytesA 21 17 .litG) :=
  ⟨by decide, by rintro f rest ⟨⟩⟩
/-- Room at the boundary: the last free record, and a frame with 4094 children. -/
theorem witness_emission_has_room_at_the_boundary :
    EmitFits { engineAt bytesA 21 17 .litG with
      capNode := 1, stack := [⟨0, 0, .count, 2047, 18, 4094⟩] } :=
  ⟨by decide, by rintro f rest ⟨⟩; decide⟩

/-- OP_M, OP_L and OP_N: the field ending at LEN and one bit too few; an unbounded stack, one with one frame free, and a full
one. -/
theorem witness_OperatorStepsFollowTheirRules :
    ((engineAt [0, 0, 0] 7 6 .opM).phase = .opM ∧ 6 + 1 ≤ (engineAt [0, 0, 0] 7 6 .opM).len.toNat) ∧
    ((engineAt [0, 0, 0] 22 7 .opL).phase = .opL ∧ 7 + 15 ≤ (engineAt [0, 0, 0] 22 7 .opL).len.toNat ∧
      (engineAt [0, 0, 0] 22 7 .opL).capStack = 0) ∧
    ((engineAt [2, 0, 0] 18 7 .opN).phase = .opN ∧ 7 + 11 ≤ (engineAt [2, 0, 0] 18 7 .opN).len.toNat ∧
      { engineAt [2, 0, 0] 18 7 .opN with capStack := 1 }.stack.length < (1 : Word).toNat) ∧
    ((1 : Word) ≠ 0 ∧ (1 : Word).toNat ≤
      { engineAt [2, 0, 0] 18 7 .opN with stack := [⟨0, 0, .count, 1, 7, 0⟩] }.stack.length) ∧
    (engineAt [0] 6 6 .opM).len.toNat < 6 + 1 ∧ (engineAt [0] 21 7 .opL).len.toNat < 7 + 15 ∧
    (engineAt [0] 17 7 .opN).len.toNat < 7 + 11 := by decide

/-- NEXT: an empty stack; a total-length frame one bit short of, at, and one bit past its target; a count frame one child short of
and at its target. -/
theorem witness_NextStepFollowsTheTopFrame :
    ((engineAt [] 56 21 .next).phase = .next ∧ (engineAt [] 56 21 .next).stack = []) ∧
    (22 : Word).toNat ≤ (engineAt [] 56 33 .next).pos.toNat ∧
    (engineAt [] 56 33 .next).pos.toNat - (22 : Word).toNat < (12 : BitVec 15).toNat ∧
    (engineAt [] 56 33 .next).pos.toNat - (22 : Word).toNat = (11 : BitVec 15).toNat ∧
    (10 : BitVec 15).toNat < (engineAt [] 56 33 .next).pos.toNat - (22 : Word).toNat ∧
    (2 : BitVec 12).toNat < (3 : BitVec 15).toNat ∧ (3 : BitVec 12).toNat = (3 : BitVec 15).toNat := by decide
theorem witness_next_emission_has_room : EmitFits { engineAt [] 56 33 .next with stack := [] } :=
  ⟨by decide, by rintro f rest ⟨⟩⟩

/-- For EmitStoresOneRecordAndCountsIt, see witness_emission_has_room_at_the_boundary; here an engine step that fails. -/
theorem witness_FailingEngineStepsWriteOnlyTheErrorState :
    busy (engineAt [0xD0] 5 3 .hdrT) = true ∧
    ask (engineStep (engineAt [0xD0] 5 3 .hdrT)) (·.phase) = some .error := by decide

theorem witness_EngineRestsOutsideTheBusySet :
    State.reset.turns = [] ∧ State.reset.phase = .idle ∧ (engineAt [] 24 21 .done).phase = .done ∧
    (engineAt [] 24 21 .error).phase = .error := by decide

/-- LIT whose header ends at LEN, at position 0 and at the last positions of the largest stream. -/
theorem witness_LitCompletes :
    (engineAt bytesA 6 0 .hdrV).phase = .hdrV ∧ FieldFits (engineAt bytesA 6 0 .hdrV) 6 ∧
    FieldFits (engineAt [] 0xFFFFFFF8 0xFFFFFFF2 .hdrV) 6 := by
  refine ⟨rfl, ⟨?_, ?_⟩, ⟨?_, ?_⟩⟩ <;> decide

theorem witness_TotalLengthHeadsComplete :
    ((Instr.maxLen, 3) ∈ lenHeads) ∧ (engineAt [0, 0, 0] 22 0 .hdrV).phase = .hdrV ∧
    FieldFits (engineAt [0, 0, 0] 22 0 .hdrV) 22 ∧ (engineAt [0, 0, 0] 22 0 .hdrV).capStack = 0 ∧
    { engineAt [0, 0, 0] 22 0 .hdrV with capStack := 1 }.stack.length < (1 : Word).toNat := by
  refine ⟨by simp [lenHeads], rfl, ⟨?_, ?_⟩, rfl, ?_⟩ <;> decide

theorem witness_CountHeadsComplete :
    ((Instr.equalToCnt, 7) ∈ cntHeads) ∧ (engineAt [2, 0, 0] 18 0 .hdrV).phase = .hdrV ∧
    FieldFits (engineAt [2, 0, 0] 18 0 .hdrV) 18 ∧ (engineAt [2, 0, 0] 18 0 .hdrV).capStack = 0 ∧
    { engineAt [2, 0, 0] 18 0 .hdrV with capStack := 1 }.stack.length < (1 : Word).toNat := by
  refine ⟨by simp [cntHeads], rfl, ⟨?_, ?_⟩, rfl, ?_⟩ <;> decide

theorem witness_GroupContCompletes :
    (engineAt bytesA 11 6 .litC).phase = .litC ∧ FieldFits (engineAt bytesA 11 6 .litC) 5 ∧
    { engineAt bytesA 11 6 .litC with acc := 0x0FFFFFFFFFFFFFFF }.acc.toNat < 2 ^ 60 := by
  refine ⟨rfl, ⟨?_, ?_⟩, ?_⟩ <;> decide

theorem witness_GroupLastCompletes :
    (engineAt bytesA 21 16 .litC).phase = .litC ∧ FieldFits (engineAt bytesA 21 16 .litC) 5 ∧
    (engineAt bytesA 21 16 .litC).acc.toNat < 2 ^ 60 ∧ EmitFits (engineAt bytesA 21 16 .litC) :=
  ⟨rfl, ⟨by decide, by decide⟩, by decide, by decide, by rintro f rest ⟨⟩⟩

/-- START from each phase outside the busy set, with LEN at its largest and START_POS at LEN. -/
theorem witness_StartBeginsANewDecode :
    (engineAt [] 24 0 .idle).phase = .idle ∧ (engineAt [] 24 0 .done).phase = .done ∧
    (engineAt [] 24 0 .error).phase = .error ∧
    (engineAt [] 0xFFFFFFF8 0 .idle).len.toNat ≤ 8 * (engineAt [] 0xFFFFFFF8 0 .idle).capIn.toNat ∧
    { engineAt [] 24 0 .idle with startPos := 24 }.startPos.toNat ≤ (engineAt [] 24 0 .idle).len.toNat := by decide

/-- START while busy; LEN one past the memory; START_POS one past LEN. -/
theorem witness_StartIsIgnoredBusyAndChecksItsConfiguration :
    busy (engineAt [] 24 0 .hdrV) = true ∧ busy (engineAt [] 24 0 .idle) = false ∧
    8 * (4 : Word).toNat < { engineAt [] 33 0 .idle with capIn := 4 }.len.toNat ∧
    (engineAt [] 24 0 .idle).len.toNat < { engineAt [] 24 0 .idle with startPos := 25 }.startPos.toNat := by decide

/-- Heads with 0, 2, 3 and 5 bits left. -/
theorem witness_ShortHeadersRaiseInsufficientBits :
    (Instr.lit 0 0).isHead = true ∧ (Instr.lessThanCnt 1 2).isHead = true ∧
    (engineAt [0xD0] 5 5 .hdrV).pos.toNat ≤ (engineAt [0xD0] 5 5 .hdrV).len.toNat ∧
    (engineAt [0xD0] 5 5 .hdrV).len.toNat - (engineAt [0xD0] 5 5 .hdrV).pos.toNat < 3 ∧
    (engineAt [0xD0] 5 3 .hdrV).len.toNat - (engineAt [0xD0] 5 3 .hdrV).pos.toNat < 3 ∧
    3 ≤ (engineAt [0xD0] 3 0 .hdrV).len.toNat - (engineAt [0xD0] 3 0 .hdrV).pos.toNat ∧
    3 ≤ (engineAt [0xD0] 5 0 .hdrV).len.toNat - (engineAt [0xD0] 5 0 .hdrV).pos.toNat ∧
    (engineAt [0xD0] 5 0 .hdrV).len.toNat - (engineAt [0xD0] 5 0 .hdrV).pos.toNat < 6 := by decide

/-- Operator heads with 6, 7 and 21 (17) bits. -/
theorem witness_ShortOperatorFieldsRaiseInsufficientBits :
    ((Instr.sumLen, 0) ∈ lenHeads) ∧ ((Instr.sumCnt, 0) ∈ cntHeads) ∧
    (engineAt [0] 6 0 .hdrV).len.toNat = (engineAt [0] 6 0 .hdrV).pos.toNat + 6 ∧
    (engineAt [0] 7 0 .hdrV).pos.toNat + 7 ≤ (engineAt [0] 7 0 .hdrV).len.toNat ∧
    (engineAt [0] 21 0 .hdrV).len.toNat < (engineAt [0] 21 0 .hdrV).pos.toNat + 22 ∧
    (engineAt [0] 17 0 .hdrV).len.toNat < (engineAt [0] 17 0 .hdrV).pos.toNat + 18 := by
  refine ⟨by simp [lenHeads], by simp [cntHeads], ?_, ?_, ?_, ?_⟩ <;> decide

theorem witness_FullStackRaisesDepthExceeded :
    ((Instr.minLen, 2) ∈ lenHeads) ∧ ((Instr.minCnt, 2) ∈ cntHeads) ∧ FieldFits (engineAt [0, 0, 0] 22 0 .hdrV) 22 ∧
    FieldFits (engineAt [2, 0, 0] 18 0 .hdrV) 18 ∧ (1 : Word) ≠ 0 ∧
    (1 : Word).toNat ≤ { engineAt [0, 0, 0] 22 0 .hdrV with
      capStack := 1, stack := [⟨0, 0, .count, 1, 0, 0⟩] }.stack.length := by
  refine ⟨by simp [lenHeads], by simp [cntHeads], ⟨?_, ?_⟩, ⟨?_, ?_⟩, ?_, ?_⟩ <;> decide

/-- ACC at 2^60 and one below it. -/
theorem witness_GroupsOverflowExactlyFromTwoToTheSixty :
    FieldFits (engineAt bytesA 11 6 .litC) 5 ∧
    2 ^ 60 ≤ { engineAt bytesA 11 6 .litC with acc := 0x1000000000000000 }.acc.toNat ∧
    { engineAt bytesA 11 6 .litC with acc := 0x0FFFFFFFFFFFFFFF }.acc.toNat < 2 ^ 60 ∧
    ask (exec (.groupCont 0) { engineAt bytesA 11 6 .litC with acc := 0x0FFFFFFFFFFFFFFF }) (·.phase) =
      some .litC := by
  refine ⟨⟨?_, ?_⟩, ?_, ?_, ?_⟩ <;> decide

/-- A group with 0, 1 and 4 bits left. -/
theorem witness_ShortGroupsRaiseInsufficientBits :
    (engineAt [0x12] 6 6 .litC).pos = (engineAt [0x12] 6 6 .litC).len ∧
    (engineAt [0x12] 7 6 .litC).pos.toNat + 1 ≤ (engineAt [0x12] 7 6 .litC).len.toNat ∧
    (engineAt [0x12] 10 6 .litC).len.toNat < (engineAt [0x12] 10 6 .litC).pos.toNat + 5 := by decide

/-- A LIT and an operator's head that go on, and a head that enters an error. -/
theorem witness_PacketHeadsFrame :
    (Instr.lit 6 1).isHead = true ∧ (Instr.sumLen 0 11).isHead = true ∧
    ask (exec (.lit 6 1) (engineAt bytesA 24 0 .hdrV)) (·.phase) = some .litC ∧
    ask (exec (.sumLen 0 11) (engineAt [0, 0, 0x2C] 33 0 .hdrV)) (·.phase) = some .next ∧
    ask (exec (.sumLen 0 11) (engineAt [0] 8 0 .hdrV)) (·.phase) = some .error := by decide

theorem witness_LiteralGroupsFrame :
    ask (exec (.groupCont 7) (engineAt bytesA 24 6 .litC)) (·.phase) = some .litC ∧
    ask (exec (.groupLast 5) (engineAt bytesA 24 16 .litC)) (·.phase) = some .next ∧
    ask (exec (.groupLast 5) (engineAt bytesA 16 16 .litC)) (·.phase) = some .error := by decide

theorem witness_StartFrame :
    ask (exec (.start 0) (engineAt [] 24 0 .idle)) (·.phase) = some .hdrV ∧
    ask (exec (.start 0) { engineAt [] 24 0 .idle with startPos := 25 }) (·.phase) = some .error := by decide

theorem witness_StepRunsTheDecodedInstruction :
    State.reset.turns = [] ∧ (instrAt bytesA 24 0 .hdrV).phase = .hdrV ∧ (instrAt bytesA 24 6 .litC).phase = .litC ∧
    (instrAt bytesA 24 0 .hdrV).turns = [.instr] ∧
    fetchWindow (instrAt bytesA 24 0 .hdrV) = some (.head 0b1101001011111110001010) ∧
    decode (.head 0b1101001011111110001010) = .ok (.lit 6 1) ∧
    { State.reset with turns := [.host (.writeReg 0 1)] }.turns = [.host (.writeReg 0 1)] ∧
    decode (.ctrl 1) = .ok (.start 0) := by decide

theorem witness_InstructionsAreTheirEngineSteps :
    (engineAt bytesA 24 0 .hdrV).turns = [] ∧
    fetchWindow (engineAt bytesA 24 0 .hdrV) = some (.head 0b1101001011111110001010) ∧
    decode (.head 0b1101001011111110001010) = .ok (.lit 6 1) := by decide

/-- Scenario A, ready to start. -/
def readyA : State := { State.reset with inMem := storeBytes [] 0 bytesA, len := 24 }

/-- Scenario A, started. -/
def startedA : State := launch readyA

/-- For EngineRealisesDecodePacket and RunsEndWithinTheStepBound: no turn listed. -/
theorem witness_Launched : Launched startedA :=
  ⟨readyA, ⟨by decide, by decide, 0, rfl⟩, ⟨by decide, by decide, by decide⟩,
    undisturbed_of_turns fun a h => absurd h List.not_mem_nil⟩
/-- The empty stream, started: the other outcome. -/
theorem witness_Launched_empty : Launched (launch State.reset) :=
  ⟨State.reset, ⟨by decide, by decide, 0, rfl⟩, ⟨by decide, by decide, by decide⟩,
    undisturbed_of_turns fun a h => absurd h List.not_mem_nil⟩

/-- Scenario A with host turns to come that R322 allows: polling STATUS, a START while busy, a write to LEN. -/
def readyPolled : State :=
  { readyA with turns := [.host (.readReg 1), .engine, .host (.writeReg 0 1), .instr, .host (.writeReg 2 9)] }

/-- A clean launch, with every byte of scenario A written and the host polling meanwhile. -/
theorem witness_CleanLaunch : CleanLaunch readyPolled (launch readyPolled) := by
  refine ⟨⟨by decide, by decide, 0, rfl⟩, fun i _ h => ?_, undisturbed_of_turns fun a h => ?_⟩
  · exact (by decide : ∀ i < 24, (Memory.read readyPolled.inMem (i / 8)).isSome = true) i h
  · have h : a = .readReg 1 ∨ a = .writeReg 0 1 ∨ a = .writeReg 2 9 := by simpa [launch, readyPolled] using h
    rcases h with rfl | rfl | rfl <;> simp [Disturbs]
theorem witness_Launched_polled : Launched (launch readyPolled) :=
  CleanLaunch_launched witness_CleanLaunch ⟨by decide, by decide, by decide⟩

/-- Input never written is no clean launch: scenario A's LEN over empty memory. -/
theorem test_unwritten_input_is_not_clean : ¬ InputWritten { State.reset with len := 24 } := fun h =>
  absurd (h 0 (by decide) (by decide)) (by decide)
/-- A write to IN that is due right after START disturbs the run. -/
theorem test_an_input_write_disturbs : ¬ Undisturbed { startedA with turns := [.host (.writeIn 0 1)] } := fun h =>
  h 0 _ rfl (fun j u hj hu => by
    obtain rfl : j = 0 := by omega
    cases hu
    simp [Ended, startedA, launch])
    ⟨_, _, rfl, .inr ⟨0, 1, rfl⟩⟩

/-- Scenario A again, on a machine used before: other datapath, other node memory, other input after LEN, other
capacities. -/
def readyAgain : State :=
  { readyA with
    phase := .error, hv := 5, acc := 99, errKind := .literalOverflow, endPos := 3,
    inMem := storeBytes [] 0 (bytesA ++ [0xFF]), node := [(7, ⟨1, 2, 3⟩)],
    capIn := 4, capNode := 9 }

/-- The first clause: the two machines, started, one step on. -/
theorem witness_ResultsDependOnlyOnTheStreamAndParameters :
    readyA.len = readyAgain.len ∧ readyA.startPos = readyAgain.startPos ∧ readyA.capStack = readyAgain.capStack ∧
    (∀ i, readyA.startPos.toNat ≤ i → i < readyA.len.toNat → streamBit readyA i = streamBit readyAgain i) ∧
    Accepted readyA startedA ∧ Accepted readyAgain (launch readyAgain) ∧ readyA.turns = [] ∧ readyAgain.turns = [] ∧
    Host.Core.run core 1 startedA = .next { startedA with pos := 3, hv := 6, phase := .hdrT } ∧
    Host.Core.run core 1 (launch readyAgain) = .next { launch readyAgain with pos := 3, hv := 6, phase := .hdrT } :=
  ⟨rfl, rfl, rfl, fun i _ h => (by decide : ∀ i < 24, streamBit readyA i = streamBit readyAgain i) i h,
    ⟨by decide, by decide, 0, rfl⟩, ⟨by decide, by decide, 7, rfl⟩, rfl, rfl, rfl, rfl⟩

/-- The stream `11` of 95 §1.3, which ends after one engine step. -/
def readyShort : State := { State.reset with inMem := storeBytes [] 0 [0xC0], len := 2 }

/-- The same on a machine used before, whose host polls STATUS before the engine's step. -/
def polledShort : State := { readyShort with phase := .done, hv := 5, turns := [.host (.readReg 1)] }

/-- A STATUS read of a busy block (R46). -/
def polledOnce : State := { launch polledShort with turns := [], readData := 1 }

theorem witness_clean_launch_of_the_short_streams :
    CleanLaunch readyShort (launch readyShort) ∧ CleanLaunch polledShort (launch polledShort) := by
  refine ⟨⟨⟨by decide, by decide, 0, rfl⟩, fun i _ h => ?_, undisturbed_of_turns fun a h => ?_⟩,
    ⟨⟨by decide, by decide, 0, rfl⟩, fun i _ h => ?_, undisturbed_of_turns fun a h => ?_⟩⟩
  · exact (by decide : ∀ i < 2, (Memory.read readyShort.inMem (i / 8)).isSome = true) i h
  · exact absurd h List.not_mem_nil
  · exact (by decide : ∀ i < 2, (Memory.read polledShort.inMem (i / 8)).isSome = true) i h
  · obtain rfl : a = .readReg 1 := by simpa [launch, polledShort] using h
    simp [Disturbs]

/-- The second clause: both runs end, one after 1 step and the other after 2, on the same stream bits. -/
theorem witness_runs_of_the_short_streams_end :
    readyShort.len = polledShort.len ∧ readyShort.startPos = polledShort.startPos ∧
    readyShort.capStack = polledShort.capStack ∧
    (∀ i, readyShort.startPos.toNat ≤ i → i < readyShort.len.toNat →
      streamBit readyShort i = streamBit polledShort i) ∧
    EndOfRun 1 (launch readyShort) (insufficientBits 3 (launch readyShort)) ∧
    EndOfRun 2 (launch polledShort) (insufficientBits 3 polledOnce) := by
  refine ⟨rfl, rfl, rfl, fun _ _ _ => rfl, ⟨rfl, .inr rfl, fun j u hj hu => ?_⟩,
    ⟨rfl, .inr rfl, fun j u hj hu => ?_⟩⟩
  · obtain rfl : j = 0 := by omega
    cases hu
    simp [Ended, launch]
  · obtain rfl | rfl : j = 0 ∨ j = 1 := by omega
    · cases hu
      simp [Ended, launch]
    · have hu : polledOnce = u := Host.Outcome.next.inj hu
      subst hu
      simp [Ended, polledOnce, launch]

/-- Scenario A's header with 24 bits left, and positions with 0, 2, 3, 5 and exactly 6 bits left. -/
theorem witness_HeaderReadsFollowTheirRules :
    0 ≤ (streamOf readyA).len ∧ 6 ≤ (streamOf readyA).len - 0 ∧
    bigEndian (streamOf readyA).bit 0 6 = 8 * (6 : Version).toNat + (4 : Tag).toNat ∧
    24 ≤ (streamOf readyA).len ∧ (streamOf readyA).len - 24 < 3 ∧ (streamOf readyA).len - 22 < 3 ∧
    3 ≤ (streamOf readyA).len - 21 ∧ (streamOf readyA).len - 21 < 6 ∧ (streamOf readyA).len - 19 < 6 ∧
    6 ≤ (streamOf readyA).len - 18 := by decide

/-- The three groups of scenario A's literal, 2021. -/
theorem witness_LiteralRoundTrip :
    1 ≤ 3 ∧ 2021 < 16 ^ 3 ∧ 2021 < 2 ^ 64 ∧ HoldsLiteral (streamOf readyA) 6 3 2021 := by
  refine ⟨by decide, by decide, by decide, by decide, ?_⟩
  exact (by decide : ∀ i < 3,
    bigEndian (streamOf readyA).bit (6 + 5 * i) 1 = (if i + 1 < 3 then 1 else 0) ∧
    bigEndian (streamOf readyA).bit (6 + 5 * i + 1) 4 = 2021 / 16 ^ (3 - 1 - i) % 16)

/-- A child decoder of 11 bits: 22 bits are two children; two children are two. -/
def child11 (p : Nat) : Decoded Packet := .ok (p + 11) (.literal 0 0)

theorem witness_FramingIsExact :
    lenChildren child11 22 18 5 18 [] = .ok 40 [.literal 0 0, .literal 0 0] ∧
    cntChildren child11 2 18 [] = .ok 40 [.literal 0 0, .literal 0 0] := ⟨rfl, rfl⟩

theorem witness_PacketSizesAndChildCountsAreBounded :
    decodePacket (streamOf readyA) 3 0 0 = .ok 21 (.literal 6 2021) ∧
    decodePacket ⟨18, fun i => decide (i = 6), none⟩ 3 0 0 = .ok 18 (.operator 0 .sum []) := ⟨rfl, rfl⟩

theorem witness_reset_parameters_are_legal : ParamsLegal (State.resetOf 1 1 1) := ⟨by decide, by decide, by decide⟩

/-- A legal state of a running decode: scenario A, started, on a machine of 3 input bytes and 2 records with one frame of
stack, the least STACK_DEPTH that DepthExceeded cannot reach. -/
def runningA : State := { startedA with capIn := 3, capStack := 1, capNode := 2 }

theorem witness_Legal : Legal runningA := by
  refine ⟨⟨by decide, by decide, by decide⟩, fun _ => ⟨by decide, by decide, by decide⟩, ⟨?_, fun h => absurd h (by decide)⟩,
    fun _ => by decide, ⟨fun _ => ⟨rfl, rfl, rfl, rfl⟩, fun h => absurd h (by decide), fun h => absurd h (by decide)⟩,
    ⟨fun h => absurd h (by decide), fun h => absurd h (by decide), fun f h => absurd h (by decide +revert)⟩,
    fun _ => trivial, ⟨by decide, by decide, by decide, by decide⟩, fun _ i h => absurd h (Nat.not_lt_zero i)⟩
  intro limit _
  exact Nat.zero_le limit

/-- For EveryStepKeepsTheStateLegal, CursorStaysInsideTheStream, MemoriesStayCanonical, InvalidTypeTagIsNeverRaised and
CursorNeverMovesBackward: a step of that state, with its cursor inside the stream. -/
theorem witness_a_legal_state_steps :
    step runningA = .next { runningA with pos := 3, hv := 6, phase := .hdrT } ∧ busy runningA = true ∧
    runningA.errKind ≠ .invalidTypeTag ∧ MemoryCanonical runningA :=
  ⟨rfl, by decide, by decide, by decide, by decide, by decide, by decide⟩
theorem witness_CursorInside : CursorInside runningA := fun _ => ⟨by decide, by decide, by decide⟩
theorem witness_no_reset_is_due : ¬ HostTurn (· = .reset) runningA := by
  rintro ⟨a, rest, h, _⟩
  cases h

theorem witness_DepthAndRecordsAreBounded :
    Legal runningA ∧ busy runningA = true ∧ depthLimit runningA = some 1 ∧ 8 * runningA.capIn.toNat / 18 ≤ 1 ∧
    step runningA = .next { runningA with pos := 3, hv := 6, phase := .hdrT } :=
  ⟨witness_Legal, by decide, by decide, by decide, rfl⟩

/-- A START that leaves IDLE, and a reset that leaves DONE. -/
theorem witness_OnlyStartOrResetLeavesAFinalPhase :
    busy readyA = false ∧
    ask (step { readyA with turns := [.host (.writeReg 0 1)] }) (·.phase) = some .hdrV ∧
    ask (step { engineAt [] 24 21 .done with turns := [.host .reset] }) (·.phase) = some .idle := by decide

/-- A host write to LEN that is due while busy. -/
theorem witness_ConfigurationIsFixedWhileBusy :
    step { runningA with turns := [.host (.writeReg 2 9)] } = .next runningA ∧ busy runningA = true ∧
    ¬ HostTurn (· = .reset) { runningA with turns := [.host (.writeReg 2 9)] } := by
  refine ⟨rfl, by decide, ?_⟩
  rintro ⟨a, rest, h, e⟩
  cases h
  cases e

/-- A host write that changes input memory, and an engine step that changes node memory. -/
theorem witness_MemoriesHaveTheirOnlyWriters :
    ask (step { readyA with turns := [.host (.writeIn 5 1)] }) (fun t => decide (t.inMem ≠ readyA.inMem)) = some true ∧
    ask (step (engineAt bytesA 24 17 .litG)) (fun t => decide (t.node ≠ [])) = some true := by decide

theorem witness_RegisterReadsFollowTheMap :
    busy readyA = false ∧ 1 ∉ [4, 5, 6, 7, 8, 9] ∧ 13 ∉ [4, 5, 6, 7, 8, 9] := by decide

theorem witness_BusyResultReadsReturnAnyValue : busy runningA = true ∧ 4 ∈ [4, 5, 6, 7, 8, 9] ∧ 9 ∈ [4, 5, 6, 7, 8, 9] := by
  decide

theorem witness_RegisterWritesFollowTheMap :
    busy readyA = false ∧ busy runningA = true ∧ (0xFFFFFFFE : Word).getLsbD 0 = false := by decide

/-- The last byte of input memory, and the first index past it, on a machine of 3 bytes. -/
theorem witness_InputWritesStoreOneByte :
    busy { readyA with capIn := 3 } = false ∧ 2 < { readyA with capIn := 3 }.capIn.toNat ∧
    { readyA with capIn := 3 }.capIn.toNat ≤ 3 ∧ busy runningA = true ∧ 2 < runningA.capIn.toNat := by decide
/-- Log 10's corner: a busy state and the first index past its memory. -/
theorem witness_input_write_past_the_memory_while_busy : busy runningA = true ∧ runningA.capIn.toNat ≤ 3 := by decide

theorem witness_HostReadsHaveNoSideEffect :
    (∃ reg, HostAction.readReg 1 = .readReg reg) ∧ (∃ k, HostAction.readIn 2 = .readIn k) ∧
    (∃ i j, HostAction.readNode 0 2 = .readNode i j) ∧ (∃ n, HostAction.readNodeWord 2 = .readNodeWord n) ∧ 2 ≤ 2 :=
  ⟨⟨1, rfl⟩, ⟨2, rfl⟩, ⟨0, 2, rfl⟩, ⟨2, rfl⟩, by decide⟩

/-- A result of one record; a read outside DONE, past NODE_COUNT, and of word 3. -/
theorem witness_NodeReadsAreExactOnlyInAResult :
    (engineAt [] 24 21 .done).phase = .done ∧
    0 < { engineAt [] 24 21 .done with ncount := 1 }.ncount.toNat ∧
    Memory.read { engineAt [] 24 21 .done with node := [(0, ⟨0x4C, 0x7E5, 0⟩)] }.node 0 = some ⟨0x4C, 0x7E5, 0⟩ ∧
    runningA.phase ≠ .done ∧ { engineAt [] 24 21 .done with ncount := 1 }.ncount.toNat ≤ 1 ∧ 2 < 3 ∧
    (2 ≤ 2 ∧ 4 * 5 = 12 * 1 + 4 * 2) := by decide

theorem witness_ResetSetsEveryResetValue :
    { runningA with turns := [.host .reset, .engine] }.turns = .host .reset :: [.engine] := rfl

end Sys2Proof.Tests
end

section
/-! SUPPORT. Facts about the bit sequence's big-endian fields (R13, R73, R74, R75). -/

namespace Sys2Proof

open Machine

/-- An n-bit field is below 2^n. -/
theorem bigEndian_lt (bit : Nat → Bool) (p n : Nat) : bigEndian bit p n < 2 ^ n := by
  induction n with
  | zero => simp [bigEndian]
  | succ n ih =>
    have hb := (bit (p + n)).toNat_le
    simp only [bigEndian, Nat.pow_succ]
    omega

/-- A field read from the stream is the big-endian value of its bits, none of them lost. -/
@[simp] theorem fieldAt_toNat (s : State) (p n : Nat) : (fieldAt s p n).toNat = bigEndian (streamBit s) p n := by
  rw [fieldAt, BitVec.toNat_ofNat, Nat.mod_eq_of_lt (bigEndian_lt _ _ _)]

/-- One more bit doubles the weight of each bit before it. -/
theorem bigEndian_eq_sum (bit : Nat → Bool) (p n : Nat) :
    bigEndian bit p n = ((List.range n).map fun i => (bit (p + i)).toNat * 2 ^ (n - 1 - i)).sum := by
  induction n with
  | zero => rfl
  | succ n ih =>
    have hw : ∀ i ∈ List.range n,
        (bit (p + i)).toNat * 2 ^ (n - i) = 2 * ((bit (p + i)).toNat * 2 ^ (n - 1 - i)) := by
      intro i hi
      have hi := List.mem_range.mp hi
      rw [show n - i = n - 1 - i + 1 by omega, Nat.pow_succ]
      ring
    rw [bigEndian, ih, ← List.sum_map_mul_left, List.range_succ, List.map_append, List.sum_append]
    simp [List.map_congr_left hw]

/-- Bits p to p + a + b − 1 are the first a of them and then the other b (R75). -/
theorem bigEndian_add (bit : Nat → Bool) (p a b : Nat) :
    bigEndian bit p (a + b) = bigEndian bit p a * 2 ^ b + bigEndian bit (p + a) b := by
  induction b with
  | zero => simp [bigEndian]
  | succ b ih =>
    rw [← Nat.add_assoc, bigEndian, ih, bigEndian, Nat.pow_succ, Nat.add_assoc p a b]
    ring

/-- Stream bit i by arithmetic on its byte, bit 7 the most significant (R73). -/
theorem streamBit_toNat (s : State) (i : Nat) :
    (streamBit s i).toNat = (inByte s (i / 8)).toNat / 2 ^ (7 - i % 8) % 2 := by
  rw [streamBit, BitVec.getLsbD, Nat.toNat_testBit]

/-- Settles O6: `bigEndian_eq_sum` for the value, `streamBit_toNat` for each bit. -/
theorem fieldIsBigEndianSumOfItsBits : Obligations.FieldIsBigEndianSumOfItsBits := by
  intro s p n
  exact ⟨by rw [fieldAt_toNat, bigEndian_eq_sum], streamBit_toNat s⟩

/-- Settles O8, by induction on the second width. -/
theorem fieldSplitsConcatenate : Obligations.FieldSplitsConcatenate := bigEndian_add

end Sys2Proof
end

section
/-! SUPPORT. What a running decode keeps, apart from PHASE: the invariant `Running`, its rules for the cursor, the frame stack
and Emit, and its tie to `Legal`. -/

namespace Sys2Proof

open Machine

theorem busy_iff (s : State) : busy s = true ↔ s.phase ≠ .idle ∧ s.phase ≠ .done ∧ s.phase ≠ .error := by
  unfold busy
  cases s.phase <;> simp

theorem not_busy_iff (s : State) : busy s = false ↔ s.phase = .idle ∨ s.phase = .done ∨ s.phase = .error := by
  unfold busy
  cases s.phase <;> simp

/-- The parts of `Legal` a running decode keeps whatever its phase: at least `own` bits of the packet at hand have been read,
and `childOpen` tells whether that packet is a child under way of the top frame. -/
structure Running (childOpen : Bool) (own : Nat) (s : State) : Prop where
  params : ParamsLegal s
  lenCap : s.len.toNat ≤ 8 * s.capIn.toNat
  posLen : s.pos.toNat ≤ s.len.toNat
  depth : ∀ limit, depthLimit s = some limit → s.stack.length ≤ limit
  bits : s.startPos.toNat + 11 * s.ncount.toNat + 18 * s.stack.length + own ≤ s.pos.toNat
  errClear : s.errKind = .none ∧ s.errPos = 0 ∧ s.errA = 0 ∧ s.errB = 0
  tags : ∀ f ∈ s.stack, f.tag ≠ Config.literalTag
  frames : FramesFit childOpen own s.pos.toNat s.stack
  memory : MemoryCanonical s
  records : ∀ i, i < s.ncount.toNat → (Memory.read s.node i).isSome = true

/-- The tag HT that a phase needs (R164, R192). -/
def TagFits (ph : Phase) (t : Tag) : Prop :=
  (ph = .litC ∨ ph = .litG → t = Config.literalTag) ∧
  (ph = .opM ∨ ph = .opL ∨ ph = .opN → t ≠ Config.literalTag)

/-- A busy legal state is a running decode. -/
theorem Legal.running {s : State} {ph : Phase} (h : Legal s) (hp : s.phase = ph)
    (hb : ph ≠ .idle ∧ ph ≠ .done ∧ ph ≠ .error) : Running (decide (ph ≠ .next)) (ownBits ph) s := by
  subst hp
  obtain ⟨hparams, hcursor, hdepth, hbits, herr, htags, hstack, hmem, hrec⟩ := h
  have hbusy := (busy_iff s).mpr hb
  obtain ⟨-, hpos, hlen⟩ := hcursor hbusy
  exact ⟨hparams, hlen, hpos, hdepth.1, hbits hbusy, herr.1 hb.2.2, htags.2.2, hstack hbusy, hmem, hrec (.inl hbusy)⟩

theorem Legal.tagFits {s : State} {ph : Phase} (h : Legal s) (hp : s.phase = ph) : TagFits ph s.ht := by
  subst hp
  obtain ⟨-, -, -, -, -, ⟨hlit, hop, -⟩, -⟩ := h
  exact ⟨hlit, hop⟩

/-- A running decode in a busy phase that it fits is legal. -/
theorem Running.legal {s : State} {ph : Phase} (h : Running (decide (ph ≠ .next)) (ownBits ph) s) (hp : s.phase = ph)
    (hb : ph ≠ .idle ∧ ph ≠ .done ∧ ph ≠ .error) (ht : TagFits ph s.ht) : Legal s := by
  subst hp
  have hbusy := (busy_iff s).mpr hb
  have hstart : s.startPos.toNat ≤ s.pos.toNat := by have := h.bits; omega
  exact ⟨h.params, fun _ => ⟨hstart, h.posLen, h.lenCap⟩, ⟨h.depth, fun e => by simp [hbusy] at e⟩, fun _ => h.bits,
    ⟨fun _ => h.errClear, fun e => absurd e hb.2.2, fun e => absurd e hb.2.1⟩, ⟨ht.1, ht.2, h.tags⟩,
    fun _ => h.frames, h.memory, fun _ => h.records⟩

/-- Outside the busy set most parts of `Legal` ask for nothing. -/
theorem legal_of_not_busy {s : State} (hb : busy s = false) (hparams : ParamsLegal s) (hstack : s.stack = [])
    (herr : ErrorsRecorded s) (hmem : MemoryCanonical s)
    (hrec : s.phase = .done → ∀ i, i < s.ncount.toNat → (Memory.read s.node i).isSome = true) : Legal s := by
  have hne : busy s ≠ true := by simp [hb]
  refine ⟨hparams, fun e => absurd e hne, ⟨by simp [hstack], fun _ => hstack⟩, fun e => absurd e hne, herr,
    ⟨?_, ?_, by simp [hstack]⟩, fun e => absurd e hne, hmem, ?_⟩
  · rcases (not_busy_iff s).mp hb with e | e | e <;> simp [e]
  · rcases (not_busy_iff s).mp hb with e | e | e <;> simp [e]
  · rintro (e | e)
    · exact absurd e hne
    · exact hrec e

/-! ### The rules of `Running` -/

/-- PHASE, the latches, ACC and END_POS are no part of what a running decode keeps. -/
theorem Running.latch {o : Bool} {g : Nat} {s : State} (h : Running o g s) {ph : Phase} {v : Version} {t : Tag}
    {c : BitVec 1} {a : LitWord} {e : Word} :
    Running o g { s with phase := ph, hv := v, ht := t, cont := c, acc := a, endPos := e } :=
  ⟨h.params, h.lenCap, h.posLen, h.depth, h.bits, h.errClear, h.tags, h.frames, h.memory, h.records⟩

/-- The top frame's fit when the cursor has moved from `p` to `q` and at most as many more bits are claimed. -/
theorem FramesFit.advance {o : Bool} {g g' p q : Nat} {fs : List Frame} (h : FramesFit o g p fs) (hpq : p + g' ≤ q + g) :
    FramesFit o g' q fs := by
  cases fs with
  | nil => trivial
  | cons f rest =>
    obtain ⟨hbits, hcount, hrest⟩ := h
    exact ⟨by omega, hcount, hrest⟩

/-- At least `g'` bits have been read where at least `g` have. -/
theorem Running.weaken {o : Bool} {g g' : Nat} {s : State} (h : Running o g s) (hg : g' ≤ g) : Running o g' s :=
  { h with
    bits := by have := h.bits; omega
    frames := h.frames.advance (by omega) }

/-- A field of n bits read inside the stream. -/
theorem Running.moveCursor {o : Bool} {g n : Nat} {s : State} (h : Running o g s) (hn : s.pos.toNat + n ≤ s.len.toNat) :
    Running o (g + n) (moveCursor n s) where
  params := h.params
  lenCap := h.lenCap
  posLen := by rw [moveCursor_toNat hn]; exact hn
  depth := h.depth
  bits := by
    have := h.bits
    rw [moveCursor_toNat hn, moveCursor_startPos, moveCursor_ncount, moveCursor_stack]
    omega
  errClear := h.errClear
  tags := h.tags
  frames := by
    rw [moveCursor_toNat hn]
    exact h.frames.advance (by omega)
  memory := h.memory
  records := h.records

/-- With a child under way a frame's counter is at most 2978, in either mode (R205). -/
theorem ChildCountFits.le {f : Frame} (h : ChildCountFits true f) : f.n.toNat ≤ 2978 := by
  cases hm : f.mode with
  | totalLength => simpa [ChildCountFits, hm] using h
  | count =>
    simp only [ChildCountFits, hm, if_true] at h
    omega

/-- The child counter does not wrap when the child under way is counted (R205). -/
theorem ChildCountFits.toNat_succ {f : Frame} (h : ChildCountFits true f) : (f.n + 1).toNat = f.n.toNat + 1 :=
  BitVec.toNat_add_of_lt (by have := h.le; simp; omega)

/-- The child under way, once counted, leaves its frame at a child boundary. -/
theorem ChildCountFits.succ {f : Frame} (h : ChildCountFits true f) : ChildCountFits false { f with n := f.n + 1 } := by
  have hn := h.toNat_succ
  cases hm : f.mode with
  | totalLength =>
    have := h.le
    simp only [ChildCountFits, hn, Bool.false_eq_true, if_false]
    omega
  | count =>
    simp only [ChildCountFits, hm, if_true] at h
    simp only [ChildCountFits, hn, Bool.false_eq_true, if_false]
    omega

/-- A complete packet of at least 11 bits is one more child of the top frame (R205, R228). -/
theorem FramesFit.countChild {p : Nat} {fs : List Frame} (h : FramesFit true 11 p fs) :
    FramesFit false 0 p (countChild fs) := by
  cases fs with
  | nil => trivial
  | cons f rest =>
    obtain ⟨hbits, hcount, hrest⟩ := h
    exact ⟨by simp only [hcount.toNat_succ]; omega, hcount.succ, hrest⟩

@[simp] theorem countChild_length (fs : List Frame) : (countChild fs).length = fs.length := by
  cases fs <;> rfl

theorem countChild_tags {fs : List Frame} {t : Tag} (h : ∀ f ∈ fs, f.tag ≠ t) : ∀ f ∈ countChild fs, f.tag ≠ t := by
  cases fs with
  | nil => exact h
  | cons f rest => simpa [countChild] using h

/-- Emit of a packet of at least 11 bits (R83, R228). -/
theorem Running.emit {r : NodeRecord} {s t : State} (h : Running true 11 s) (e : emit r s = .next t) :
    Running false 0 t := by
  obtain ⟨hroom, -, rfl⟩ := emit_next e
  have hn : (s.ncount + 1).toNat = s.ncount.toNat + 1 :=
    BitVec.toNat_add_of_lt (by have := s.capNode.isLt; simp; omega)
  obtain ⟨hinWf, hinBelow, hnodeWf, hnodeBelow⟩ := h.memory
  refine ⟨h.params, h.lenCap, h.posLen, ?_, ?_, h.errClear, countChild_tags h.tags, h.frames.countChild,
    ⟨hinWf, hinBelow, Memory.write_wf _ _ _ hnodeWf, Memory.write_below _ _ _ _ hnodeBelow hroom⟩, ?_⟩
  · intro limit hlimit
    simpa using h.depth limit hlimit
  · have := h.bits
    simp only [hn, countChild_length]
    omega
  · intro i hi
    simp only [hn] at hi
    rw [Memory.read_write]
    split
    · rfl
    · exact h.records i (by omega)

/-- A frame pushed at the cursor, with room on the stack and after at least 18 bits of the operator (R39, R197, R198). -/
theorem Running.pushFrame {m : Framing} {n : BitVec 15} {s : State} (h : Running true 18 s) (hfull : stackFull s = false)
    (htag : s.ht ≠ Config.literalTag) (hn : m = .count → n.toNat ≤ 2047) : Running false 0 (pushFrame m n s) := by
  refine ⟨h.params, h.lenCap, h.posLen, ?_, ?_, h.errClear, ?_, ⟨?_, ?_, h.frames⟩, h.memory, h.records⟩
  · intro limit (hlimit : depthLimit s = some limit)
    simpa [stackFull, hlimit] using hfull
  · have := h.bits
    simp only [pushFrame_startPos, pushFrame_ncount, pushFrame_stack, List.length_cons, pushFrame_pos]
    omega
  · simpa using ⟨htag, h.tags⟩
  · simp
  · cases m with
    | totalLength => simp [ChildCountFits]
    | count => simpa [ChildCountFits] using hn rfl

/-- NEXT starts a child of a frame that wants more: there is room for one more in its counter (R199, R205). -/
theorem Running.startChild {s : State} {f : Frame} {rest : List Frame} (h : Running false 0 s) (hs : s.stack = f :: rest)
    (hmore : frameStatus f s.pos = .more) : Running true 0 s := by
  have hframes := h.frames
  rw [hs] at hframes
  obtain ⟨hbits, hcount, hrest⟩ := hframes
  refine { h with frames := hs ▸ ⟨hbits, ?_, hrest⟩ }
  have hstatus := frameStatus_cases f s.pos
  simp only [hmore, true_and, reduceCtorEq, false_and, or_false] at hstatus
  rcases hstatus with ⟨hm, hlt⟩ | ⟨hm, hlt⟩
  · have := f.target.isLt
    simp only [ChildCountFits, hm, if_true]
    omega
  · simp only [ChildCountFits, hm] at hcount ⊢
    exact ⟨hcount.1, hlt⟩

/-- NEXT pops a frame: its operator is a packet of at least 18 bits, a child of the frame below (R39, R234). -/
theorem Running.popFrame {s : State} {f : Frame} {rest : List Frame} (h : Running false 0 s) (hs : s.stack = f :: rest) :
    Running true 18 { s with stack := rest } := by
  have hframes := h.frames
  rw [hs] at hframes
  obtain ⟨hbits, -, hrest⟩ := hframes
  refine ⟨h.params, h.lenCap, h.posLen, ?_, ?_, h.errClear, ?_, hrest.advance (by simp only; omega), h.memory, h.records⟩
  · intro limit hlimit
    have := h.depth limit hlimit
    rw [hs, List.length_cons] at this
    exact Nat.le_of_succ_le this
  · have := h.bits
    rw [hs, List.length_cons] at this
    simp only
    omega
  · exact fun g hg => h.tags g (hs ▸ List.mem_cons_of_mem f hg)

/-- START of a legal configuration begins a running decode with nothing read (R261, R262). -/
theorem launch_running {s : State} (hparams : ParamsLegal s) (hmem : MemoryCanonical s) (hc : configLegal s = true) :
    Running true 0 (launch s) := by
  simp only [configLegal, Bool.and_eq_true, decide_eq_true_eq] at hc
  exact ⟨hparams, hc.1, hc.2, by simp, by simp, ⟨rfl, rfl, rfl, rfl⟩, by simp, trivial, hmem, by simp⟩

end Sys2Proof
end

section
/-! SUPPORT. The engine keeps a state legal: each field's step, NEXT, and whole heads and groups, which are such steps one after
another. -/

namespace Sys2Proof

open Machine

/-- Legal, and in the phase a step leads to or stopped in ERROR. -/
def LegalAt (ph : Phase) (s : State) : Prop := Legal s ∧ (s.phase = ph ∨ s.phase = .error)

/-- Error entry keeps only the parameters and the memories of what `Legal` asks for (R290); InvalidTypeTag is no kind of it
(R285). -/
theorem legal_errorEntry {s : State} {e : ErrorKind} {p a b : Word} (hparams : ParamsLegal s) (hmem : MemoryCanonical s)
    (he : e ≠ .none ∧ e ≠ .invalidTypeTag) : Legal (errorEntry e p a b s) :=
  legal_of_not_busy rfl hparams rfl ⟨by simp, by simp [he], by simp⟩ hmem (by simp)

theorem Running.legalAt_errorEntry {o : Bool} {g : Nat} {s : State} {ph : Phase} {e : ErrorKind} {p a b : Word}
    (h : Running o g s) (he : e ≠ .none ∧ e ≠ .invalidTypeTag) : LegalAt ph (errorEntry e p a b s) :=
  ⟨legal_errorEntry h.params h.memory he, .inr rfl⟩

theorem Running.legalAt {s : State} {ph : Phase} (h : Running (decide (ph ≠ .next)) (ownBits ph) s) (hp : s.phase = ph)
    (hb : ph ≠ .idle ∧ ph ≠ .done ∧ ph ≠ .error) (ht : TagFits ph s.ht) : LegalAt ph s :=
  ⟨h.legal hp hb ht, .inl hp⟩

/-- Phases that need no particular tag. -/
theorem tagFits_of_free {ph : Phase} {t : Tag} (h : ph = .hdrV ∨ ph = .hdrT ∨ ph = .next) : TagFits ph t := by
  rcases h with rfl | rfl | rfl <;> simp [TagFits]

/-- READ's cursor part: InsufficientBits is legal, and `k` finds n more bits read. -/
theorem takeField_legalAt {g n : Nat} {s t : State} {ph : Phase} {k : State → Result} (h : Running true g s)
    (e : takeField n s k = .next t)
    (hk : Running true (g + n) (moveCursor n s) → k (moveCursor n s) = .next t → LegalAt ph t) : LegalAt ph t := by
  rcases takeField_next e with ⟨-, rfl⟩ | ⟨hlen, -, e⟩
  · exact h.legalAt_errorEntry (by decide)
  · exact hk (h.moveCursor hlen) e

theorem thenStep_legalAt {o : Result} {k : State → Result} {t : State} {ph ph' : Phase} (e : thenStep o k = .next t)
    (ho : ∀ u, o = .next u → LegalAt ph u) (hk : ∀ u, Legal u → u.phase = ph → k u = .next t → LegalAt ph' t) :
    LegalAt ph' t := by
  obtain ⟨u, eu, ⟨herr, rfl⟩ | ⟨herr, ek⟩⟩ := thenStep_next e
  · exact ⟨(ho _ eu).1, .inr herr⟩
  · obtain ⟨hu, hph⟩ := ho u eu
    exact hk u hu (hph.resolve_right herr) ek

/-! ### One field -/

theorem versionRead_legalAt {s t : State} {v : Version} (h : Legal s) (hp : s.phase = .hdrV)
    (e : takeField 3 s (versionRead v) = .next t) : LegalAt .hdrT t :=
  takeField_legalAt (h.running hp (by decide)) e fun hr e => by
    cases e
    exact Running.legalAt hr.latch rfl (by decide) (tagFits_of_free (by decide))

theorem tagRead_legalAt {s t : State} {g : Tag} (h : Legal s) (hp : s.phase = .hdrT)
    (e : takeField 3 s (tagRead g) = .next t) : LegalAt (if g = Config.literalTag then .litC else .opM) t :=
  takeField_legalAt (h.running hp (by decide)) e fun hr e => by
    rcases tagRead_next e with ⟨hg, rfl⟩ | ⟨hg, rfl⟩
    · rw [if_pos hg]
      exact Running.legalAt hr.latch rfl (by decide) (by simp [TagFits, hg])
    · rw [if_neg hg]
      exact Running.legalAt hr.latch rfl (by decide) (by simp [TagFits, hg])

theorem continuationRead_legalAt {s t : State} {c : BitVec 1} (h : Legal s) (hp : s.phase = .litC)
    (e : takeField 1 s (continuationRead c) = .next t) : LegalAt .litG t :=
  takeField_legalAt (h.running hp (by decide)) e fun hr e => by
    cases e
    have ht : s.ht = Config.literalTag := (h.tagFits hp).1 (by decide)
    exact Running.legalAt hr.latch rfl (by decide) (by simp [TagFits, ht])

theorem emit_phase {r : NodeRecord} {s t : State} (e : emit r s = .next t) : t.phase = s.phase := by
  obtain ⟨-, -, rfl⟩ := emit_next e
  rfl

/-- The packet at hand is complete and leaves its record: NEXT comes next. -/
theorem emit_legalAt {r : NodeRecord} {s t : State} (h : Running true 11 s) (hp : s.phase = .next)
    (e : emit r s = .next t) : LegalAt .next t :=
  Running.legalAt (h.emit e) ((emit_phase e).trans hp) (by decide) (tagFits_of_free (by decide))

theorem nibbleRead_legalAt {s t : State} {g : BitVec 4} (h : Legal s) (hp : s.phase = .litG)
    (e : takeField 4 s (nibbleRead s g) = .next t) : LegalAt (if s.cont = 1 then .litC else .next) t :=
  have hs := h.running hp (by decide)
  takeField_legalAt hs e fun hr e => by
    rcases nibbleRead_next e with ⟨-, rfl⟩ | ⟨-, hc, rfl⟩ | ⟨-, hc, e⟩
    · exact hs.legalAt_errorEntry (by decide)
    · have ht : s.ht = Config.literalTag := (h.tagFits hp).1 (by decide)
      rw [moveCursor_cont] at hc
      rw [if_pos hc]
      exact Running.legalAt (hr.latch.weaken (by decide)) rfl (by decide) (by simp [TagFits, ht])
    · rw [moveCursor_cont] at hc
      rw [if_neg hc]
      exact emit_legalAt hr.latch rfl e

theorem modeRead_legalAt {s t : State} {m : BitVec 1} (h : Legal s) (hp : s.phase = .opM)
    (e : takeField 1 s (modeRead m) = .next t) : LegalAt (if m = 0 then .opL else .opN) t :=
  takeField_legalAt (h.running hp (by decide)) e fun hr e => by
    cases e
    have ht : s.ht ≠ Config.literalTag := (h.tagFits hp).2 (by decide)
    split
    · exact Running.legalAt hr.latch rfl (by decide) (by simp [TagFits, ht])
    · exact Running.legalAt hr.latch rfl (by decide) (by simp [TagFits, ht])

/-- The depth check, then a frame pushed or DepthExceeded at the field just read (R197, R198, R203). -/
def framePushed (before : State) (m : Framing) (n : BitVec 15) (s : State) : State :=
  if stackFull s then depthExceeded before else { pushFrame m n s with phase := .next }

theorem totalBitsRead_eq (before : State) (n : BitVec 15) (s : State) :
    totalBitsRead before n s = .next (framePushed before .totalLength n s) := by
  unfold totalBitsRead framePushed
  split <;> rfl

theorem childCountRead_eq (before : State) (n : BitVec 11) (s : State) :
    childCountRead before n s = .next (framePushed before .count (n.setWidth 15) s) := by
  unfold childCountRead framePushed
  split <;> rfl

theorem framePushed_legalAt {before s : State} {m : Framing} {n : BitVec 15} (hb : Running true 7 before)
    (h : Running true 18 s) (htag : s.ht ≠ Config.literalTag) (hn : m = .count → n.toNat ≤ 2047) :
    LegalAt .next (framePushed before m n s) := by
  unfold framePushed
  split
  · exact hb.legalAt_errorEntry (by decide)
  · exact Running.legalAt (h.pushFrame (Bool.eq_false_of_not_eq_true ‹_›) htag hn).latch rfl (by decide)
      (tagFits_of_free (by decide))

theorem totalBitsRead_legalAt {s t : State} {n : BitVec 15} (h : Legal s) (hp : s.phase = .opL)
    (e : takeField 15 s (totalBitsRead s n) = .next t) : LegalAt .next t :=
  have hs := h.running hp (by decide)
  takeField_legalAt hs e fun hr e => by
    have ht : s.ht ≠ Config.literalTag := (h.tagFits hp).2 (by decide)
    cases (totalBitsRead_eq _ _ _).symm.trans e
    exact framePushed_legalAt hs (hr.weaken (by decide)) ht nofun

theorem childCountRead_legalAt {s t : State} {n : BitVec 11} (h : Legal s) (hp : s.phase = .opN)
    (e : takeField 11 s (childCountRead s n) = .next t) : LegalAt .next t :=
  have hs := h.running hp (by decide)
  takeField_legalAt hs e fun hr e => by
    have ht : s.ht ≠ Config.literalTag := (h.tagFits hp).2 (by decide)
    have hn : (n.setWidth 15).toNat ≤ 2047 := by have := n.isLt; simp; omega
    cases (childCountRead_eq _ _ _).symm.trans e
    exact framePushed_legalAt hs (hr.weaken (by decide)) ht fun _ => hn

/-! ### NEXT, and the engine's step -/

theorem stepNext_legal {s t : State} (h : Legal s) (hp : s.phase = .next) (e : stepNext s = .next t) : Legal t := by
  have hr : Running false 0 s := h.running hp (by decide)
  rcases stepNext_next e with ⟨hs, rfl⟩ | ⟨f, rest, hs, ⟨hmore, rfl⟩ | ⟨-, e⟩ | ⟨c, -, rfl⟩⟩
  · exact legal_of_not_busy rfl hr.params hs ⟨fun _ => hr.errClear, by simp, by simp⟩ hr.memory fun _ => hr.records
  · exact Running.legal (ph := .hdrV) (hr.startChild hs hmore).latch rfl (by decide) (tagFits_of_free (by decide))
  · exact (emit_legalAt ((hr.popFrame hs).weaken (by decide)).latch rfl e).1
  · exact legal_errorEntry hr.params hr.memory (by decide)

theorem engineStep_legal {s t : State} (h : Legal s) (e : engineStep s = .next t) : Legal t := by
  unfold engineStep at e
  split at e <;> rename_i hp
  · exact (versionRead_legalAt h hp e).1
  · exact (tagRead_legalAt h hp e).1
  · exact (continuationRead_legalAt h hp e).1
  · exact (nibbleRead_legalAt h hp e).1
  · exact (modeRead_legalAt h hp e).1
  · exact (totalBitsRead_legalAt h hp e).1
  · exact (childCountRead_legalAt h hp e).1
  · exact stepNext_legal h hp e
  all_goals cases e; exact h

/-! ### Whole instructions -/

theorem headerSteps_legalAt {s t : State} {v : Version} {g : Tag} (h : Legal s) (hp : s.phase = .hdrV)
    (e : headerSteps v g s = .next t) : LegalAt (if g = Config.literalTag then .litC else .opM) t :=
  thenStep_legalAt e (fun _ => versionRead_legalAt h hp) fun _ => tagRead_legalAt

theorem groupSteps_legal {s t : State} {c : BitVec 1} {g : BitVec 4} (h : Legal s) (hp : s.phase = .litC)
    (e : groupSteps c g s = .next t) : Legal t := by
  obtain ⟨u, eu, ⟨-, rfl⟩ | ⟨hgoing, e⟩⟩ := thenStep_next e
  · exact (continuationRead_legalAt h hp eu).1
  · obtain ⟨hu, hph⟩ := continuationRead_legalAt h hp eu
    exact (nibbleRead_legalAt hu (hph.resolve_right hgoing) e).1

/-- The steps of an operator's head up to its mode bit. -/
theorem modeSteps_legalAt {s t : State} {v : Version} {g : Tag} {m : BitVec 1} (h : Legal s) (hp : s.phase = .hdrV)
    (hg : g ≠ Config.literalTag)
    (e : (thenStep (headerSteps v g s) fun u => takeField 1 u (modeRead m)) = .next t) :
    LegalAt (if m = 0 then .opL else .opN) t :=
  thenStep_legalAt e (fun _ e => by simpa only [if_neg hg] using headerSteps_legalAt h hp e) fun _ => modeRead_legalAt

theorem lenHead_legal {s t : State} {v : Version} {g : Tag} {n : BitVec 15} (h : Legal s) (hp : s.phase = .hdrV)
    (hg : g ≠ Config.literalTag) (e : lenHead g v n s = .next t) : Legal t :=
  (thenStep_legalAt e (fun _ => modeSteps_legalAt h hp hg) fun _ => totalBitsRead_legalAt).1

theorem cntHead_legal {s t : State} {v : Version} {g : Tag} {n : BitVec 11} (h : Legal s) (hp : s.phase = .hdrV)
    (hg : g ≠ Config.literalTag) (e : cntHead g v n s = .next t) : Legal t :=
  (thenStep_legalAt e (fun _ => modeSteps_legalAt h hp hg) fun _ => childCountRead_legalAt).1

/-- The instructions a head window can hold: LIT, and the seven operators' heads of each framing (R112, R113). -/
theorem decodeHead_cases (b : BitVec 22) :
    (∃ v c, decodeHead b = .lit v c) ∨ (∃ x ∈ lenHeads, ∃ v n, decodeHead b = x.1 v n) ∨
    (∃ x ∈ cntHeads, ∃ v n, decodeHead b = x.1 v n) := by
  unfold decodeHead
  simp only [lenHeads, cntHeads, List.exists_mem_cons_iff]
  split <;> simp

/-- An operator's tag is not the literal's (R110). -/
theorem lenHeads_tag : ∀ x ∈ lenHeads, x.2 ≠ Config.literalTag := by decide

theorem cntHeads_tag : ∀ x ∈ cntHeads, x.2 ≠ Config.literalTag := by decide

theorem exec_lenHeads {x : (Version → BitVec 15 → Instr) × Tag} (hx : x ∈ lenHeads) (v : Version) (n : BitVec 15)
    (s : State) : exec (x.1 v n) s = lenHead x.2 v n s := by
  simp only [lenHeads, List.mem_cons, List.not_mem_nil, or_false] at hx
  rcases hx with rfl | rfl | rfl | rfl | rfl | rfl | rfl <;> rfl

theorem exec_cntHeads {x : (Version → BitVec 11 → Instr) × Tag} (hx : x ∈ cntHeads) (v : Version) (n : BitVec 11)
    (s : State) : exec (x.1 v n) s = cntHead x.2 v n s := by
  simp only [cntHeads, List.mem_cons, List.not_mem_nil, or_false] at hx
  rcases hx with rfl | rfl | rfl | rfl | rfl | rfl | rfl <;> rfl

theorem exec_decodeHead_legal {s t : State} {b : BitVec 22} (h : Legal s) (hp : s.phase = .hdrV)
    (e : exec (decodeHead b) s = .next t) : Legal t := by
  obtain ⟨v, c, hd⟩ | ⟨x, hx, v, n, hd⟩ | ⟨x, hx, v, n, hd⟩ := decodeHead_cases b <;> rw [hd] at e
  · exact (headerSteps_legalAt h hp e).1
  · exact lenHead_legal h hp (lenHeads_tag x hx) (exec_lenHeads hx v n s ▸ e)
  · exact cntHead_legal h hp (cntHeads_tag x hx) (exec_cntHeads hx v n s ▸ e)

theorem exec_decodeGroup_legal {s t : State} {g : BitVec 5} (h : Legal s) (hp : s.phase = .litC)
    (e : exec (decodeGroup g) s = .next t) : Legal t := by
  unfold decodeGroup at e
  split at e
  · exact groupSteps_legal h hp e
  · exact groupSteps_legal h hp e

/-- Where the engine has come to an instruction's first bit (R112, R225). -/
theorem fetchWindow_some {s : State} {x : Window} (h : fetchWindow s = some x) :
    (s.phase = .hdrV ∧ x = .head (windowAt s s.pos.toNat 22)) ∨
    (s.phase = .litC ∧ x = .group (windowAt s s.pos.toNat 5)) := by
  unfold fetchWindow at h
  split at h <;> simp_all

theorem instrStep_legal {s t : State} (h : Legal s) (e : instrStep s = .next t) : Legal t := by
  unfold instrStep at e
  split at e
  · rename_i x hx
    rcases fetchWindow_some hx with ⟨hp, rfl⟩ | ⟨hp, rfl⟩
    · exact exec_decodeHead_legal h hp e
    · exact exec_decodeGroup_legal h hp e
  · exact engineStep_legal h e

end Sys2Proof
end

section
/-! SUPPORT and CLAIMS. The host keeps a state legal, reset gives a legal one, and so every step of the machine keeps a state
legal. -/

namespace Sys2Proof

open Machine

/-- The model's own record of the host and the turns are no part of what `Legal` says. -/
theorem Legal.record {s : State} (h : Legal s) {ts : List Turn} {w : Word} {d : Nat} :
    Legal { s with turns := ts, readData := w, draws := d } := h

/-- LEN and START_POS are free outside the busy set (R50). -/
theorem Legal.configure {s : State} (h : Legal s) (hb : busy s = false) {l p : Word} :
    Legal { s with len := l, startPos := p } := by
  obtain ⟨hparams, -, hdepth, -, herr, -, -, hmem, hrec⟩ := h
  exact legal_of_not_busy hb hparams (hdepth.2 hb) herr hmem fun hp => hrec (.inr hp)

/-- A byte stored below IN_CAPACITY outside the busy set (R267). -/
theorem Legal.storeByte {s : State} (h : Legal s) (hb : busy s = false) {k : Nat} {b : Byte} (hk : k < s.capIn.toNat) :
    Legal { s with inMem := Memory.write s.inMem k b } := by
  obtain ⟨hparams, -, hdepth, -, herr, -, -, ⟨hinWf, hinBelow, hnode⟩, hrec⟩ := h
  exact legal_of_not_busy hb hparams (hdepth.2 hb) herr
    ⟨Memory.write_wf _ _ _ hinWf, Memory.write_below _ _ _ _ hinBelow hk, hnode⟩ fun hp => hrec (.inr hp)

/-- The state after reset is legal for all parameters that meet R10. -/
theorem legal_resetOf {capIn capStack capNode : Word} (h : ParamsLegal (State.resetOf capIn capStack capNode)) :
    Legal (State.resetOf capIn capStack capNode) :=
  legal_of_not_busy rfl h rfl ⟨fun _ => ⟨rfl, rfl, rfl, rfl⟩, nofun, nofun⟩ ⟨rfl, rfl, rfl, rfl⟩ nofun

/-- Reset keeps the parameters and sets all else that `Legal` speaks of to its reset value (R310). -/
theorem legal_resetBlock {s : State} (h : ParamsLegal s) : Legal (resetBlock s) :=
  legal_resetOf (capIn := s.capIn) (capStack := s.capStack) (capNode := s.capNode) h

/-- START: ignored, ConfigInvalid, or a new decode, whose START_POS is inside the stream (R261 to R263). -/
theorem execStart_legal {s t : State} {reserved : BitVec 31} (h : Legal s) (e : execStart reserved s = .next t) :
    Legal t := by
  have ⟨hparams, _, _, _, _, _, _, hmem, _⟩ := h
  rcases execStart_cases reserved s with ⟨-, e'⟩ | ⟨-, hc, e'⟩ | ⟨-, -, e'⟩ <;> cases e.symm.trans e'
  · exact h
  · exact Running.legal (ph := .hdrV) (launch_running hparams hmem hc) rfl (by decide) (tagFits_of_free (by decide))
  · exact legal_errorEntry hparams hmem (by decide)

/-- The only instruction a CTRL word holds is START (R261, R265). -/
theorem decode_ctrl_ok {w : Word} {i : Instr} (h : decode (.ctrl w) = .ok i) : ∃ reserved, i = .start reserved := by
  simp only [decode, decodeCtrl] at h
  split at h <;> cases h
  exact ⟨_, rfl⟩

theorem writeCtrl_legal {s t : State} {w : Word} (h : Legal s) (e : writeCtrl w s = .next t) : Legal t := by
  unfold writeCtrl at e
  split at e
  · obtain ⟨reserved, rfl⟩ := decode_ctrl_ok ‹_›
    exact execStart_legal (reserved := reserved) h e
  · cases e
    exact h

theorem writeReg_legal {s t : State} {reg : Nat} {w : Word} (h : Legal s) (e : writeReg reg w s = .next t) : Legal t := by
  unfold writeReg at e
  split at e
  · exact writeCtrl_legal h e
  · cases e
    split
    · exact h
    · exact h.configure (Bool.eq_false_of_not_eq_true ‹_›)
  · cases e
    split
    · exact h
    · exact h.configure (Bool.eq_false_of_not_eq_true ‹_›)
  all_goals cases e; exact h

/-- A read changes nothing but the model's own record of it (R81). -/
theorem readReg_eq (reg : Nat) (s : State) :
    readReg reg s = { s with readData := (readReg reg s).readData, draws := (readReg reg s).draws } := by
  unfold readReg
  split
  · rfl
  · split <;> rfl

theorem readNode_eq (i j : Nat) (s : State) :
    readNode i j s = { s with readData := (readNode i j s).readData, draws := (readNode i j s).draws } := by
  unfold readNode
  split
  · split <;> rfl
  · rfl

theorem readNode_legal {s : State} (h : Legal s) (i j : Nat) : Legal (readNode i j s) := readNode_eq i j s ▸ h.record

theorem writeIn_legal {s t : State} {k : Nat} {b : Byte} (h : Legal s) (e : writeIn k b s = .next t) : Legal t := by
  unfold writeIn at e
  split at e
  · cases e
    exact h
  · split at e <;> cases e
    exact h.storeByte (Bool.eq_false_of_not_eq_true ‹_›) (by omega)

theorem hostStep_legal {s t : State} {a : HostAction} (h : Legal s) (e : hostStep a s = .next t) : Legal t := by
  cases a with
  | writeReg reg w => exact writeReg_legal h e
  | readReg reg => cases e; exact readReg_eq reg s ▸ h.record
  | writeIn k b => exact writeIn_legal h e
  | readIn k => cases e; exact h.record
  | readNode i j => cases e; exact readNode_legal h i j
  | readNodeWord n => cases e; exact readNode_legal h _ _
  | reset => cases e; exact legal_resetBlock h.1

/-- Settles O43: the engine's step, a whole instruction and a host action each keep a state legal. -/
theorem everyStepKeepsTheStateLegal : Obligations.EveryStepKeepsTheStateLegal := by
  intro s t h e
  unfold step at e
  split at e
  · exact engineStep_legal h e
  · exact engineStep_legal h.record e
  · exact instrStep_legal h.record e
  · exact hostStep_legal h.record e

/-- Settles O44: the reference parameters (log 4) meet R10. -/
theorem resetStatesAreLegal : Obligations.ResetStatesAreLegal :=
  ⟨legal_resetOf ⟨by decide, by decide, by decide⟩, fun _ _ _ => legal_resetOf⟩

end Sys2Proof
end

section
/-! SUPPORT. A head or a group run whole is its engine steps, one after another (R225, R231): the table's windows hold the very
fields that the engine's READs deliver (R112). -/

namespace Sys2Proof

open Machine

/-- Up to `n` engine steps, one after another; an error ends them. -/
def engineSteps : Nat → State → Result
  | 0, s => .next s
  | n + 1, s => thenStep (engineStep s) (engineSteps n)

/-! ### Sequencing -/

/-- Two continuations that agree wherever the first step leaves the decode going. -/
theorem thenStep_congr {o : Result} {k k' : State → Result}
    (h : ∀ u, o = .next u → u.phase ≠ .error → k u = k' u) : thenStep o k = thenStep o k' := by
  cases o with
  | next u =>
    by_cases hu : u.phase = .error
    · simp [thenStep, hu]
    · simp [thenStep, hu, h u rfl hu]
  | fault f => rfl
  | refused r => rfl

theorem thenStep_assoc (o : Result) (k k' : State → Result) :
    thenStep (thenStep o k) k' = thenStep o fun u => thenStep (k u) k' := by
  cases o with
  | next u => by_cases hu : u.phase = .error <;> simp [thenStep, hu]
  | fault f => rfl
  | refused r => rfl

@[simp] theorem thenStep_engineSteps_zero (o : Result) : thenStep o (engineSteps 0) = o := by
  cases o with
  | next u => simp [thenStep, engineSteps]
  | fault f => rfl
  | refused r => rfl

/-- READ's cursor part asks its continuation only where the field fits. -/
theorem takeField_congr {n : Nat} {s : State} {k k' : State → Result}
    (h : s.pos.toNat + n ≤ s.len.toNat → s.pos.toNat + n ≤ 8 * s.capIn.toNat →
      k (moveCursor n s) = k' (moveCursor n s)) : takeField n s k = takeField n s k' := by
  unfold takeField
  split
  · rfl
  · split
    · rfl
    · split
      · rfl
      · exact h (by omega) (by omega)

/-! ### The fields of a window -/

/-- A big-endian value depends on its own bits only. -/
theorem bigEndian_congr {bit bit' : Nat → Bool} {p n : Nat} (h : ∀ i, p ≤ i → i < p + n → bit i = bit' i) :
    bigEndian bit p n = bigEndian bit' p n := by
  induction n with
  | zero => rfl
  | succ n ih =>
    simp only [bigEndian, ih fun i hp hi => h i hp (by omega), h (p + n) (by omega) (by omega)]

/-- The n bits from offset d on, cut out of the value of d + n + r bits (R75). -/
theorem bigEndian_extract (bit : Nat → Bool) (p d n r : Nat) :
    (BitVec.ofNat (d + n + r) (bigEndian bit p (d + n + r))).extractLsb' r n =
      BitVec.ofNat n (bigEndian bit (p + d) n) := by
  apply BitVec.eq_of_toNat_eq
  have hr := bigEndian_lt bit (p + (d + n)) r
  rw [BitVec.extractLsb'_toNat, BitVec.toNat_ofNat, BitVec.toNat_ofNat,
    Nat.mod_eq_of_lt (bigEndian_lt bit p (d + n + r)), bigEndian_add bit p (d + n) r, Nat.shiftRight_eq_div_pow,
    Nat.mul_comm, Nat.mul_add_div (Nat.two_pow_pos r), Nat.div_eq_of_lt hr, Nat.add_zero, bigEndian_add bit p d n,
    Nat.mul_comm, Nat.mul_add_mod]

/-- The n bits at offset d of a window of d + n + r bits, if they exist, are the field that READ delivers there. -/
theorem windowAt_extract {s : State} {p d n r : Nat} (hlen : p + d + n ≤ s.len.toNat)
    (hcap : p + d + n ≤ 8 * s.capIn.toNat) :
    (windowAt s p (d + n + r)).extractLsb' r n = fieldAt s (p + d) n := by
  rw [windowAt, bigEndian_extract, fieldAt]
  refine congrArg _ (bigEndian_congr fun j _ hj => ?_)
  have h1 : j < s.len.toNat := by omega
  have h2 : j < 8 * s.capIn.toNat := by omega
  simp [bitExists, h1, h2]

/-- A head window's type_tag, offsets 3 to 5 (R102). -/
def windowTag (b : BitVec 22) : Tag := b.extractLsb' 16 3

/-- The row key is the type_tag and the bit after it (R112). -/
theorem windowTag_eq_rowKey (b : BitVec 22) : windowTag b = (Window.rowKey b).extractLsb' 1 3 := by
  apply BitVec.eq_of_getLsbD_eq
  intro i hi
  have h4 : 1 + i < 4 := by omega
  simp [windowTag, Window.rowKey, hi, h4, ← Nat.add_assoc]

theorem offset6_eq_rowKey (b : BitVec 22) : Window.offset6 b = (Window.rowKey b).extractLsb' 0 1 := by
  apply BitVec.eq_of_getLsbD_eq
  intro i hi
  have h4 : i < 4 := by omega
  simp [Window.offset6, Window.rowKey, hi, h4]

/-- The instruction in a head window is the one its type_tag and length_type_id name (R112), for each of the sixteen row keys. -/
theorem exec_decodeHead (b : BitVec 22) (s : State) :
    exec (decodeHead b) s =
      if windowTag b = Config.literalTag then headerSteps (Window.version b) Config.literalTag s
      else if Window.offset6 b = 0 then lenHead (windowTag b) (Window.version b) (Window.totalBits b) s
      else cntHead (windowTag b) (Window.version b) (Window.childCount b) s := by
  rw [windowTag_eq_rowKey, offset6_eq_rowKey, decodeHead]
  generalize Window.rowKey b = key
  obtain ⟨n, rfl⟩ : ∃ n : Fin 16, key = BitVec.ofFin n := ⟨key.toFin, rfl⟩
  fin_cases n
  all_goals simp [Config.literalTag]; rfl

theorem bitVec_one_cases (c : BitVec 1) : c = 0 ∨ c = 1 := by
  revert c
  decide

/-- The instruction in a group window is the group of its continuation bit (R112). -/
theorem exec_decodeGroup (g : BitVec 5) (s : State) :
    exec (decodeGroup g) s = groupSteps (g.extractLsb' 4 1) (g.extractLsb' 0 4) s := by
  unfold decodeGroup
  rcases bitVec_one_cases (g.extractLsb' 4 1) with hc | hc
  · rw [hc, if_neg (by decide)]; rfl
  · rw [hc, if_pos rfl]; rfl

/-! ### Whole instructions are engine steps -/

/-- `u` stands in the stream of `s`, `d` bits on. -/
structure BitsOn (s : State) (d : Nat) (u : State) : Prop where
  pos : u.pos.toNat = s.pos.toNat + d
  len : u.len = s.len
  capIn : u.capIn = s.capIn
  bits : streamBit u = streamBit s

theorem BitsOn.refl (s : State) : BitsOn s 0 s := ⟨rfl, rfl, rfl, rfl⟩

theorem BitsOn.moveCursor {s u : State} {d n : Nat} (h : BitsOn s d u) (hlen : u.pos.toNat + n ≤ u.len.toNat) :
    BitsOn s (d + n) (moveCursor n u) :=
  ⟨by rw [moveCursor_toNat hlen, h.pos, Nat.add_assoc], h.len, h.capIn, h.bits⟩

/-- A field of the window at `s`, taken `d` bits on by the step `k`, is the engine's own step there, and what follows is the
engine's where it finds that step done. -/
theorem BitsOn.field {s u : State} {d n m : Nat} (r : Nat) {k : BitVec n → State → Result} {rest : State → Result}
    {c : BitVec n} (h : BitsOn s d u) (hc : c = (windowAt s s.pos.toNat (d + n + r)).extractLsb' r n)
    (hu : engineStep u = readField n u k)
    (hrest : ∀ w, BitsOn s (d + n) (Machine.moveCursor n u) → k c (Machine.moveCursor n u) = .next w →
      rest w = engineSteps m w) :
    thenStep (takeField n u (k c)) rest = engineSteps (m + 1) u := by
  have hfield : takeField n u (k c) = engineStep u := by
    rw [hu, readField]
    refine takeField_congr fun hlen hcap => ?_
    rw [h.pos, h.len] at hlen
    rw [h.pos, h.capIn] at hcap
    rw [hc, windowAt_extract hlen hcap, h.pos, fieldAt, fieldAt, h.bits]
  rw [engineSteps, ← hfield]
  refine thenStep_congr fun w hw hgoing => ?_
  rcases takeField_next hw with ⟨-, rfl⟩ | ⟨hlen, -, hw⟩
  · exact absurd rfl hgoing
  · exact hrest w (h.moveCursor hlen) hw

/-- The same for an instruction's last field. -/
theorem BitsOn.lastField {s u : State} {d n : Nat} (r : Nat) {k : BitVec n → State → Result} {c : BitVec n}
    (h : BitsOn s d u) (hc : c = (windowAt s s.pos.toNat (d + n + r)).extractLsb' r n)
    (hu : engineStep u = readField n u k) : takeField n u (k c) = engineSteps 1 u := by
  rw [← h.field (rest := engineSteps 0) r hc hu fun _ _ _ => rfl, thenStep_engineSteps_zero]

section

variable {s : State}

/-- LIT's header is HDR_V and HDR_T. -/
theorem headerSteps_eq_engineSteps (hp : s.phase = .hdrV)
    (ht : windowTag (windowAt s s.pos.toNat 22) = Config.literalTag) :
    headerSteps (Window.version (windowAt s s.pos.toNat 22)) Config.literalTag s = engineSteps 2 s := by
  refine (BitsOn.refl s).field 19 rfl (by simp only [engineStep, hp]) fun w hon hw => ?_
  cases hw
  exact BitsOn.lastField (k := tagRead) 16 ⟨hon.pos, hon.len, hon.capIn, hon.bits⟩ ht.symm rfl

/-- An operator's header and mode bit are HDR_V, HDR_T and OP_M; the mode bit names the phase of the field after it. -/
theorem operatorSteps_eq_engineSteps {m : Nat} {rest : State → Result} (hp : s.phase = .hdrV)
    (ht : windowTag (windowAt s s.pos.toNat 22) ≠ Config.literalTag)
    (hrest : ∀ w, BitsOn s 7 w →
      w.phase = (if Window.offset6 (windowAt s s.pos.toNat 22) = 0 then .opL else .opN) → rest w = engineSteps m w) :
    thenStep (thenStep (headerSteps (Window.version (windowAt s s.pos.toNat 22))
        (windowTag (windowAt s s.pos.toNat 22)) s)
      fun u => takeField 1 u (modeRead (Window.offset6 (windowAt s s.pos.toNat 22)))) rest = engineSteps (m + 3) s := by
  simp only [headerSteps, thenStep_assoc]
  refine (BitsOn.refl s).field 19 rfl (by simp only [engineStep, hp]) fun w hon hw => ?_
  cases hw
  refine BitsOn.field (k := tagRead) 16 ⟨hon.pos, hon.len, hon.capIn, hon.bits⟩ rfl rfl fun w hon hw => ?_
  obtain ⟨ht', -⟩ | ⟨-, rfl⟩ := tagRead_next hw
  · exact absurd ht' ht
  refine BitsOn.field (k := modeRead) 15 ⟨hon.pos, hon.len, hon.capIn, hon.bits⟩ rfl rfl fun w hon hw => ?_
  cases hw
  exact hrest _ ⟨hon.pos, hon.len, hon.capIn, hon.bits⟩ rfl

/-- A total-length head is HDR_V, HDR_T, OP_M and OP_L. -/
theorem lenHead_eq_engineSteps (hp : s.phase = .hdrV) (ht : windowTag (windowAt s s.pos.toNat 22) ≠ Config.literalTag)
    (hm : Window.offset6 (windowAt s s.pos.toNat 22) = 0) :
    lenHead (windowTag (windowAt s s.pos.toNat 22)) (Window.version (windowAt s s.pos.toNat 22))
      (Window.totalBits (windowAt s s.pos.toNat 22)) s = engineSteps 4 s := by
  rw [lenHead, ← hm]
  refine operatorSteps_eq_engineSteps hp ht fun w hon hw => ?_
  rw [if_pos hm] at hw
  exact hon.lastField (k := totalBitsRead w) 0 rfl (by simp only [engineStep, hw])

/-- A count head is HDR_V, HDR_T, OP_M and OP_N. -/
theorem cntHead_eq_engineSteps (hp : s.phase = .hdrV) (ht : windowTag (windowAt s s.pos.toNat 22) ≠ Config.literalTag)
    (hm : Window.offset6 (windowAt s s.pos.toNat 22) = 1) :
    cntHead (windowTag (windowAt s s.pos.toNat 22)) (Window.version (windowAt s s.pos.toNat 22))
      (Window.childCount (windowAt s s.pos.toNat 22)) s = engineSteps 4 s := by
  rw [cntHead, ← hm]
  refine operatorSteps_eq_engineSteps hp ht fun w hon hw => ?_
  rw [hm, if_neg (by decide)] at hw
  exact hon.lastField (k := childCountRead w) 4 rfl (by simp only [engineStep, hw])

/-- A group is LIT_C and LIT_G. -/
theorem groupSteps_eq_engineSteps (hp : s.phase = .litC) :
    groupSteps ((windowAt s s.pos.toNat 5).extractLsb' 4 1) ((windowAt s s.pos.toNat 5).extractLsb' 0 4) s =
      engineSteps 2 s := by
  refine (BitsOn.refl s).field 4 rfl (by simp only [engineStep, hp]) fun w hon hw => ?_
  cases hw
  exact BitsOn.lastField (k := nibbleRead _) 0 ⟨hon.pos, hon.len, hon.capIn, hon.bits⟩ rfl rfl

end

/-- An `instr` turn is one to four engine steps (log 2). -/
theorem instrStep_eq_engineSteps (s : State) : ∃ n, instrStep s = engineSteps n s := by
  unfold instrStep
  split
  · rename_i x hx
    rcases fetchWindow_some hx with ⟨hp, rfl⟩ | ⟨hp, rfl⟩
    · simp only [decode, exec_decodeHead]
      split_ifs with ht hm
      · exact ⟨2, headerSteps_eq_engineSteps hp ht⟩
      · exact ⟨4, lenHead_eq_engineSteps hp ht hm⟩
      · exact ⟨4, cntHead_eq_engineSteps hp ht ((bitVec_one_cases _).resolve_left hm)⟩
    · simp only [decode, exec_decodeGroup]
      exact ⟨2, groupSteps_eq_engineSteps hp⟩
  · exact ⟨1, (thenStep_engineSteps_zero (engineStep s)).symm⟩

end Sys2Proof
end

section
/-! SUPPORT and CLAIMS. What a host action can do, said once, and the register map and reset from it (R45, R55, R260). -/

namespace Sys2Proof

open Machine

/-- START is the CTRL words with bit 0 set (R261, R265). -/
theorem ctrlBit_eq_one_iff (w : Word) : w.extractLsb' 0 1 = 1 ↔ w.getLsbD 0 = true := by
  have hbit : (w.extractLsb' 0 1).getLsbD 0 = w.getLsbD 0 := by simp
  rw [← hbit]
  generalize w.extractLsb' 0 1 = c
  revert c
  decide

/-- A CTRL word with bit 0 clear is no command (R265). -/
theorem writeCtrl_of_bit_clear {w : Word} (h : w.getLsbD 0 = false) (s : State) : writeCtrl w s = .next s := by
  have hw := mt (ctrlBit_eq_one_iff w).mp (ne_true_of_eq_false h)
  simp only [writeCtrl, decode, decodeCtrl, if_neg hw]

/-- A CTRL word with bit 0 set is START (R261). -/
theorem writeCtrl_of_bit_set {w : Word} (h : w.getLsbD 0 = true) (s : State) :
    writeCtrl w s = execStart (w.extractLsb' 1 31) s := by
  simp only [writeCtrl, decode, decodeCtrl, if_pos ((ctrlBit_eq_one_iff w).mpr h)]
  rfl

theorem regAt_of_reserved {reg : Nat} (h : 13 ≤ reg) : regAt reg = none := by
  obtain ⟨k, rfl⟩ := Nat.exists_eq_add_of_le' h
  rfl

/-- Everything a host action can do when it answers a next state (R260): at most leave the model's record of a read; outside
the busy set store LEN, START_POS or an input byte, or start a decode or fail to; or reset. -/
inductive HostEffect (s : State) : HostAction → State → Prop where
  | recorded (a : HostAction) (w : Word) (d : Nat) : HostEffect s a { s with readData := w, draws := d }
  | configured (reg : Nat) (w l p : Word) : busy s = false →
      HostEffect s (.writeReg reg w) { s with len := l, startPos := p }
  | stored (k : Nat) (b : Byte) : busy s = false → k < s.capIn.toNat →
      HostEffect s (.writeIn k b) { s with inMem := Memory.write s.inMem k b }
  | started (w : Word) : busy s = false → configLegal s = true → w.getLsbD 0 = true →
      HostEffect s (.writeReg 0 w) (launch s)
  | rejected (w : Word) : busy s = false → configLegal s = false → w.getLsbD 0 = true →
      HostEffect s (.writeReg 0 w) (configInvalid s)
  | reset : HostEffect s .reset (resetBlock s)

/-- An action without effect. -/
theorem HostEffect.none (s : State) (a : HostAction) : HostEffect s a s := .recorded a s.readData s.draws

theorem writeCtrl_effect {w : Word} {s t : State} (h : writeCtrl w s = .next t) : HostEffect s (.writeReg 0 w) t := by
  cases hw : w.getLsbD 0
  · cases (writeCtrl_of_bit_clear hw s).symm.trans h
    exact .none s _
  · rw [writeCtrl_of_bit_set hw] at h
    rcases execStart_cases (w.extractLsb' 1 31) s with ⟨-, e⟩ | ⟨hb, hc, e⟩ | ⟨hb, hc, e⟩ <;> cases e.symm.trans h
    · exact .none s _
    · exact .started w hb hc hw
    · exact .rejected w hb hc hw

theorem writeReg_effect {reg : Nat} {w : Word} {s t : State} (h : writeReg reg w s = .next t) :
    HostEffect s (.writeReg reg w) t := by
  unfold writeReg at h
  split at h
  · rename_i hreg
    obtain rfl : reg = 0 := by
      unfold regAt at hreg
      split at hreg <;> cases hreg
      rfl
    exact writeCtrl_effect h
  · cases h
    split
    · exact .none s _
    · exact .configured reg w w s.startPos (Bool.eq_false_of_not_eq_true ‹_›)
  · cases h
    split
    · exact .none s _
    · exact .configured reg w s.len w (Bool.eq_false_of_not_eq_true ‹_›)
  all_goals cases h; exact .none s _

theorem writeIn_effect {k : Nat} {b : Byte} {s t : State} (h : writeIn k b s = .next t) :
    HostEffect s (.writeIn k b) t := by
  unfold writeIn at h
  split at h
  · cases h
    exact .none s _
  · split at h <;> cases h
    exact .stored k b (Bool.eq_false_of_not_eq_true ‹_›) (by omega)

theorem readNode_effect (a : HostAction) (i j : Nat) (s : State) : HostEffect s a (readNode i j s) := by
  rw [readNode_eq]
  exact .recorded a _ _

theorem hostStep_effect {a : HostAction} {s t : State} (h : hostStep a s = .next t) : HostEffect s a t := by
  cases a with
  | writeReg reg w => exact writeReg_effect h
  | readReg reg => cases h; rw [readReg_eq]; exact .recorded _ _ _
  | writeIn k b => exact writeIn_effect h
  | readIn k => cases h; exact .recorded _ _ s.draws
  | readNode i j => cases h; exact readNode_effect _ i j s
  | readNodeWord n => cases h; exact readNode_effect _ _ _ s
  | reset => cases h; exact .reset

/-! ### The register map, and reset -/

/-- A read of a register whose value is exact now (R266, R315). -/
theorem readReg_exact {reg : Nat} {r : Reg} {s : State} (hr : regAt reg = some r)
    (h : busy s = false ∨ isResult r = false) : readReg reg s = returnWord (regValue s r) s := by
  rcases h with h | h <;> simp [readReg, hr, h]

theorem readReg_reserved {reg : Nat} (h : 13 ≤ reg) (s : State) : readReg reg s = returnWord 0 s := by
  simp [readReg, regAt_of_reserved h]

/-- STATUS by PHASE (R46). -/
theorem regValue_status (s : State) : regValue s .status =
    if s.phase = .idle then 0 else if s.phase = .done then 2 else if s.phase = .error then 3 else 1 := by
  simp only [regValue, statusState]
  cases s.phase <;> rfl

/-- Settles O54: each register by its offset, with `readReg_exact` for the value. -/
theorem registerReadsFollowTheMap : Obligations.RegisterReadsFollowTheMap := by
  intro s reg h
  rcases Nat.lt_or_ge reg 13 with hreg | hreg
  · have read {r : Reg} {x : Word} (hr : regAt reg = some r) (hres : isResult r = true → reg ∈ [4, 5, 6, 7, 8, 9])
        (hx : regValue s r = x) : hostStep (.readReg reg) s = .next (returnWord x s) := by
      rw [← hx]
      exact congrArg _ (readReg_exact hr (h.imp_right fun hn => Bool.eq_false_of_not_eq_true (mt hres hn)))
    have hreg' : reg = 1 ∨ reg = 6 ∨ reg ∈ [0, 2, 3, 4, 5, 7, 8, 9, 10, 11, 12] := by
      simp only [List.mem_cons]
      omega
    rcases hreg' with rfl | rfl | hmem
    · exact read rfl (by decide) (regValue_status s)
    · refine read rfl (by decide) ?_
      simp only [regValue]
      cases s.errKind <;> rfl
    · fin_cases hmem <;> exact read rfl (by decide) rfl
  · rw [hostStep, readReg_reserved hreg]
    repeat rw [if_neg (by omega)]
    rfl

/-- The registers a write leaves alone: STATUS, the results, the hardwired ones, and the reserved offsets (R45). -/
theorem writeReg_of_readOnly {reg : Nat} (h : reg = 1 ∨ 4 ≤ reg) (w : Word) (s : State) : writeReg reg w s = .next s := by
  rcases Nat.lt_or_ge reg 13 with hreg | hreg
  · have hmem : reg ∈ [1, 4, 5, 6, 7, 8, 9, 10, 11, 12] := by
      simp only [List.mem_cons]
      omega
    fin_cases hmem <;> rfl
  · simp [writeReg, regAt_of_reserved hreg]

/-- Settles O56. -/
theorem registerWritesFollowTheMap : Obligations.RegisterWritesFollowTheMap := by
  intro s reg w
  refine ⟨?_, ?_, ?_, ?_, fun h => writeReg_of_readOnly h w s⟩
  · rintro hb rfl
    simp [hostStep, writeReg, regAt, hb]
  · rintro hb rfl
    simp [hostStep, writeReg, regAt, hb]
  · rintro hb (rfl | rfl) <;> simp [hostStep, writeReg, regAt, hb]
  · rintro rfl hw
    exact writeCtrl_of_bit_clear hw s

/-- Settles O60: `resetBlock`, the turn taken. -/
theorem resetSetsEveryResetValue : Obligations.ResetSetsEveryResetValue := by
  intro s rest h
  refine ⟨resetBlock { s with turns := rest }, by simp [step, h, hostStep], ?_⟩
  exact ⟨rfl, rfl, rfl, rfl, rfl, rfl, rfl, rfl, rfl, rfl, rfl, rfl, rfl, rfl, rfl, rfl, rfl, rfl, rfl, rfl, rfl,
    fun _ => rfl, fun _ => rfl⟩

end Sys2Proof
end

section
/-! SUPPORT and CLAIMS. What an engine step can do, said once; runs of engine steps; and what a step of the machine keeps of the
stream and the cursor (R32, R50, R225). -/

namespace Sys2Proof

open Machine

/-- Outside the busy set the engine rests (R226). -/
theorem engineStep_of_not_busy {s : State} (h : busy s = false) : engineStep s = .next s := by
  rcases (not_busy_iff s).mp h with e | e | e <;> simp only [engineStep, e]

/-- Everything an engine step can do when it answers a next state (R225, R290): nothing outside the busy set; error entry at
the cursor, DepthExceeded only where an operator's last field finds the stack full; or writes to the datapath, the cursor moving forward inside the stream, at most one record being emitted. -/
inductive EngineEffect (s : State) : State → Prop where
  | rests : busy s = false → EngineEffect s s
  | fails (e : ErrorKind) (a b : Word) : busy s = true → e ≠ .none ∧ e ≠ .invalidTypeTag →
      (e = .depthExceeded → stackFull s = true ∧
        (s.phase = .opL ∧ s.pos.toNat + 15 ≤ s.len.toNat ∨ s.phase = .opN ∧ s.pos.toNat + 11 ≤ s.len.toNat)) →
      EngineEffect s (errorEntry e s.pos a b s)
  | reads (n : Nat) (ph : Phase) (v : Version) (t : Tag) (c : BitVec 1) (a : LitWord) (fs : List Frame) :
      busy s = true → ph ≠ .idle → s.pos.toNat + n ≤ s.len.toNat →
      EngineEffect s { moveCursor n s with phase := ph, hv := v, ht := t, cont := c, acc := a, stack := fs }
  | goesOn (ph : Phase) (e : Word) : busy s = true → ph ≠ .idle → EngineEffect s { s with phase := ph, endPos := e }
  | emitsLiteral (n : Nat) (r : NodeRecord) (a : LitWord) : busy s = true → s.pos.toNat + n ≤ s.len.toNat →
      s.ncount.toNat < s.capNode.toNat →
      EngineEffect s { moveCursor n s with
        phase := .next, acc := a, node := Memory.write s.node s.ncount.toNat r, ncount := s.ncount + 1,
        stack := countChild s.stack }
  | emitsOperator (r : NodeRecord) (fs : List Frame) : busy s = true → s.ncount.toNat < s.capNode.toNat →
      EngineEffect s { s with
        phase := .next, node := Memory.write s.node s.ncount.toNat r, ncount := s.ncount + 1, stack := fs }

section

variable {s t : State}

/-- READ either fails at the cursor or leaves the rest to the step's own writes. -/
theorem readField_effect {n : Nat} {k : BitVec n → State → Result} (hb : busy s = true) (h : readField n s k = .next t)
    (hk : ∀ c, s.pos.toNat + n ≤ s.len.toNat → k c (moveCursor n s) = .next t → EngineEffect s t) :
    EngineEffect s t := by
  rcases takeField_next h with ⟨-, rfl⟩ | ⟨hlen, -, h⟩
  · exact .fails _ _ _ hb (by decide) nofun
  · exact hk _ hlen h

theorem nibbleRead_effect {g : BitVec 4} (hb : busy s = true) (hlen : s.pos.toNat + 4 ≤ s.len.toNat)
    (h : nibbleRead s g (moveCursor 4 s) = .next t) : EngineEffect s t := by
  rcases nibbleRead_next h with ⟨-, rfl⟩ | ⟨-, -, rfl⟩ | ⟨-, -, h⟩
  · exact .fails _ _ _ hb (by decide) nofun
  · exact .reads 4 .litC s.hv s.ht s.cont _ s.stack hb nofun hlen
  · obtain ⟨hroom, -, rfl⟩ := emit_next h
    exact .emitsLiteral 4 _ _ hb hlen hroom

theorem framePushed_effect {n : Nat} {m : Framing} {x : BitVec 15} (hb : busy s = true)
    (hlen : s.pos.toNat + n ≤ s.len.toNat) (hp : s.phase = .opL ∧ n = 15 ∨ s.phase = .opN ∧ n = 11) :
    EngineEffect s (framePushed s m x (moveCursor n s)) := by
  unfold framePushed
  split
  · rename_i hfull
    exact .fails _ _ _ hb (by decide) fun _ =>
      ⟨hfull, hp.imp (fun ⟨h, e⟩ => ⟨h, e ▸ hlen⟩) fun ⟨h, e⟩ => ⟨h, e ▸ hlen⟩⟩
  · exact .reads n .next s.hv s.ht s.cont s.acc _ hb nofun hlen

theorem stepNext_effect (hb : busy s = true) (h : stepNext s = .next t) : EngineEffect s t := by
  rcases stepNext_next h with ⟨_, rfl⟩ | ⟨f, rest, _, ⟨_, rfl⟩ | ⟨_, h⟩ | ⟨c, _, rfl⟩⟩
  · exact .goesOn .done s.pos hb nofun
  · exact .goesOn .hdrV s.endPos hb nofun
  · obtain ⟨hroom, -, rfl⟩ := emit_next h
    exact .emitsOperator _ _ hb hroom
  · exact .fails _ _ _ hb (by decide) nofun

theorem engineStep_effect (h : engineStep s = .next t) : EngineEffect s t := by
  cases hb : busy s
  · cases (engineStep_of_not_busy hb).symm.trans h
    exact .rests hb
  unfold engineStep at h
  cases hp : s.phase <;> simp only [hp] at h
  case hdrV =>
    refine readField_effect hb h fun c hlen h => ?_
    cases h
    exact .reads 3 .hdrT c s.ht s.cont s.acc s.stack hb nofun hlen
  case hdrT =>
    refine readField_effect hb h fun c hlen h => ?_
    rcases tagRead_next h with ⟨-, rfl⟩ | ⟨-, rfl⟩
    · exact .reads 3 .litC s.hv c s.cont 0 s.stack hb nofun hlen
    · exact .reads 3 .opM s.hv c s.cont s.acc s.stack hb nofun hlen
  case litC =>
    refine readField_effect hb h fun c hlen h => ?_
    cases h
    exact .reads 1 .litG s.hv s.ht c s.acc s.stack hb nofun hlen
  case litG => exact readField_effect hb h fun _ => nibbleRead_effect hb
  case opM =>
    refine readField_effect hb h fun c hlen h => ?_
    cases h
    exact .reads 1 _ s.hv s.ht s.cont s.acc s.stack hb (by split <;> nofun) hlen
  case opL =>
    refine readField_effect hb h fun c hlen h => ?_
    cases (totalBitsRead_eq _ _ _).symm.trans h
    exact framePushed_effect hb hlen (.inl ⟨hp, rfl⟩)
  case opN =>
    refine readField_effect hb h fun c hlen h => ?_
    cases (childCountRead_eq _ _ _).symm.trans h
    exact framePushed_effect hb hlen (.inr ⟨hp, rfl⟩)
  case next => exact stepNext_effect hb h
  all_goals exact absurd hb (by simp [busy, hp])

end

/-! ### Runs of engine steps -/

/-- `n` engine steps lead from `s` to `t`; between them the turns and the model's record of the host may change. -/
inductive EngineMoves : Nat → State → State → Prop where
  | rest (s : State) : EngineMoves 0 s s
  | record {n : Nat} {s t : State} (ts : List Turn) (w : Word) (d : Nat) :
      EngineMoves n { s with turns := ts, readData := w, draws := d } t → EngineMoves n s t
  | engine {n : Nat} {s u t : State} : engineStep s = .next u → EngineMoves n u t → EngineMoves (n + 1) s t

theorem EngineMoves.turnTaken {n : Nat} {s t : State} {ts : List Turn} (h : EngineMoves n { s with turns := ts } t) :
    EngineMoves n s t :=
  .record ts s.readData s.draws h

theorem EngineMoves.trans {m n : Nat} {s u t : State} (h : EngineMoves m s u) (h' : EngineMoves n u t) :
    EngineMoves (n + m) s t := by
  induction h with
  | rest s => exact h'
  | record ts w d _ ih => exact .record ts w d (ih h')
  | engine e _ ih => exact .engine e (ih h')

/-- What the model's own records do not bear on and every engine step keeps, a run of engine steps keeps. -/
theorem EngineMoves.keeps {P : State → Prop}
    (hrecord : ∀ s ts w d, P s → P { s with turns := ts, readData := w, draws := d })
    (hengine : ∀ s t, P s → engineStep s = .next t → P t) {n : Nat} {s t : State} (h : EngineMoves n s t) (hs : P s) :
    P t := by
  induction h with
  | rest s => exact hs
  | record ts w d _ ih => exact ih (hrecord _ ts w d hs)
  | engine e _ ih => exact ih (hengine _ _ hs e)

theorem engineSteps_moves {n : Nat} {s t : State} (h : engineSteps n s = .next t) : ∃ m, EngineMoves m s t := by
  induction n generalizing s with
  | zero => cases h; exact ⟨0, .rest _⟩
  | succ n ih =>
    obtain ⟨u, hu, ⟨-, rfl⟩ | ⟨-, h⟩⟩ := thenStep_next h
    · exact ⟨1, .engine hu (.rest _)⟩
    · obtain ⟨m, hm⟩ := ih h
      exact ⟨m + 1, .engine hu hm⟩

/-- Everything a step of the machine can do: engine steps, or the host's action that is due (R30). -/
theorem step_cases {s t : State} (h : step s = .next t) :
    (∃ n, EngineMoves n s t) ∨ ∃ a rest, s.turns = .host a :: rest ∧ HostEffect { s with turns := rest } a t := by
  unfold step at h
  split at h
  · exact .inl ⟨1, .engine h (.rest t)⟩
  · exact .inl ⟨1, .turnTaken (.engine h (.rest t))⟩
  · rename_i rest _
    obtain ⟨n, e⟩ := instrStep_eq_engineSteps { s with turns := rest }
    obtain ⟨m, hm⟩ := engineSteps_moves (e.symm.trans h)
    exact .inl ⟨m, hm.turnTaken⟩
  · exact .inr ⟨_, _, ‹_›, hostStep_effect h⟩

/-- While busy, only the engine and reset change the block (R50, R263, R314). -/
theorem busy_step_moves {s t : State} (hb : busy s = true) (hreset : ¬ HostTurn (· = .reset) s) (h : step s = .next t) :
    ∃ n, EngineMoves n s t := by
  rcases step_cases h with hm | ⟨a, rest, hturns, he⟩
  · exact hm
  · have hne : busy { s with turns := rest } ≠ false := fun e => Bool.eq_false_iff.mp e hb
    cases he with
    | recorded _ w d => exact ⟨0, .record rest w d (.rest _)⟩
    | reset => exact absurd ⟨_, _, hturns, rfl⟩ hreset
    | configured _ _ _ _ hidle => exact absurd hidle hne
    | stored _ _ hidle _ => exact absurd hidle hne
    | started _ hidle _ _ => exact absurd hidle hne
    | rejected _ hidle _ _ => exact absurd hidle hne

/-! ### What a run of engine steps keeps -/

/-- `t` has the stream, the configuration and the hardwired registers of `s`, and its cursor is no further back and still
inside the stream if it was (R32, R50). -/
structure Advances (s t : State) : Prop where
  inMem : t.inMem = s.inMem
  resets : t.resets = s.resets
  len : t.len = s.len
  startPos : t.startPos = s.startPos
  capIn : t.capIn = s.capIn
  capStack : t.capStack = s.capStack
  capNode : t.capNode = s.capNode
  forward : s.pos.toNat ≤ t.pos.toNat
  inside : s.pos.toNat ≤ s.len.toNat → t.pos.toNat ≤ s.len.toNat
  busy_of : busy t = true → busy s = true

theorem Advances.refl (s : State) : Advances s s := ⟨rfl, rfl, rfl, rfl, rfl, rfl, rfl, le_rfl, id, id⟩

theorem Advances.trans {s u t : State} (h : Advances s u) (h' : Advances u t) : Advances s t where
  inMem := h'.inMem.trans h.inMem
  resets := h'.resets.trans h.resets
  len := h'.len.trans h.len
  startPos := h'.startPos.trans h.startPos
  capIn := h'.capIn.trans h.capIn
  capStack := h'.capStack.trans h.capStack
  capNode := h'.capNode.trans h.capNode
  forward := h.forward.trans h'.forward
  inside hs := h.len ▸ h'.inside (h.len ▸ h.inside hs)
  busy_of := h.busy_of ∘ h'.busy_of

theorem EngineEffect.advances {s t : State} (h : EngineEffect s t) : Advances s t := by
  cases h with
  | rests hidle => exact .refl s
  | fails e a b hb _ _ => exact ⟨rfl, rfl, rfl, rfl, rfl, rfl, rfl, le_rfl, id, fun _ => hb⟩
  | goesOn ph e hb _ => exact ⟨rfl, rfl, rfl, rfl, rfl, rfl, rfl, le_rfl, id, fun _ => hb⟩
  | emitsOperator r fs hb _ => exact ⟨rfl, rfl, rfl, rfl, rfl, rfl, rfl, le_rfl, id, fun _ => hb⟩
  | reads n ph v t c a fs hb _ hlen =>
    have hpos := moveCursor_toNat hlen
    exact ⟨rfl, rfl, rfl, rfl, rfl, rfl, rfl, by simp only [hpos]; omega, fun _ => by simp only [hpos]; exact hlen,
      fun _ => hb⟩
  | emitsLiteral n r a hb hlen _ =>
    have hpos := moveCursor_toNat hlen
    exact ⟨rfl, rfl, rfl, rfl, rfl, rfl, rfl, by simp only [hpos]; omega, fun _ => by simp only [hpos]; exact hlen,
      fun _ => hb⟩

theorem EngineMoves.advances {n : Nat} {s t : State} (h : EngineMoves n s t) : Advances s t :=
  h.keeps (P := Advances s)
    (fun _ _ _ _ h => ⟨h.inMem, h.resets, h.len, h.startPos, h.capIn, h.capStack, h.capNode, h.forward, h.inside, h.busy_of⟩)
    (fun _ _ h e => h.trans (engineStep_effect e).advances) (.refl s)

/-- Settles O50: while busy only engine steps move the cursor. -/
theorem cursorNeverMovesBackward : Obligations.CursorNeverMovesBackward := by
  intro s t hb h hreset
  obtain ⟨n, hm⟩ := busy_step_moves hb hreset h
  exact hm.advances.forward

/-- No host action writes a hardwired register (R45). -/
theorem HostEffect.caps {s t : State} {a : HostAction} (h : HostEffect s a t) :
    t.capIn = s.capIn ∧ t.capStack = s.capStack ∧ t.capNode = s.capNode := by
  cases h <;> exact ⟨rfl, rfl, rfl⟩

/-- Settles O52. -/
theorem configurationIsFixedWhileBusy : Obligations.ConfigurationIsFixedWhileBusy := by
  intro s t h
  refine ⟨fun hb hreset => ?_, ?_⟩
  · obtain ⟨n, hm⟩ := busy_step_moves hb hreset h
    exact ⟨hm.advances.len, hm.advances.startPos⟩
  · rcases step_cases h with ⟨n, hm⟩ | ⟨a, rest, -, he⟩
    · exact ⟨hm.advances.capIn, hm.advances.capStack, hm.advances.capNode⟩
    · exact he.caps

theorem Advances.cursorInside {s t : State} (h : Advances s t) (hs : CursorInside s) : CursorInside t := by
  intro hb
  obtain ⟨hstart, hpos, hlen⟩ := hs (h.busy_of hb)
  rw [h.startPos, h.len, h.capIn]
  exact ⟨hstart.trans h.forward, h.inside hpos, hlen⟩

/-- A host action leaves a decode under way where it is, or begins one at START_POS ≤ LEN (R262). -/
theorem HostEffect.cursorInside {s t : State} {a : HostAction} (h : HostEffect s a t) (hs : CursorInside s) :
    CursorInside t := by
  cases h with
  | recorded => exact hs
  | configured _ _ _ _ hidle => exact fun hb => absurd hb (ne_true_of_eq_false hidle)
  | stored _ _ hidle _ => exact fun hb => absurd hb (ne_true_of_eq_false hidle)
  | started _ _ hc _ =>
    simp only [configLegal, Bool.and_eq_true, decide_eq_true_eq] at hc
    exact fun _ => ⟨le_rfl, hc.2, hc.1⟩
  | rejected => exact nofun
  | reset => exact nofun

/-- Settles O46. -/
theorem cursorStaysInsideTheStream : Obligations.CursorStaysInsideTheStream := by
  intro s t hs h
  rcases step_cases h with ⟨n, hm⟩ | ⟨a, rest, -, he⟩
  · exact hm.advances.cursorInside hs
  · exact he.cursorInside hs

/-! ### Depth and records -/

/-- A state from which DepthExceeded is out of reach: legal, and STACK_DEPTH at least ⌊8·IN_CAPACITY / 18⌋ (R39). -/
def DeepEnough (s : State) : Prop :=
  Legal s ∧ s.errKind ≠ .depthExceeded ∧ ∃ limit, depthLimit s = some limit ∧ 8 * s.capIn.toNat / 18 ≤ limit

/-- Every frame stands for 18 bits, and the field just read completes 18 more: the stack is not full (R39). -/
theorem DeepEnough.not_stackFull {s : State} (h : DeepEnough s)
    (hp : s.phase = .opL ∧ s.pos.toNat + 15 ≤ s.len.toNat ∨ s.phase = .opN ∧ s.pos.toNat + 11 ≤ s.len.toNat) :
    stackFull s = false := by
  obtain ⟨hlegal, -, limit, hlimit, hdeep⟩ := h
  have hroom : 18 * (s.stack.length + 1) ≤ 8 * s.capIn.toNat := by
    rcases hp with ⟨hp, hlen⟩ | ⟨hp, hlen⟩
    all_goals
      have hr := hlegal.running hp (by decide)
      have hbits := hr.bits
      have hcap := hr.lenCap
      simp only [ownBits] at hbits
      omega
  simp only [stackFull, hlimit, decide_eq_false_iff_not]
  omega

theorem DeepEnough.engineStep {s t : State} (h : DeepEnough s) (e : engineStep s = .next t) : DeepEnough t := by
  have he := engineStep_effect e
  have ⟨hlegal, herr, limit, hlimit, hdeep⟩ := h
  refine ⟨engineStep_legal hlegal e, ?_, limit, ?_, ?_⟩
  · cases he with
    | fails e a b hb _ hfull =>
      intro he
      obtain ⟨hfull, hp⟩ := hfull he
      rw [h.not_stackFull hp] at hfull
      cases hfull
    | _ => exact herr
  · rw [← hlimit, depthLimit, depthLimit, he.advances.capStack]
  · rw [he.advances.capIn]
    exact hdeep

theorem EngineMoves.deepEnough {n : Nat} {s t : State} (h : EngineMoves n s t) (hs : DeepEnough s) : DeepEnough t :=
  h.keeps (fun _ _ _ _ h => ⟨h.1.record, h.2⟩) (fun _ _ => DeepEnough.engineStep) hs

/-- No host action reports DepthExceeded (R283). -/
theorem HostEffect.errKind_ne_depthExceeded {s t : State} {a : HostAction} (h : HostEffect s a t)
    (hs : s.errKind ≠ .depthExceeded) : t.errKind ≠ .depthExceeded := by
  cases h with
  | recorded | configured | stored => exact hs
  | started | rejected | reset => exact nofun

/-- Settles O47: the bits accounted for, and `DeepEnough` along the step. -/
theorem depthAndRecordsAreBounded : Obligations.DepthAndRecordsAreBounded := by
  intro s hlegal hb
  have hr := hlegal.running rfl ((busy_iff s).mp hb)
  have hbits := hr.bits
  have hpos := hr.posLen
  have hcap := hr.lenCap
  obtain ⟨-, -, hnode⟩ := hr.params
  refine ⟨by omega, by omega, by omega, fun limit t hlimit hdeep h => ?_⟩
  have hs : DeepEnough s := ⟨hlegal, by simp [hr.errClear.1], limit, hlimit, hdeep⟩
  rcases step_cases h with ⟨n, hm⟩ | ⟨a, rest, -, he⟩
  · exact (hm.deepEnough hs).2.1
  · exact he.errKind_ne_depthExceeded hs.2.1

end Sys2Proof
end

section
/-! SUPPORT and CLAIMS. A decode's results depend only on the stream bits in [START_POS, LEN), LEN, START_POS and STACK_DEPTH
(R54, R115): two states that agree on these stay so through engine steps taken in lockstep. -/

namespace Sys2Proof

open Machine

/-- `u`, with what a decode's results do not depend on taken from `o`: the memories, two of the capacities, and the model's own
record. -/
def outside (u o : State) : State :=
  { u with
    inMem := o.inMem, node := o.node, capIn := o.capIn, capNode := o.capNode,
    turns := o.turns, readData := o.readData, draws := o.draws, resets := o.resets }

/-- Two states in the same place of the same decode. -/
structure Agree (u v : State) : Prop where
  same : v = outside u v
  bits : ∀ i, u.startPos.toNat ≤ i → i < u.len.toNat → streamBit u i = streamBit v i
  records : ∀ i, i < u.ncount.toNat → Memory.read u.node i = Memory.read v.node i
  start : busy u = true → u.startPos.toNat ≤ u.pos.toNat

namespace Agree

variable {u v u' v' : State}

/-- What is not taken from elsewhere is the same in both. -/
theorem shown {α : Type} (h : Agree u v) (f : State → α) : f v = f (outside u v) := congrArg f h.same

theorem phase (h : Agree u v) : v.phase = u.phase := h.shown State.phase
theorem pos (h : Agree u v) : v.pos = u.pos := h.shown State.pos
theorem hv (h : Agree u v) : v.hv = u.hv := h.shown State.hv
theorem cont (h : Agree u v) : v.cont = u.cont := h.shown State.cont
theorem acc (h : Agree u v) : v.acc = u.acc := h.shown State.acc
theorem stack (h : Agree u v) : v.stack = u.stack := h.shown State.stack
theorem len (h : Agree u v) : v.len = u.len := h.shown State.len
theorem ncount (h : Agree u v) : v.ncount = u.ncount := h.shown State.ncount
theorem startPos (h : Agree u v) : v.startPos = u.startPos := h.shown State.startPos
theorem capStack (h : Agree u v) : v.capStack = u.capStack := h.shown State.capStack

theorem busy_eq (h : Agree u v) : busy u = busy v := by simp only [busy, h.phase]

/-- Agreement goes both ways. -/
theorem symm (h : Agree u v) : Agree v u where
  same := by rw [h.same]; rfl
  bits i hs hl := (h.bits i (h.startPos ▸ hs) (h.len ▸ hl)).symm
  records i hi := (h.records i (h.ncount ▸ hi)).symm
  start hb := by
    rw [h.startPos, h.pos]
    exact h.start (h.busy_eq ▸ hb)

/-- The results of a decode (R54) are part of what agrees. -/
theorem sameDecode (h : Agree u v) : SameDecode u v :=
  ⟨h.phase.symm, (h.shown State.endPos).symm, h.ncount.symm, (h.shown State.errKind).symm,
    (h.shown State.errPos).symm, (h.shown State.errA).symm, (h.shown State.errB).symm, h.records⟩

/-- The turns and the model's record of the host are no part of it. -/
theorem record (h : Agree u v) (ts : List Turn) (w : Word) (d : Nat) :
    Agree { u with turns := ts, readData := w, draws := d } v :=
  ⟨h.same, h.bits, h.records, h.start⟩

/-- A field inside the stream is the same in both. -/
theorem fieldAt_eq (h : Agree u v) (hb : busy u = true) {n : Nat} (hlen : u.pos.toNat + n ≤ u.len.toNat) :
    fieldAt u u.pos.toNat n = fieldAt v v.pos.toNat n := by
  rw [fieldAt, fieldAt, h.pos]
  exact congrArg _ (bigEndian_congr fun i hi hn => h.bits i ((h.start hb).trans hi) (by omega))

theorem errorEntry (h : Agree u v) (e : ErrorKind) (p a b : Word) :
    Agree (Machine.errorEntry e p a b u) (Machine.errorEntry e p a b v) where
  same := by rw [h.same]; rfl
  bits := h.bits
  records i hi := by simp at hi
  start := nofun

theorem moveCursor (h : Agree u v) {n : Nat} (hlen : u.pos.toNat + n ≤ u.len.toNat) :
    Agree (Machine.moveCursor n u) (Machine.moveCursor n v) where
  same := by rw [h.same]; rfl
  bits := h.bits
  records := h.records
  start hb := by
    rw [moveCursor_toNat hlen]
    exact (h.start hb).trans (Nat.le_add_right _ _)

theorem emit {r : NodeRecord} (h : Agree u v) (hu : emit r u = .next u') (hv : emit r v = .next v') : Agree u' v' := by
  obtain ⟨hroom, -, rfl⟩ := emit_next hu
  obtain ⟨-, -, rfl⟩ := emit_next hv
  refine ⟨?_, h.bits, fun i hi => ?_, h.start⟩
  · rw [h.same]; rfl
  · have hn : (u.ncount + 1).toNat = u.ncount.toNat + 1 :=
      BitVec.toNat_add_of_lt (by have := u.capNode.isLt; simp; omega)
    simp only [hn] at hi
    simp only [Memory.read_write, h.ncount]
    split
    · rfl
    · exact h.records i (by omega)

/-- One READ in both: InsufficientBits in both, or the same field for the step's own writes. -/
theorem readField {n : Nat} {k k' : BitVec n → State → Result} (h : Agree u v) (hb : busy u = true)
    (hu : readField n u k = .next u') (hv : readField n v k' = .next v')
    (hk : ∀ c, Agree (Machine.moveCursor n u) (Machine.moveCursor n v) →
      k c (Machine.moveCursor n u) = .next u' → k' c (Machine.moveCursor n v) = .next v' → Agree u' v') :
    Agree u' v' := by
  rcases takeField_next hu with ⟨hlen, rfl⟩ | ⟨hlen, -, hu⟩
  · rcases takeField_next hv with ⟨-, rfl⟩ | ⟨hlen', -, -⟩
    · simp only [insufficientBits, bitsRemaining, h.len, h.pos]
      exact h.errorEntry _ _ _ _
    · rw [h.pos, h.len] at hlen'
      omega
  · rcases takeField_next hv with ⟨hlen', -⟩ | ⟨-, -, hv⟩
    · rw [h.pos, h.len] at hlen'
      omega
    · rw [← h.fieldAt_eq hb hlen] at hv
      exact hk _ (h.moveCursor hlen) hu hv

theorem nibbleRead {bu bv : State} {g : BitVec 4} (hbefore : Agree bu bv) (h : Agree u v) (hb : busy u = true)
    (hu : nibbleRead bu g u = .next u') (hv : nibbleRead bv g v = .next v') : Agree u' v' := by
  unfold Machine.nibbleRead at hu hv
  simp only [h.acc, h.cont, h.hv] at hv
  split_ifs at hu hv
  · cases hu
    cases hv
    rw [literalOverflow, literalOverflow, hbefore.pos]
    exact hbefore.errorEntry _ _ _ _
  · cases hu
    cases hv
    exact ⟨by rw [h.same]; rfl, h.bits, h.records, fun _ => h.start hb⟩
  · refine emit ?_ hu hv
    exact ⟨by rw [h.same]; rfl, h.bits, h.records, fun _ => h.start hb⟩

theorem framePushed {bu bv : State} (hbefore : Agree bu bv) (h : Agree u v) (hb : busy u = true) (m : Framing)
    (n : BitVec 15) : Agree (framePushed bu m n u) (framePushed bv m n v) := by
  have hfull : stackFull v = stackFull u := by simp only [stackFull, depthLimit, h.capStack, h.stack]
  unfold Sys2Proof.framePushed
  rw [hfull]
  split
  · rw [depthExceeded, depthExceeded, hbefore.pos, hbefore.capStack]
    exact hbefore.errorEntry _ _ _ _
  · exact ⟨by rw [h.same]; rfl, h.bits, h.records, fun _ => h.start hb⟩

theorem stepNext (h : Agree u v) (hb : busy u = true) (hu : stepNext u = .next u') (hv : stepNext v = .next v') :
    Agree u' v' := by
  unfold Machine.stepNext at hu hv
  rw [h.stack, h.pos] at hv
  cases hs : u.stack with
  | nil =>
    simp only [hs] at hu hv
    cases hu
    cases hv
    exact ⟨by rw [h.same]; rfl, h.bits, h.records, nofun⟩
  | cons f rest =>
    simp only [hs] at hu hv
    cases hf : frameStatus f u.pos with
    | more =>
      simp only [hf] at hu hv
      cases hu
      cases hv
      exact ⟨by rw [h.same]; rfl, h.bits, h.records, fun _ => h.start hb⟩
    | complete =>
      simp only [hf] at hu hv
      refine emit ?_ hu hv
      exact ⟨by rw [h.same]; rfl, h.bits, h.records, fun _ => h.start hb⟩
    | overshoot c =>
      simp only [hf] at hu hv
      cases hu
      cases hv
      rw [malformedLength, malformedLength, h.pos]
      exact h.errorEntry _ _ _ _
    | impossible =>
      simp only [hf] at hu
      cases hu

/-- One engine step in both. -/
theorem engineStep (h : Agree u v) (hu : engineStep u = .next u') (hv : engineStep v = .next v') : Agree u' v' := by
  cases hb : busy u
  · cases (engineStep_of_not_busy hb).symm.trans hu
    cases (engineStep_of_not_busy (h.busy_eq ▸ hb)).symm.trans hv
    exact h
  unfold Machine.engineStep at hu hv
  rw [h.phase] at hv
  cases hp : u.phase <;> simp only [hp] at hu hv
  case hdrV =>
    refine h.readField hb hu hv fun c hm hu hv => ?_
    cases hu
    cases hv
    exact ⟨by rw [h.same]; rfl, hm.bits, hm.records, fun _ => hm.start hb⟩
  case hdrT =>
    refine h.readField hb hu hv fun c hm hu hv => ?_
    unfold tagRead at hu hv
    split_ifs at hu hv <;> cases hu <;> cases hv
    · exact ⟨by rw [h.same]; rfl, hm.bits, hm.records, fun _ => hm.start hb⟩
    · exact ⟨by rw [h.same]; rfl, hm.bits, hm.records, fun _ => hm.start hb⟩
  case litC =>
    refine h.readField hb hu hv fun c hm hu hv => ?_
    cases hu
    cases hv
    exact ⟨by rw [h.same]; rfl, hm.bits, hm.records, fun _ => hm.start hb⟩
  case litG => exact h.readField hb hu hv fun _ hm => h.nibbleRead hm hb
  case opM =>
    refine h.readField hb hu hv fun c hm hu hv => ?_
    cases hu
    cases hv
    exact ⟨by rw [h.same]; rfl, hm.bits, hm.records, fun _ => hm.start hb⟩
  case opL =>
    refine h.readField hb hu hv fun c hm hu hv => ?_
    cases (totalBitsRead_eq _ _ _).symm.trans hu
    cases (totalBitsRead_eq _ _ _).symm.trans hv
    exact h.framePushed hm hb _ _
  case opN =>
    refine h.readField hb hu hv fun c hm hu hv => ?_
    cases (childCountRead_eq _ _ _).symm.trans hu
    cases (childCountRead_eq _ _ _).symm.trans hv
    exact h.framePushed hm hb _ _
  case next => exact h.stepNext hb hu hv
  all_goals exact absurd hb (by simp [busy, hp])

end Agree

/-- A launch with the same parameters and stream bits begins in the same place (R261, R264). -/
theorem agree_launch {a b : State} (hlen : a.len = b.len) (hstart : a.startPos = b.startPos)
    (hcap : a.capStack = b.capStack)
    (hbits : ∀ i, a.startPos.toNat ≤ i → i < a.len.toNat → streamBit a i = streamBit b i) :
    Agree (launch a) (launch b) where
  same := by simp only [outside, launch, hlen, hstart, hcap]
  bits := hbits
  records i hi := by simp at hi
  start _ := le_rfl

/-! ### Runs in lockstep -/

/-- A run of at least one engine step has a first one. -/
theorem EngineMoves.first {n : Nat} {s t : State} (h : EngineMoves (n + 1) s t) :
    ∃ v w, EngineMoves 0 s v ∧ engineStep v = .next w ∧ EngineMoves n w t := by
  generalize hm : n + 1 = m at h
  induction h with
  | rest s => cases hm
  | record ts x d _ ih =>
    obtain ⟨v, w, hv, hvw, hw⟩ := ih hm
    exact ⟨v, w, .record ts x d hv, hvw, hw⟩
  | engine e h =>
    cases hm
    exact ⟨_, _, .rest _, e, h⟩

theorem Agree.moves_zero {u v v' : State} (h : Agree u v) (hv : EngineMoves 0 v v') : Agree u v' := by
  generalize hm : 0 = m at hv
  induction hv with
  | rest s => exact h
  | record ts w d _ ih => exact ih (h.symm.record ts w d).symm hm
  | engine => cases hm

/-- As many engine steps in both, whatever the host's turns between them. -/
theorem Agree.moves {n : Nat} {u v u' v' : State} (h : Agree u v) (hu : EngineMoves n u u') (hv : EngineMoves n v v') :
    Agree u' v' := by
  induction hu generalizing v with
  | rest s => exact h.moves_zero hv
  | record ts w d _ ih => exact ih (h.record ts w d) hv
  | engine e _ ih =>
    obtain ⟨w, x, hw, hwx, hx⟩ := hv.first
    exact ih ((h.moves_zero hw).engineStep e hwx) hx

/-- Where a decode has ended the engine can be taken to rest for any number of steps. -/
theorem EngineMoves.pad {n : Nat} {s t : State} (h : EngineMoves n s t) (ht : Ended t) (m : Nat) :
    EngineMoves (m + n) s t := by
  refine h.trans ?_
  induction m with
  | zero => exact .rest t
  | succ m ih => exact .engine (engineStep_of_not_busy ((not_busy_iff t).mpr (.inr ht))) ih

theorem Agree.ended {m n : Nat} {u v u' v' : State} (h : Agree u v) (hu : EngineMoves m u u') (hv : EngineMoves n v v')
    (hu' : Ended u') (hv' : Ended v') : Agree u' v' :=
  h.moves (hu.pad hu' n) (Nat.add_comm m n ▸ hv.pad hv' m)

/-- A run of k + 1 steps is a first step and a run of k. -/
theorem run_succ {k : Nat} {s t : State} (h : Host.Core.run core (k + 1) s = .next t) :
    ∃ u, step s = .next u ∧ Host.Core.run core k u = .next t := by
  simp only [Host.Core.run] at h
  split at h
  · exact ⟨_, ‹_›, h⟩
  · cases h
  · cases h

theorem run_cons {s u : State} (h : step s = .next u) (k : Nat) :
    Host.Core.run core (k + 1) s = Host.Core.run core k u := by
  simp only [Host.Core.run, show core.step s = .next u from h]

/-- With no turn listed a run is engine steps. -/
theorem run_moves_of_no_turns {k : Nat} {s t : State} (hs : s.turns = []) (h : Host.Core.run core k s = .next t) :
    EngineMoves k s t := by
  induction k generalizing s with
  | zero => cases h; exact .rest _
  | succ k ih =>
    obtain ⟨u, hu, h⟩ := run_succ h
    have hu' : engineStep s = .next u := by simpa only [step, hs] using hu
    exact .engine hu' (ih ((engineStep_turns hu').trans hs) h)

/-- The engine leaves the busy set only for DONE or ERROR. -/
theorem EngineMoves.phase_ne_idle {n : Nat} {s t : State} (h : EngineMoves n s t) (hs : s.phase ≠ .idle) :
    t.phase ≠ .idle := by
  refine h.keeps (P := fun s => s.phase ≠ .idle) (fun _ _ _ _ h => h) (fun s t hs e => ?_) hs
  cases engineStep_effect e with
  | rests => exact hs
  | reads _ _ _ _ _ _ _ _ hph | goesOn _ _ _ hph => exact hph
  | fails | emitsLiteral | emitsOperator => exact nofun

theorem RunningBefore.cons {k : Nat} {s u : State} (hs : ¬ Ended s) (hu : step s = .next u)
    (h : RunningBefore k u) : RunningBefore (k + 1) s := by
  rintro (_ | j) v hj hv
  · cases hv
    exact hs
  · exact h j v (by omega) (run_cons hu j ▸ hv)

theorem RunningBefore.tail {k : Nat} {s u : State} (h : RunningBefore (k + 1) s) (hu : step s = .next u) :
    RunningBefore k u :=
  fun j v hj hv => h (j + 1) v (by omega) ((run_cons hu j).trans hv)

/-- Until its end an undisturbed run is engine steps, whatever turns it has (R321, R322). -/
theorem run_moves {k : Nat} {s t : State} (hs : s.phase ≠ .idle) (hrun : Undisturbed s) (hbefore : RunningBefore k s)
    (h : Host.Core.run core k s = .next t) : ∃ n, EngineMoves n s t := by
  induction k generalizing s with
  | zero => cases h; exact ⟨0, .rest _⟩
  | succ k ih =>
    have hgoing : ¬ Ended s := hbefore 0 s (by omega) rfl
    have hb : busy s = true := (busy_iff s).mpr ⟨hs, not_or.mp hgoing⟩
    have hreset : ¬ HostTurn (· = .reset) s := by
      rintro ⟨a, rest, hturns, ha⟩
      exact hrun 0 s rfl (fun j v hj => hbefore j v (by omega)) ⟨a, rest, hturns, .inl ha⟩
    obtain ⟨u, hu, h⟩ := run_succ h
    obtain ⟨m, hm⟩ := busy_step_moves hb hreset hu
    have hrun' : Undisturbed u := fun j v hv hj => hrun (j + 1) v ((run_cons hu j).trans hv) (hj.cons hgoing hu)
    obtain ⟨n, hn⟩ := ih (hm.phase_ne_idle hs) hrun' (hbefore.tail hu) h
    exact ⟨n + m, hm.trans hn⟩

/-- The end of a clean launch's run, in engine steps. -/
theorem EndOfRun.moves {k : Nat} {before s t : State} (h : EndOfRun k s t) (hl : CleanLaunch before s) :
    ∃ n, EngineMoves n (launch before) t := by
  obtain ⟨haccepted, -, hrun⟩ := hl
  obtain ⟨h, -, hbefore⟩ := h
  cases Accepted_launch haccepted
  exact run_moves nofun hrun hbefore h

/-- Settles O36: both runs are engine steps from launches that agree. -/
theorem resultsDependOnlyOnTheStreamAndParameters : Obligations.ResultsDependOnlyOnTheStreamAndParameters := by
  intro a b a' b' u v hlen hstart hcap hbits
  have hagree := agree_launch hlen hstart hcap hbits
  refine ⟨fun k ha hb hta htb hu hv => ?_, fun k l ha hb hu hv => ?_⟩
  · cases Accepted_launch ha
    cases Accepted_launch hb
    exact (hagree.moves (run_moves_of_no_turns hta hu) (run_moves_of_no_turns htb hv)).sameDecode
  · obtain ⟨m, hm⟩ := hu.moves ha
    obtain ⟨n, hn⟩ := hv.moves hb
    exact (hagree.ended hm hn hu.2.1 hv.2.1).sameDecode

end Sys2Proof
end

section
/-! SUPPORT and CLAIMS. The frames of the packet heads and the literal groups (R163, R164, R177, R178, R197, R198, R228): each
instruction makes its few writes, or error entry after those of the fields before the failing one. -/

namespace Sys2Proof

open Machine

/-! ### Packet heads -/

/-- `s` with what a head's fields before its last write: PHASE, the cursor, HV and HT (R163, R164, R196). -/
def withHeader (ph : Phase) (q : Word) (v : Version) (g : Tag) (s : State) : State :=
  { s with phase := ph, pos := q, hv := v, ht := g }

/-- What a head, or its first fields, can do: those writes, then error entry or the writes of `finish`. -/
inductive HeadEffect (finish : State → State) (s : State) : State → Prop where
  | fails (ph : Phase) (q : Word) (v : Version) (g : Tag) (e : ErrorKind) (p a b : Word) :
      HeadEffect finish s (errorEntry e p a b (withHeader ph q v g s))
  | completes (ph : Phase) (q : Word) (v : Version) (g : Tag) : (finish (withHeader ph q v g s)).phase ≠ .error →
      HeadEffect finish s (finish (withHeader ph q v g s))

/-- LIT's last writes: ACC is cleared (R164). -/
def clearAcc (s : State) : State := { s with acc := 0, phase := .litC }

/-- An operator head's last writes: its frame (R197, R198). -/
def openFrame (m : Framing) (n : BitVec 15) (s : State) : State := { pushFrame m n s with phase := .next }

section

variable {finish : State → State} {s t : State} {ph : Phase} {q : Word} {v : Version} {g : Tag}

/-- A head's field: InsufficientBits, or its step's own writes, the cursor past it. -/
theorem headEffect_field {n : Nat} {k : State → Result} (h : takeField n (withHeader ph q v g s) k = .next t)
    (hk : k (withHeader ph (q + BitVec.ofNat 32 n) v g s) = .next t → HeadEffect finish s t) :
    HeadEffect finish s t := by
  rcases takeField_next h with ⟨-, rfl⟩ | ⟨-, -, h⟩
  · exact .fails ph q v g _ _ _ _
  · exact hk h

/-- One field of a head after others. -/
theorem headEffect_thenStep {o : Result} {k : State → Result} (h : thenStep o k = .next t)
    (ho : ∀ u, o = .next u → HeadEffect id s u)
    (hk : ∀ ph q v g, k (withHeader ph q v g s) = .next t → HeadEffect finish s t) : HeadEffect finish s t := by
  obtain ⟨u, hu, hend⟩ := thenStep_next h
  cases ho u hu with
  | fails ph q v g e p a b =>
    rcases hend with ⟨-, rfl⟩ | ⟨hgoing, -⟩
    · exact .fails ph q v g e p a b
    · exact absurd rfl hgoing
  | completes ph q v g hne =>
    rcases hend with ⟨herr, -⟩ | ⟨-, h⟩
    · exact absurd herr hne
    · exact hk ph q v g h

theorem versionRead_effect (h : takeField 3 s (versionRead v) = .next t) : HeadEffect id s t := by
  refine headEffect_field (ph := s.phase) (q := s.pos) (v := s.hv) (g := s.ht) h fun h => ?_
  cases h
  exact .completes .hdrT _ v s.ht nofun

/-- LIT: two fields, and ACC cleared. -/
theorem literalHeader_effect (h : headerSteps v Config.literalTag s = .next t) : HeadEffect clearAcc s t := by
  refine headEffect_thenStep h (fun _ => versionRead_effect) fun ph q v g h => headEffect_field h fun h => ?_
  rcases tagRead_next h with ⟨-, rfl⟩ | ⟨hg, -⟩
  · exact .completes .litC _ v Config.literalTag nofun
  · exact absurd rfl hg

theorem operatorHeader_effect (hg : g ≠ Config.literalTag) (h : headerSteps v g s = .next t) : HeadEffect id s t := by
  refine headEffect_thenStep h (fun _ => versionRead_effect) fun ph q v _ h => headEffect_field h fun h => ?_
  rcases tagRead_next h with ⟨hg', -⟩ | ⟨-, rfl⟩
  · exact absurd hg' hg
  · exact .completes .opM _ v g nofun

theorem modeSteps_effect {m : BitVec 1} (hg : g ≠ Config.literalTag)
    (h : (thenStep (headerSteps v g s) fun u => takeField 1 u (modeRead m)) = .next t) : HeadEffect id s t := by
  refine headEffect_thenStep h (fun _ => operatorHeader_effect hg) fun ph q v g h => headEffect_field h fun h => ?_
  cases h
  exact .completes (if m = 0 then .opL else .opN) _ v g (by simp only [id, withHeader]; split <;> nofun)

theorem framePushed_headEffect {m : Framing} {n : BitVec 15} {r : Word} :
    HeadEffect (openFrame m n) s (framePushed (withHeader ph q v g s) m n (withHeader ph r v g s)) := by
  unfold framePushed
  split
  · exact .fails ph q v g _ _ _ _
  · exact .completes ph r v g nofun

theorem lenHead_effect {n : BitVec 15} (hg : g ≠ Config.literalTag) (h : lenHead g v n s = .next t) :
    HeadEffect (openFrame .totalLength n) s t := by
  refine headEffect_thenStep h (fun _ => modeSteps_effect hg) fun ph q v g h => headEffect_field h fun h => ?_
  cases (totalBitsRead_eq _ _ _).symm.trans h
  exact framePushed_headEffect

theorem cntHead_effect {n : BitVec 11} (hg : g ≠ Config.literalTag) (h : cntHead g v n s = .next t) :
    HeadEffect (openFrame .count (n.setWidth 15)) s t := by
  refine headEffect_thenStep h (fun _ => modeSteps_effect hg) fun ph q v g h => headEffect_field h fun h => ?_
  cases (childCountRead_eq _ _ _).symm.trans h
  exact framePushed_headEffect

end

/-- The fifteen heads: LIT, and the seven operators of each framing (R112). -/
theorem isHead_cases {i : Instr} (h : i.isHead = true) :
    (∃ v c, i = .lit v c) ∨ (∃ x ∈ lenHeads, ∃ v n, i = x.1 v n) ∨ (∃ x ∈ cntHeads, ∃ v n, i = x.1 v n) := by
  simp only [lenHeads, cntHeads, List.exists_mem_cons_iff]
  cases i <;> simp [Instr.isHead, encode] at h ⊢

theorem lenHeads_ne_lit : ∀ x ∈ lenHeads, ∀ v n v' c, x.1 v n ≠ .lit v' c := by simp [lenHeads]

theorem cntHeads_ne_lit : ∀ x ∈ cntHeads, ∀ v n v' c, x.1 v n ≠ .lit v' c := by simp [cntHeads]

/-- Everything a packet head can do when it answers a next state. -/
theorem exec_head_effect {i : Instr} {s t : State} (hi : i.isHead = true) (h : exec i s = .next t) :
    (∃ v c, i = .lit v c ∧ HeadEffect clearAcc s t) ∨
    ((∀ v c, i ≠ .lit v c) ∧ ∃ m n, HeadEffect (openFrame m n) s t) := by
  rcases isHead_cases hi with ⟨v, c, rfl⟩ | ⟨x, hx, v, n, rfl⟩ | ⟨x, hx, v, n, rfl⟩
  · exact .inl ⟨v, c, rfl, literalHeader_effect h⟩
  · rw [exec_lenHeads hx] at h
    exact .inr ⟨lenHeads_ne_lit x hx v n, _, _, lenHead_effect (lenHeads_tag x hx) h⟩
  · rw [exec_cntHeads hx] at h
    exact .inr ⟨cntHeads_ne_lit x hx v n, _, _, cntHead_effect (cntHeads_tag x hx) h⟩

/-- Settles O29: of each of `exec_head_effect`'s ends, what it does not write. -/
theorem packetHeadsFrame : Obligations.PacketHeadsFrame := by
  intro i s t hi h
  rcases exec_head_effect hi h with ⟨v, c, rfl, he⟩ | ⟨hop, m, n, he⟩ <;> cases he
  all_goals
    refine ⟨fun _ => rfl, fun _ => rfl, fun _ => rfl, rfl, rfl, rfl, rfl, rfl, rfl, rfl, rfl, rfl, rfl, ?_, ?_⟩
  · exact fun hne => absurd rfl (hne v c)
  · exact fun hgoing => absurd rfl hgoing
  · exact fun hne => absurd rfl (hne v c)
  · exact fun _ => ⟨rfl, rfl, rfl, rfl, rfl, rfl, fun _ _ _ => rfl, fun hne => absurd rfl (hne v c)⟩
  · exact fun _ => rfl
  · exact fun hgoing => absurd rfl hgoing
  · exact fun _ => rfl
  · exact fun _ => ⟨rfl, rfl, rfl, rfl, rfl, rfl, fun v c e => absurd e (hop v c), fun _ => ⟨_, rfl⟩⟩

/-! ### Literal groups -/

/-- What a group can do: error entry after at most CONT is written; or, complete, its nibble joins ACC, and the last group
emits one record (R177, R178). -/
inductive GroupEffect (c : BitVec 1) (s : State) : State → Prop where
  | fails (ph : Phase) (q : Word) (c' : BitVec 1) (e : ErrorKind) (p a b : Word) :
      GroupEffect c s (errorEntry e p a b { s with phase := ph, pos := q, cont := c' })
  | continues (q : Word) (a : LitWord) : c = 1 →
      GroupEffect c s { s with phase := .litC, pos := q, cont := c, acc := a }
  | emits (q : Word) (a : LitWord) (r : NodeRecord) : c ≠ 1 →
      GroupEffect c s { s with
        phase := .next, pos := q, cont := c, acc := a,
        node := Memory.write s.node s.ncount.toNat r, ncount := s.ncount + 1, stack := countChild s.stack }

theorem groupSteps_effect {c : BitVec 1} {g : BitVec 4} {s t : State} (h : groupSteps c g s = .next t) :
    GroupEffect c s t := by
  obtain ⟨u, hu, hend⟩ := thenStep_next h
  rcases takeField_next hu with ⟨-, rfl⟩ | ⟨-, -, hu⟩
  · rcases hend with ⟨-, rfl⟩ | ⟨hgoing, -⟩
    · exact .fails s.phase s.pos s.cont _ _ _ _
    · exact absurd rfl hgoing
  cases hu
  obtain ⟨herr, -⟩ | ⟨-, h⟩ := hend
  · cases herr
  rcases takeField_next h with ⟨-, rfl⟩ | ⟨-, -, h⟩
  · exact .fails .litG _ c _ _ _ _
  rcases nibbleRead_next h with ⟨-, rfl⟩ | ⟨-, hc, rfl⟩ | ⟨-, hc, h⟩
  · exact .fails .litG _ c _ _ _ _
  · exact .continues _ _ hc
  · obtain ⟨-, -, rfl⟩ := emit_next h
    exact .emits _ _ _ hc

theorem countChild_tail (fs : List Frame) : (countChild fs).tail = fs.tail := by
  cases fs <;> rfl

/-- Settles O30: of each of `groupSteps_effect`'s ends, what it does not write. -/
theorem literalGroupsFrame : Obligations.LiteralGroupsFrame := by
  intro i g s t hi h
  rcases hi with rfl | rfl
  · cases groupSteps_effect (c := 1) h with
    | fails =>
      exact ⟨fun _ => rfl, fun _ => rfl, fun _ _ => rfl, fun _ _ => rfl, rfl, rfl, rfl, rfl, rfl, rfl, rfl, rfl, rfl, rfl,
        rfl, fun hgoing => absurd rfl hgoing⟩
    | continues =>
      exact ⟨fun _ => rfl, fun _ => rfl, fun _ _ => rfl, fun _ _ => rfl, rfl, rfl, rfl, rfl, rfl, rfl, rfl, rfl, rfl, rfl,
        rfl, fun _ => ⟨rfl, rfl, rfl, rfl, rfl, fun _ => ⟨rfl, rfl⟩, nofun⟩⟩
    | emits _ _ _ hc => exact absurd rfl hc
  · cases groupSteps_effect (c := 0) h with
    | fails =>
      exact ⟨fun _ => rfl, fun _ => rfl, fun _ _ => rfl, nofun, rfl, rfl, rfl, rfl, rfl, rfl, rfl, rfl, rfl, rfl, rfl,
        fun hgoing => absurd rfl hgoing⟩
    | continues _ _ hc => cases hc
    | emits q a r =>
      exact ⟨fun _ => rfl, fun _ => rfl, fun _ ha => Memory.read_write_other _ r ha, nofun, rfl, rfl, rfl, rfl, rfl, rfl,
        rfl, rfl, rfl, rfl, rfl,
        fun _ => ⟨rfl, rfl, rfl, rfl, rfl, nofun, fun _ => ⟨rfl, countChild_tail s.stack⟩⟩⟩

end Sys2Proof
end

section
/-! SUPPORT and CLAIMS. In a legal state the engine is never without a next state: READ stays in input memory, Emit has room and
no count frame is past its target (R83, R199, R205, R228, R262). -/

namespace Sys2Proof

open Machine

section

variable {s : State}

/-- READ's cursor part in a stream that lies in input memory: InsufficientBits, or what its step's own writes answer (R262). -/
theorem takeField_answers {n : Nat} {k : State → Result} (h1 : 1 ≤ n) (h16 : n ≤ 16)
    (hcap : s.len.toNat ≤ 8 * s.capIn.toNat)
    (hk : s.pos.toNat + n ≤ s.len.toNat → ∃ t, k (moveCursor n s) = .next t) : ∃ t, takeField n s k = .next t := by
  rcases Nat.lt_or_ge s.len.toNat (s.pos.toNat + n) with hlen | hlen
  · exact ⟨_, takeField_short h1 h16 hlen⟩
  · rw [takeField_fits h1 h16 hlen hcap]
    exact hk hlen

/-- A packet of at least 11 bits has been read beyond those of the NCOUNT records: NODE_CAPACITY has room for its record (R83),
and so has the counter of the frame it is a child of (R205). -/
theorem Running.emit_answers (h : Running true 11 s) (r : NodeRecord) : ∃ t, Machine.emit r s = .next t := by
  refine ⟨_, emit_room ?_ ?_⟩
  · have hbits := h.bits
    have hpos := h.posLen
    have hcap := h.lenCap
    obtain ⟨-, -, hnode⟩ := h.params
    omega
  · have hframes := h.frames
    cases hs : s.stack with
    | nil => rfl
    | cons f rest =>
      rw [hs] at hframes
      obtain ⟨-, hcount, -⟩ := hframes
      have hn := hcount.le
      simp only [childRoom, decide_eq_true_eq]
      omega

theorem nibbleRead_answers (h : Running true 11 s) (before : State) (g : BitVec 4) :
    ∃ t, nibbleRead before g s = .next t := by
  unfold nibbleRead
  split
  · exact ⟨_, rfl⟩
  · dsimp only
    split
    · exact ⟨_, rfl⟩
    · exact Running.emit_answers h.latch _

/-- NEXT: a count frame at a child boundary has at most its target of children (R41, R199). -/
theorem stepNext_answers (h : Running false 0 s) : ∃ t, stepNext s = .next t := by
  unfold stepNext
  cases hs : s.stack with
  | nil => exact ⟨_, rfl⟩
  | cons f rest =>
    rcases frameStatus_cases f s.pos with ⟨hf, -⟩ | ⟨hf, -⟩ | ⟨hf, -⟩ | ⟨-, hm, hover⟩
    · simp only [hf]
      exact ⟨_, rfl⟩
    · simp only [hf]
      exact Running.emit_answers ((h.popFrame hs).weaken (by decide)).latch _
    · simp only [hf]
      exact ⟨_, rfl⟩
    · have hframes := h.frames
      rw [hs] at hframes
      obtain ⟨-, hcount, -⟩ := hframes
      simp only [ChildCountFits, hm, Bool.false_eq_true, if_false] at hcount
      omega

theorem engineStep_answers (h : Legal s) : ∃ t, engineStep s = .next t := by
  cases hb : busy s
  · exact ⟨s, engineStep_of_not_busy hb⟩
  have hcap := (h.running rfl ((busy_iff s).mp hb)).lenCap
  unfold engineStep
  cases hp : s.phase <;> dsimp only
  case hdrV => exact takeField_answers (by decide) (by decide) hcap fun _ => ⟨_, rfl⟩
  case hdrT =>
    refine takeField_answers (by decide) (by decide) hcap fun _ => ?_
    unfold tagRead
    split <;> exact ⟨_, rfl⟩
  case litC => exact takeField_answers (by decide) (by decide) hcap fun _ => ⟨_, rfl⟩
  case litG =>
    exact takeField_answers (by decide) (by decide) hcap fun hlen =>
      nibbleRead_answers ((h.running hp (by decide)).moveCursor hlen) s _
  case opM => exact takeField_answers (by decide) (by decide) hcap fun _ => ⟨_, rfl⟩
  case opL => exact takeField_answers (by decide) (by decide) hcap fun _ => ⟨_, totalBitsRead_eq _ _ _⟩
  case opN => exact takeField_answers (by decide) (by decide) hcap fun _ => ⟨_, childCountRead_eq _ _ _⟩
  case next => exact stepNext_answers (h.running hp (by decide))
  all_goals exact ⟨_, rfl⟩

/-- One engine step after another: each finds the state the one before left legal. -/
theorem engineSteps_answers (h : Legal s) (n : Nat) : ∃ t, engineSteps n s = .next t := by
  induction n generalizing s with
  | zero => exact ⟨s, rfl⟩
  | succ n ih =>
    obtain ⟨u, hu⟩ := engineStep_answers h
    rw [engineSteps, hu]
    by_cases herr : u.phase = .error
    · exact ⟨u, by simp [thenStep, herr]⟩
    · rw [thenStep_going herr]
      exact ih (engineStep_legal h hu)

end

/-- Settles O45: a whole instruction is engine steps, and none of these stops. -/
theorem legalStatesNeverStopTheEngine : Obligations.LegalStatesNeverStopTheEngine := by
  intro s h
  refine ⟨engineStep_answers h, ?_⟩
  obtain ⟨n, e⟩ := instrStep_eq_engineSteps s
  rw [e]
  exact engineSteps_answers h n

end Sys2Proof
end

section
/-! SUPPORT and CLAIMS. What a step does to the two memories: input memory is written by the host and reset only, node memory by
the engine, one record at NCOUNT, and by reset (R70, R88, R228, R267, R268). -/

namespace Sys2Proof

open Machine

/-! ### The canonical form -/

/-- Storing a byte below IN_CAPACITY (R267). -/
theorem MemoryCanonical.storeByte {s : State} (h : MemoryCanonical s) {k : Nat} (b : Byte) (hk : k < s.capIn.toNat) :
    MemoryCanonical { s with inMem := Memory.write s.inMem k b } := by
  obtain ⟨hinWf, hinBelow, hnode⟩ := h
  exact ⟨Memory.write_wf _ _ _ hinWf, Memory.write_below _ _ _ _ hinBelow hk, hnode⟩

/-- Storing a record below NODE_CAPACITY (R228). -/
theorem MemoryCanonical.storeRecord {s : State} (h : MemoryCanonical s) {i : Nat} (r : NodeRecord)
    (hi : i < s.capNode.toNat) : MemoryCanonical { s with node := Memory.write s.node i r } := by
  obtain ⟨hinWf, hinBelow, hnodeWf, hnodeBelow⟩ := h
  exact ⟨hinWf, hinBelow, Memory.write_wf _ _ _ hnodeWf, Memory.write_below _ _ _ _ hnodeBelow hi⟩

theorem EngineEffect.memoryCanonical {s t : State} (h : EngineEffect s t) (hs : MemoryCanonical s) :
    MemoryCanonical t := by
  cases h with
  | rests | fails | reads | goesOn => exact hs
  | emitsLiteral n r a _ _ hroom => exact hs.storeRecord r hroom
  | emitsOperator r fs _ hroom => exact hs.storeRecord r hroom

theorem EngineMoves.memoryCanonical {n : Nat} {s t : State} (h : EngineMoves n s t) (hs : MemoryCanonical s) :
    MemoryCanonical t :=
  h.keeps (fun _ _ _ _ h => h) (fun _ _ h e => (engineStep_effect e).memoryCanonical h) hs

theorem HostEffect.memoryCanonical {s t : State} {a : HostAction} (h : HostEffect s a t) (hs : MemoryCanonical s) :
    MemoryCanonical t := by
  cases h with
  | recorded | configured | started | rejected => exact hs
  | stored k b _ hk => exact hs.storeByte b hk
  | reset => exact ⟨rfl, rfl, rfl, rfl⟩

/-- Settles O48: every store is below its memory's capacity, and reset empties both memories. -/
theorem memoriesStayCanonical : Obligations.MemoriesStayCanonical := by
  intro s t hs h
  rcases step_cases h with ⟨n, hm⟩ | ⟨a, rest, -, he⟩
  · exact hm.memoryCanonical hs
  · exact he.memoryCanonical hs

/-! ### The writers -/

/-- What the engine leaves of node memory: all of it, or all but one record stored at NCOUNT by a busy engine (R228). -/
def StoresAtNcount (s t : State) : Prop :=
  t.node = s.node ∨ busy s = true ∧ ∃ r, t.node = Memory.write s.node s.ncount.toNat r

theorem EngineEffect.storesAtNcount {s t : State} (h : EngineEffect s t) : StoresAtNcount s t := by
  cases h with
  | rests | fails | reads | goesOn => exact .inl rfl
  | emitsLiteral n r a hb => exact .inr ⟨hb, r, rfl⟩
  | emitsOperator r fs hb => exact .inr ⟨hb, r, rfl⟩

/-- A packet head whose last writes keep node memory keeps it. -/
theorem HeadEffect.node {finish : State → State} {s t : State} (h : HeadEffect finish s t)
    (hf : ∀ u, (finish u).node = u.node) : t.node = s.node := by
  cases h with
  | fails => rfl
  | completes => exact hf _

theorem GroupEffect.storesAtNcount {c : BitVec 1} {s t : State} (h : GroupEffect c s t) (hb : busy s = true) :
    StoresAtNcount s t := by
  cases h with
  | fails | continues => exact .inl rfl
  | emits q a r => exact .inr ⟨hb, r, rfl⟩

/-- A head stores nothing, a group at most its literal's record. -/
theorem instrStep_storesAtNcount {s t : State} (h : instrStep s = .next t) : StoresAtNcount s t := by
  unfold instrStep at h
  split at h
  · rename_i x hx
    rcases fetchWindow_some hx with ⟨-, rfl⟩ | ⟨hp, rfl⟩
    · simp only [decode, exec_decodeHead] at h
      split_ifs at h with ht
      · exact .inl ((literalHeader_effect h).node fun _ => rfl)
      · exact .inl ((lenHead_effect ht h).node fun _ => rfl)
      · exact .inl ((cntHead_effect ht h).node fun _ => rfl)
    · simp only [decode, exec_decodeGroup] at h
      exact (groupSteps_effect h).storesAtNcount (by simp [busy, hp])
  · exact (engineStep_effect h).storesAtNcount

/-- Whose turn a step is: the engine's, for one step or one instruction, or the host's (R30). -/
theorem step_turn_cases {s t : State} (h : step s = .next t) :
    (¬ HostTurn (fun _ => True) s ∧
      ∃ rest, engineStep { s with turns := rest } = .next t ∨ instrStep { s with turns := rest } = .next t) ∨
    ∃ a rest, s.turns = .host a :: rest ∧ HostEffect { s with turns := rest } a t := by
  unfold step at h
  split at h <;> rename_i hturns
  · exact .inl ⟨by simp [HostTurn, hturns], s.turns, .inl h⟩
  · exact .inl ⟨by simp [HostTurn, hturns], _, .inl h⟩
  · exact .inl ⟨by simp [HostTurn, hturns], _, .inr h⟩
  · exact .inr ⟨_, _, hturns, hostStep_effect h⟩

/-- Of the host's actions only a byte write and reset change input memory (R88, R267). -/
theorem HostEffect.inMem {s t : State} {a : HostAction} (h : HostEffect s a t) (hne : t.inMem ≠ s.inMem) :
    a = .reset ∨ ∃ k b, a = .writeIn k b := by
  cases h with
  | recorded | configured | started | rejected => exact absurd rfl hne
  | stored k b => exact .inr ⟨k, b, rfl⟩
  | reset => exact .inl rfl

/-- Of the host's actions only reset changes node memory (R268). -/
theorem HostEffect.node {s t : State} {a : HostAction} (h : HostEffect s a t) (hne : t.node ≠ s.node) : a = .reset := by
  cases h with
  | recorded | configured | stored | started | rejected => exact absurd rfl hne
  | reset => rfl

/-- Settles O53: the engine keeps input memory and stores one record at most; `HostEffect` has the host's writes. -/
theorem memoriesHaveTheirOnlyWriters : Obligations.MemoriesHaveTheirOnlyWriters := by
  intro s t h
  refine ⟨fun hne => ?_, fun hne => ?_⟩
  · rcases step_cases h with ⟨n, hm⟩ | ⟨a, rest, hturns, he⟩
    · exact absurd hm.advances.inMem hne
    · exact ⟨a, rest, hturns, he.inMem hne⟩
  · rcases step_turn_cases h with ⟨hengine, rest, h⟩ | ⟨a, rest, hturns, he⟩
    · have hstores : StoresAtNcount { s with turns := rest } t :=
        h.elim (fun h => (engineStep_effect h).storesAtNcount) instrStep_storesAtNcount
      obtain ⟨hb, r, hnode⟩ := hstores.resolve_left hne
      refine .inr ⟨hb, hengine, fun i hi => ?_⟩
      rw [hnode]
      exact Memory.read_write_other _ r hi
    · exact .inl ⟨a, rest, hturns, he.node hne⟩

end Sys2Proof
end

section
/-! SUPPORT and CLAIMS. Host reads, and the address map: a read leaves only the model's record of its value, and an access at an
address of R82 is the action at that register, byte or node word (R81, R266 to R268, R316). -/

namespace Sys2Proof

open Machine

/-- The value of an input read is a byte (R267). -/
theorem readIn_readData_toNat (k : Nat) (s : State) :
    (readIn k s).readData.toNat = if k < s.capIn.toNat then (inByte s k).toNat else 0 := by
  have hbyte := (inByte s k).isLt
  simp only [readIn, returnWord]
  split
  · rw [if_neg (by omega)]
    rfl
  · rw [if_pos (by omega), BitVec.toNat_setWidth, Nat.mod_eq_of_lt (by omega)]

/-- The node word at byte offset 12·i + 4·j is word j of record i (R82). -/
theorem readNodeWord_eq_readNode {i j : Nat} (hj : j ≤ 2) (s : State) : readNodeWord (3 * i + j) s = readNode i j s := by
  have hi : (3 * i + j) / 3 = i := by omega
  have hj : (3 * i + j) % 3 = j := by omega
  rw [readNodeWord, nodeWordAt, hi, hj]

/-- A node read in a result (R268). -/
theorem readNode_exact {i j : Nat} {s : State} {r : NodeRecord} (hp : s.phase = .done) (hi : i < s.ncount.toNat)
    (hj : j ≤ 2) (hr : Memory.read s.node i = some r) : readNode i j s = returnWord (recordWord r j) s := by
  simp [readNode, hp, hi, hj, hr]

/-- A node read outside a result (R316). -/
theorem readNode_any {i j : Nat} {s : State} (h : s.phase ≠ .done ∨ s.ncount.toNat ≤ i ∨ 2 < j) :
    readNode i j s = returnAny s := by
  unfold readNode
  rw [if_neg]
  rintro ⟨hp, hi, hj⟩
  rcases h with h | h | h
  · exact h hp
  · omega
  · omega

/-- Settles O59: `readNode_exact` and `readNode_any`. -/
theorem nodeReadsAreExactOnlyInAResult : Obligations.NodeReadsAreExactOnlyInAResult := by
  intro s i j
  refine ⟨fun r hp hi hr => ⟨?_, ?_, ?_⟩, fun h => ?_, fun hj n hn => ?_⟩
  · rintro rfl
    exact congrArg _ (readNode_exact hp hi (by decide) hr)
  · rintro rfl
    exact congrArg _ (readNode_exact hp hi (by decide) hr)
  · rintro rfl
    exact congrArg _ (readNode_exact hp hi (by decide) hr)
  · exact congrArg _ (readNode_any h)
  · obtain rfl : n = 3 * i + j := by omega
    exact congrArg _ (readNodeWord_eq_readNode hj s)

/-- An access at an offset from its space's base (R82). -/
theorem action_base_add (p : Placement) (space : Space) (access : Access) (offset : Nat) :
    p.action space access (p.base space + offset) = accessAction space access offset := by
  simp [Placement.action]

/-- A word access at an aligned offset (R45, R79). -/
theorem alignedAction_four_mul (n : Nat) (action : Nat → HostAction) : alignedAction (4 * n) action = some (action n) := by
  simp [alignedAction]

theorem nodeAddress_eq (p : Placement) (i j : Nat) : p.nodeAddress i j = p.base .node + 4 * (3 * i + j) := by
  simp only [Placement.nodeAddress, Placement.base]
  omega

/-- A host read answers the state it found but for the model's own record of the value (R81). -/
theorem hostRead_answers {s : State} {a : HostAction}
    (ha : (∃ reg, a = .readReg reg) ∨ (∃ k, a = .readIn k) ∨ (∃ i j, a = .readNode i j) ∨ (∃ n, a = .readNodeWord n)) :
    ∃ w d, hostStep a s = .next { s with readData := w, draws := d } := by
  rcases ha with ⟨reg, rfl⟩ | ⟨k, rfl⟩ | ⟨i, j, rfl⟩ | ⟨n, rfl⟩
  · exact ⟨_, _, congrArg _ (readReg_eq reg s)⟩
  · exact ⟨_, s.draws, rfl⟩
  · exact ⟨_, _, congrArg _ (readNode_eq i j s)⟩
  · exact ⟨_, _, congrArg _ (readNode_eq _ _ s)⟩

/-- Settles O58: the reads by `hostRead_answers`, the addresses by `action_base_add`. -/
theorem hostReadsHaveNoSideEffect : Obligations.HostReadsHaveNoSideEffect := by
  refine ⟨fun s a ha => ?_, fun p reg k i j w b hj => ?_⟩
  · obtain ⟨x, d, e⟩ := hostRead_answers (s := s) ha
    refine ⟨_, e, rfl, ?_⟩
    rintro k rfl
    cases e
    exact readIn_readData_toNat k s
  · refine ⟨rfl, rfl, rfl, ?_, ?_, action_base_add p .input .readByte k, action_base_add p .input (.writeByte b) k,
      .readNodeWord (3 * i + j), ?_, fun s => congrArg _ (readNodeWord_eq_readNode hj s)⟩
    · exact (action_base_add p .registers .readWord _).trans (alignedAction_four_mul reg _)
    · exact (action_base_add p .registers (.writeWord w) _).trans (alignedAction_four_mul reg (.writeReg · w))
    · rw [nodeAddress_eq, action_base_add]
      exact alignedAction_four_mul _ _

end Sys2Proof
end

section
/-! SUPPORT and CLAIMS. The decoder reads back what the encoder writes, each window finds its own row of the opcode table, and the
bits after a head's own change nothing (R102 to R105, R112). -/

namespace Sys2Proof

open Machine

/-! ### The fields of a window written from its fields -/

section

variable (v : Version) (t : Tag) (m : BitVec 1) (x : BitVec 15)

theorem version_append : Window.version (v ++ t ++ m ++ x) = v := by
  simp only [Window.version, BitVec.append_assoc, BitVec.cast_eq]
  exact BitVec.extractLsb'_append_eq_left

theorem rowKey_append : Window.rowKey (v ++ t ++ m ++ x) = t ++ m := by
  have h : (v ++ t ++ m).extractLsb' 0 4 = t ++ m := by
    rw [BitVec.append_assoc, BitVec.cast_eq]
    exact BitVec.extractLsb'_append_eq_right
  exact (BitVec.extractLsb'_append_eq_of_le (by decide)).trans h

theorem offset6_append : Window.offset6 (v ++ t ++ m ++ x) = m :=
  (BitVec.extractLsb'_append_eq_of_le (by decide)).trans BitVec.extractLsb'_append_eq_right

theorem totalBits_append : Window.totalBits (v ++ t ++ m ++ x) = x := BitVec.extractLsb'_append_eq_right

theorem childCount_append : Window.childCount (v ++ t ++ m ++ x) = x.extractLsb' 4 11 :=
  BitVec.extractLsb'_append_eq_of_add_le (by decide)

/-- A count head's window: after the mode bit come the count and 4 bits not its own (R105). -/
theorem cntWindow_eq (n : BitVec 11) :
    ∃ x : BitVec 15, cntWindow t v n = .head (v ++ t ++ 1#1 ++ x) ∧ x.extractLsb' 4 11 = n :=
  ⟨n ++ 0#4, congrArg Window.head BitVec.append_assoc, BitVec.extractLsb'_append_eq_left⟩

end

/-! ### Round trip -/

theorem encode_lenHeads : ∀ x ∈ lenHeads, ∀ v n, encode (x.1 v n) = lenWindow x.2 v n := by simp [lenHeads, encode]

theorem encode_cntHeads : ∀ x ∈ cntHeads, ∀ v n, encode (x.1 v n) = cntWindow x.2 v n := by simp [cntHeads, encode]

theorem decode_lenWindow {x : (Version → BitVec 15 → Instr) × Tag} (hx : x ∈ lenHeads) (v : Version) (n : BitVec 15) :
    decode (lenWindow x.2 v n) = .ok (x.1 v n) := by
  simp only [lenWindow, decode, decodeHead, version_append, rowKey_append, totalBits_append]
  simp only [lenHeads, List.mem_cons, List.not_mem_nil, or_false] at hx
  rcases hx with rfl | rfl | rfl | rfl | rfl | rfl | rfl <;> rfl

theorem decode_cntWindow {x : (Version → BitVec 11 → Instr) × Tag} (hx : x ∈ cntHeads) (v : Version) (n : BitVec 11) :
    decode (cntWindow x.2 v n) = .ok (x.1 v n) := by
  obtain ⟨r, hr, rfl⟩ := cntWindow_eq v x.2 n
  simp only [hr, decode, decodeHead, version_append, rowKey_append, childCount_append]
  simp only [cntHeads, List.mem_cons, List.not_mem_nil, or_false] at hx
  rcases hx with rfl | rfl | rfl | rfl | rfl | rfl | rfl <;> rfl

theorem decode_encode_lit (v : Version) (c : BitVec 1) : decode (encode (.lit v c)) = .ok (.lit v c) := by
  simp only [encode, decode, decodeHead, version_append, rowKey_append, offset6_append]
  rcases bitVec_one_cases c with rfl | rfl <;> rfl

/-- The continuation bit picks the group, the other four bits are its nibble (R103). -/
theorem decodeGroup_append (c : BitVec 1) (g : BitVec 4) :
    decodeGroup (c ++ g) = if c = 1 then .groupCont g else .groupLast g := by
  have hc : (c ++ g).extractLsb' 4 1 = c := BitVec.extractLsb'_append_eq_left
  have hg : (c ++ g).extractLsb' 0 4 = g := BitVec.extractLsb'_append_eq_right
  rw [decodeGroup, hc, hg]

/-- A CTRL word of some reserved bits and bit 0 set is START with those bits (R261). -/
theorem decodeCtrl_append (reserved : BitVec 31) : decodeCtrl (reserved ++ 1#1) = .ok (.start reserved) := by
  have hbit : (reserved ++ 1#1).extractLsb' 0 1 = 1#1 := BitVec.extractLsb'_append_eq_right
  have hreserved : (reserved ++ 1#1).extractLsb' 1 31 = reserved := BitVec.extractLsb'_append_eq_left
  exact (if_pos hbit).trans (congrArg (Except.ok <| Instr.start ·) hreserved)

/-- Every instruction is a packet head, a literal group or START (R112). -/
theorem instr_cases (i : Instr) :
    i.isHead = true ∨ (∃ g, i = .groupCont g) ∨ (∃ g, i = .groupLast g) ∨ ∃ reserved, i = .start reserved := by
  cases i <;> simp [Instr.isHead, encode, lenWindow, cntWindow]

/-- Settles O1: the heads by the fields of their windows, the groups and START by theirs. -/
theorem encodedInstructionsDecodeBack : Obligations.EncodedInstructionsDecodeBack := by
  intro i
  rcases instr_cases i with hi | ⟨g, rfl⟩ | ⟨g, rfl⟩ | ⟨reserved, rfl⟩
  · rcases isHead_cases hi with ⟨v, c, rfl⟩ | ⟨x, hx, v, n, rfl⟩ | ⟨x, hx, v, n, rfl⟩
    · exact decode_encode_lit v c
    · rw [encode_lenHeads x hx, decode_lenWindow hx]
    · rw [encode_cntHeads x hx, decode_cntWindow hx]
  · exact congrArg Except.ok (decodeGroup_append 1 g)
  · exact congrArg Except.ok (decodeGroup_append 0 g)
  · exact decodeCtrl_append reserved

/-! ### The rows of the opcode table -/

/-- The table value of a head window is its version and its row key (R112). -/
theorem tableValue_head (b : BitVec 22) :
    (Window.head b).tableValue = (Window.version b ++ Window.rowKey b).setWidth 32 := by
  have hW : b.extractLsb' 19 3 ++ b.extractLsb' 15 4 = b.extractLsb' 15 7 :=
    BitVec.extractLsb'_append_extractLsb'_eq_extractLsb' rfl
  rw [Window.tableValue, ← hW, Window.version, Window.rowKey]

/-- A head window hits the row of the instruction it decodes to, for each of the sixteen row keys and whatever the version. -/
theorem headRows_hit (b : BitVec 22) :
    (headRows.filter fun r => r.hits (Window.head b).tableValue).map (·.mnemonic) = [(decodeHead b).mnemonic] := by
  rw [tableValue_head, decodeHead]
  generalize Window.version b = v
  generalize Window.rowKey b = key
  obtain ⟨n, rfl⟩ : ∃ n : Fin 16, key = BitVec.ofFin n := ⟨key.toFin, rfl⟩
  fin_cases n
  all_goals
    simp only [BitVec.toNat_ofFin, Instr.mnemonic]
    revert v
    decide

/-- A CTRL word that is a command is the word the encoder writes for it (R261, R265). -/
theorem encode_of_decode_ctrl {w : Word} {i : Instr} (h : decode (.ctrl w) = .ok i) : encode i = .ctrl w := by
  simp only [decode, decodeCtrl] at h
  split at h <;> cases h
  rename_i hbit
  have hw : w.extractLsb' 1 31 ++ w.extractLsb' 0 1 = w := BitVec.extractLsb'_append_extractLsb'
  rw [hbit] at hw
  exact congrArg Window.ctrl hw

/-- Settles O2: `headRows_hit`, both groups' rows over all 32 group windows, and START's row by its encoding. -/
theorem everyWindowHitsOnlyItsInstructionsRow : Obligations.EveryWindowHitsOnlyItsInstructionsRow := by
  intro x i h
  cases x with
  | head b =>
    cases h
    exact headRows_hit b
  | group g =>
    cases h
    revert g
    decide
  | ctrl w =>
    obtain ⟨reserved, rfl⟩ := decode_ctrl_ok h
    rw [← encode_of_decode_ctrl h]
    exact Laws.TableRow.start reserved

/-! ### The bits after a head's own -/

/-- Two words that agree from bit r upwards agree in every field there. -/
theorem extractLsb'_congr_of_shift {w r start : Nat} {b b' : BitVec w} (h : b >>> r = b' >>> r) (hr : r ≤ start) (n : Nat) :
    b.extractLsb' start n = b'.extractLsb' start n := by
  obtain ⟨d, rfl⟩ := Nat.exists_eq_add_of_le hr
  apply BitVec.eq_of_getLsbD_eq
  intro i hi
  have hbit := congrArg (BitVec.getLsbD · (d + i)) h
  simpa [hi, Nat.add_assoc] using hbit

theorem lenHeads_encodedWidth : ∀ x ∈ lenHeads, ∀ v n, (x.1 v n).encodedWidth = 22 := by
  simp [lenHeads, Instr.encodedWidth]

theorem cntHeads_encodedWidth : ∀ x ∈ cntHeads, ∀ v n, (x.1 v n).encodedWidth = 18 := by
  simp [cntHeads, Instr.encodedWidth]

/-- A head determines at least its 7-bit window (R112). -/
theorem encodedWidth_decodeHead_ge (b : BitVec 22) : 7 ≤ (decodeHead b).encodedWidth := by
  obtain ⟨v, c, hd⟩ | ⟨x, hx, v, n, hd⟩ | ⟨x, hx, v, n, hd⟩ := decodeHead_cases b <;> rw [hd]
  · exact Nat.le_refl 7
  · rw [lenHeads_encodedWidth x hx]; decide
  · rw [cntHeads_encodedWidth x hx]; decide

/-- What a head window decodes to is determined by its version, its row key, and the one field its instruction has. -/
theorem decodeHead_congr {b b' : BitVec 22} (hv : Window.version b = Window.version b')
    (hk : Window.rowKey b = Window.rowKey b')
    (hl : (decodeHead b).encodedWidth = 22 → Window.totalBits b = Window.totalBits b')
    (hc : (decodeHead b).encodedWidth = 18 → Window.childCount b = Window.childCount b') :
    decodeHead b = decodeHead b' := by
  have ho : Window.offset6 b = Window.offset6 b' := by rw [offset6_eq_rowKey, offset6_eq_rowKey, hk]
  unfold decodeHead at hl hc ⊢
  rw [← hv, ← hk, ← ho]
  generalize (Window.rowKey b).toNat = key at hl hc ⊢
  simp only at hl hc ⊢
  split at hl <;> simp_all [Instr.encodedWidth]

/-- Settles O3: the version and the row key lie in the first 7 bits, an operator's field in its own 22 or 18. -/
theorem decodingIgnoresBitsAfterTheInstruction : Obligations.DecodingIgnoresBitsAfterTheInstruction := by
  intro b b' h
  have hw := encodedWidth_decodeHead_ge b
  refine (decodeHead_congr ?_ ?_ (fun hl => ?_) fun hc => ?_).symm
  · exact extractLsb'_congr_of_shift h (by omega) 3
  · exact extractLsb'_congr_of_shift h (by omega) 4
  · exact extractLsb'_congr_of_shift h (by omega) 15
  · exact extractLsb'_congr_of_shift h (by omega) 11

/-- Settles O4: eight closed words, each computed by the decoder. -/
theorem specWordsDecodeToTheirInstructions : Obligations.SpecWordsDecodeToTheirInstructions := by
  unfold Obligations.SpecWordsDecodeToTheirInstructions
  decide

end Sys2Proof
end

section
/-! CLAIMS. Heads and groups whose fields all fit: the whole next state (R103 to R105, R163, R164, R177, R178, R196 to R198). -/

namespace Sys2Proof

open Machine

/-! ### Packet heads -/

/-- Settles O17: HDR_T's writes for type_tag 4, after the header. -/
theorem litCompletes : Obligations.LitCompletes := by
  rintro s v c - ⟨hlen, hcap⟩
  exact headerSteps_fits hlen hcap

section

variable {s : State} {v : Version} {t : Tag}

/-- A field of a head that fits, d bits on. -/
theorem takeField_withHeader {ph : Phase} {d n : Nat} {k : State → Result} (h1 : 1 ≤ n) (h16 : n ≤ 16)
    (hlen : s.pos.toNat + (d + n) ≤ s.len.toNat) (hcap : s.len.toNat ≤ 8 * s.capIn.toNat) :
    takeField n (withHeader ph (s.pos + BitVec.ofNat 32 d) v t s) k =
      k (withHeader ph (s.pos + BitVec.ofNat 32 (d + n)) v t s) := by
  have hpos := pos_add_toNat (p := s.pos) (l := s.len) (n := d) (by omega)
  rw [takeField_fits h1 h16 _ (by exact hcap)]
  · simp only [moveCursor, withHeader, pos_add]
  · simp only [withHeader, hpos]
    omega

/-- An operator's header and mode bit where they fit (R163, R164, R196). -/
theorem modeSteps_fits (m : BitVec 1) (ht : t ≠ Config.literalTag) (hlen : s.pos.toNat + 7 ≤ s.len.toNat)
    (hcap : s.len.toNat ≤ 8 * s.capIn.toNat) :
    (thenStep (headerSteps v t s) fun u => takeField 1 u (modeRead m)) =
      .next (withHeader (if m = 0 then .opL else .opN) (s.pos + BitVec.ofNat 32 7) v t s) := by
  have hheader : headerSteps v t s = .next (withHeader .opM (s.pos + BitVec.ofNat 32 6) v t s) := by
    rw [headerSteps_fits (by omega) hcap, tagRead, if_neg ht]
    rfl
  rw [hheader, thenStep_going (by simp [withHeader]), takeField_withHeader (by decide) (by decide) hlen hcap]
  rfl

/-- A total-length head where it fits: OP_L's depth check and frame are left. -/
theorem lenHead_fits {n : BitVec 15} (ht : t ≠ Config.literalTag) (hlen : s.pos.toNat + 22 ≤ s.len.toNat)
    (hcap : s.len.toNat ≤ 8 * s.capIn.toNat) :
    lenHead t v n s = .next (framePushed (withHeader .opL (s.pos + BitVec.ofNat 32 7) v t s) .totalLength n
      (withHeader .opL (s.pos + BitVec.ofNat 32 22) v t s)) := by
  rw [lenHead, modeSteps_fits 0 ht (by omega) hcap, if_pos rfl, thenStep_going (by simp [withHeader]),
    takeField_withHeader (by decide) (by decide) hlen hcap, totalBitsRead_eq]

/-- A count head where it fits: OP_N's depth check and frame are left. -/
theorem cntHead_fits {n : BitVec 11} (ht : t ≠ Config.literalTag) (hlen : s.pos.toNat + 18 ≤ s.len.toNat)
    (hcap : s.len.toNat ≤ 8 * s.capIn.toNat) :
    cntHead t v n s = .next (framePushed (withHeader .opN (s.pos + BitVec.ofNat 32 7) v t s) .count (n.setWidth 15)
      (withHeader .opN (s.pos + BitVec.ofNat 32 18) v t s)) := by
  rw [cntHead, modeSteps_fits 1 ht (by omega) hcap, if_neg (by decide), thenStep_going (by simp [withHeader]),
    takeField_withHeader (by decide) (by decide) hlen hcap, childCountRead_eq]

/-- Where the stack has room an operator's frame is pushed (R197, R198). -/
theorem framePushed_room {before : State} {ph : Phase} {q : Word} {m : Framing} {n : BitVec 15}
    (h : s.capStack = 0 ∨ s.stack.length < s.capStack.toNat) :
    framePushed before m n (withHeader ph q v t s) = openFrame m n (withHeader ph q v t s) := by
  refine if_neg (mt (stackFull_iff _).mp ?_)
  rintro ⟨hlimit, hfull⟩
  exact h.elim hlimit (Nat.not_lt.mpr hfull)

end

/-- Settles O18: `lenHead_fits`, the frame pushed. -/
theorem totalLengthHeadsComplete : Obligations.TotalLengthHeadsComplete := by
  rintro x hx s v n - ⟨hlen, hcap⟩ hroom
  rw [exec_lenHeads hx, lenHead_fits (lenHeads_tag x hx) hlen hcap, framePushed_room hroom]
  rfl

/-- Settles O19: `cntHead_fits`, the frame pushed. -/
theorem countHeadsComplete : Obligations.CountHeadsComplete := by
  rintro x hx s v n - ⟨hlen, hcap⟩ hroom
  rw [exec_cntHeads hx, cntHead_fits (cntHeads_tag x hx) hlen hcap, framePushed_room hroom]
  rfl

/-! ### Literal groups -/

/-- The accumulator word with one more nibble is the exact value, cut to 64 bits (R178). -/
theorem ofNat_accumulate (acc : LitWord) (g : BitVec 4) :
    BitVec.ofNat 64 (accumulate acc g) = acc * 16 + g.setWidth 64 := by
  apply BitVec.eq_of_toNat_eq
  simp [accumulate, BitVec.toNat_add, BitVec.toNat_mul]

/-- LIT_G's writes for ACC < 2^60, which one more nibble cannot overflow (R175, R178). -/
theorem nibbleRead_fits {before s : State} {g : BitVec 4} (h : s.acc.toNat < 2 ^ 60) :
    nibbleRead before g s =
      if s.cont = 1 then .next { s with acc := s.acc * 16 + g.setWidth 64, phase := .litC }
      else emit (literalRecord s.hv (s.acc * 16 + g.setWidth 64))
        { s with acc := s.acc * 16 + g.setWidth 64, phase := .next } := by
  have hfits : ¬ 2 ^ Config.litWidth ≤ accumulate s.acc g := by
    have := g.isLt
    simp only [accumulate, Config.litWidth]
    omega
  rw [nibbleRead, if_neg hfits, ofNat_accumulate]

/-- Settles O20: `groupSteps_fits`, then LIT_G's writes for CONT 1. -/
theorem groupContCompletes : Obligations.GroupContCompletes := by
  rintro s g - ⟨hlen, hcap⟩ hacc
  refine (groupSteps_fits hlen hcap).trans ?_
  rw [nibbleRead_fits (by exact hacc), if_pos rfl]
  rfl

/-- Room in the top frame's counter, if there is one (R205). -/
theorem childRoom_of_lt {fs : List Frame} (h : ∀ f rest, fs = f :: rest → f.n.toNat < 4095) : childRoom fs = true := by
  cases fs with
  | nil => rfl
  | cons f rest => exact decide_eq_true (h f rest rfl)

/-- Settles O21: `groupSteps_fits`, then LIT_G's writes for CONT 0 and the record stored by Emit. -/
theorem groupLastCompletes : Obligations.GroupLastCompletes := by
  rintro s g - ⟨hlen, hcap⟩ hacc ⟨hnode, htop⟩
  refine (groupSteps_fits hlen hcap).trans ?_
  rw [nibbleRead_fits (by exact hacc), if_neg (by simp)]
  exact emit_room hnode (childRoom_of_lt htop)

end Sys2Proof
end

section
/-! CLAIMS. What a step runs, and the word placed to be run next (R112, R225, R265; logs 1, 2, 17). -/

namespace Sys2Proof

open Machine

/-! ### The instruction a step runs -/

/-- An `instr` turn runs the instruction in the window at the cursor (log 2). -/
theorem step_instr {s : State} {rest : List Turn} {x : Window} {i : Instr} (hturns : s.turns = .instr :: rest)
    (hx : fetchWindow s = some x) (hi : decode x = .ok i) : step s = exec i { s with turns := rest } := by
  have hfetch : fetchWindow { s with turns := rest } = some x := hx
  simp only [step, hturns, instrStep, hfetch, hi]

/-- A host write to CTRL runs the command in the word (R260, R265). -/
theorem step_writeCtrl {s : State} {rest : List Turn} {w : Word} {i : Instr}
    (hturns : s.turns = .host (.writeReg 0 w) :: rest) (hi : decode (.ctrl w) = .ok i) :
    step s = exec i { s with turns := rest } := by
  simp only [step, hturns, hostStep, writeReg, regAt, writeCtrl, hi]

/-- Settles O32: the clauses of `step` and `fetchWindow`. -/
theorem stepRunsTheDecodedInstruction : Obligations.StepRunsTheDecodedInstruction :=
  ⟨fun s hturns => by rw [step, hturns], fun s hp => by rw [fetchWindow, hp], fun s hp => by rw [fetchWindow, hp],
    fun _ _ _ _ => step_instr, fun _ _ _ _ => step_writeCtrl⟩

/-! ### Bytes stored and the window they make -/

/-- Storing bytes from address k on changes none before it. -/
theorem read_storeBytes_before (m : List (Nat × Byte)) {j k : Nat} (h : j < k) (bs : List Byte) :
    Memory.read (storeBytes m k bs) j = Memory.read m j := by
  induction bs generalizing m k with
  | nil => rfl
  | cons b rest ih => rw [storeBytes, ih _ (by omega), Memory.read_write_other m b (by omega)]

/-- Consecutive bytes stored read back in their order. -/
theorem read_storeBytes (m : List (Nat × Byte)) (k : Nat) {bs : List Byte} {j : Nat} (h : j < bs.length) :
    Memory.read (storeBytes m k bs) (k + j) = some bs[j] := by
  induction bs generalizing m k j with
  | nil => simp at h
  | cons b rest ih =>
    cases j with
    | zero => exact (read_storeBytes_before _ (Nat.lt_succ_self k) rest).trans (Memory.read_write_same m k b)
    | succ j =>
      have hk : k + (j + 1) = k + 1 + j := by omega
      rw [hk]
      exact ih _ _ (Nat.lt_of_succ_lt_succ h)

/-- Bit n − 1 − i of a big-endian value is the i-th bit of its field (R13). -/
theorem bigEndian_testBit (bit : Nat → Bool) (p : Nat) {n i : Nat} (hi : i < n) :
    (bigEndian bit p n).testBit (n - 1 - i) = bit (p + i) := by
  induction n with
  | zero => omega
  | succ n ih =>
    rw [bigEndian]
    rcases Nat.lt_succ_iff_lt_or_eq.mp hi with h | rfl
    · have hlast := (bit (p + n)).toNat_lt
      have hindex : n + 1 - 1 - i = n - 1 - i + 1 := by omega
      have hhalf : (2 * bigEndian bit p n + (bit (p + n)).toNat) / 2 = bigEndian bit p n := by omega
      rw [hindex, Nat.testBit_succ, hhalf, ih h]
    · cases bit (p + i) <;> simp [Nat.testBit_zero]

/-- A window at stream position 0 is told by its bits, the first one on top (R112). -/
theorem windowAt_zero_eq {n : Nat} {s : State} {x : BitVec n} (hlen : n ≤ s.len.toNat) (hcap : n ≤ 8 * s.capIn.toNat)
    (h : ∀ i, i < n → streamBit s i = x.getMsbD i) : windowAt s 0 n = x := by
  apply BitVec.eq_of_getMsbD_eq
  intro i hi
  have hlen' : i < s.len.toNat := by omega
  have hcap' : i < 8 * s.capIn.toNat := by omega
  have hlow : n - 1 - i < n := by omega
  rw [BitVec.getMsbD_eq_getLsbD, windowAt, BitVec.getLsbD_ofNat, bigEndian_testBit _ _ hi, Nat.zero_add, h i hi]
  simp [bitExists, hi, hlen', hcap', hlow]

/-- A bit of a stored byte (R73). -/
theorem streamBit_of_read {s : State} {i : Nat} {b : Byte} (h : Memory.read s.inMem (i / 8) = some b) :
    streamBit s i = b.getMsbD (i % 8) := by
  have hi : i % 8 < 8 := Nat.mod_lt i (by decide)
  simp [streamBit, inByte, h, BitVec.getMsbD_eq_getLsbD, hi]

/-- The bytes of a head window hold its bits in stream order (R73). -/
theorem getMsbD_headBytes (b : BitVec 22) {i : Nat} (hi : i < 22) (hk : i / 8 < 3) :
    ((headBytes b)[i / 8]'hk).getMsbD (i % 8) = b.getMsbD i := by
  have hbyte : ∀ k (hk : k < 3), (headBytes b)[k]'hk = (b ++ 0#2).extractLsb' (16 - 8 * k) 8 := by
    intro k hk
    interval_cases k <;> rfl
  have hbit : i % 8 < 8 := Nat.mod_lt i (by decide)
  have hin : 16 - 8 * (i / 8) + 8 - i % 8 ≤ 22 + 2 := by omega
  have hindex : 22 + 2 - (16 - 8 * (i / 8) + 8 - i % 8) = i := by omega
  rw [hbyte _ hk, BitVec.getMsbD_extractLsb', hindex, BitVec.getMsbD_append, if_neg (by omega)]
  simp only [hbit, hin, decide_true, Bool.true_and]

/-- The head window placed in input memory is the one fetched (log 17). -/
theorem fetchWindow_placeWindow_head {s : State} (hcap : 3 ≤ s.capIn.toNat) (b : BitVec 22) :
    fetchWindow (placeWindow (.head b) s) = some (.head b) := by
  have hlen : 22 ≤ (24 : Word).toNat := by decide
  refine congrArg (some <| Window.head ·) (windowAt_zero_eq hlen (by simp only [placeWindow]; omega) fun i hi => ?_)
  have hk : i / 8 < 3 := by omega
  have hread := read_storeBytes s.inMem 0 (bs := headBytes b) hk
  rw [Nat.zero_add] at hread
  rw [streamBit_of_read hread, getMsbD_headBytes b hi hk]

/-- The group window placed in input memory is the one fetched (log 17). -/
theorem fetchWindow_placeWindow_group {s : State} (hcap : 3 ≤ s.capIn.toNat) (g : BitVec 5) :
    fetchWindow (placeWindow (.group g) s) = some (.group g) := by
  have hlen : 5 ≤ (8 : Word).toNat := by decide
  refine congrArg (some <| Window.group ·) (windowAt_zero_eq hlen (by simp only [placeWindow]; omega) fun i hi => ?_)
  have hread := read_storeBytes s.inMem 0 (bs := [g ++ 0#3]) (j := 0) Nat.zero_lt_one
  rw [show 0 + 0 = i / 8 by omega] at hread
  rw [streamBit_of_read hread, show i % 8 = i by omega]
  exact BitVec.getMsbD_append.trans (if_neg (by omega))

/-- A window placed with at least 3 bytes of input memory is what the next step runs, whatever it decodes to. -/
theorem step_placeWindow {s : State} {x : Window} {i : Instr} (hcap : 3 ≤ s.capIn.toNat) (hi : decode x = .ok i) :
    step (placeWindow x s) = exec i { placeWindow x s with turns := [] } := by
  cases x with
  | head b => exact step_instr rfl (fetchWindow_placeWindow_head hcap b) hi
  | group g => exact step_instr rfl (fetchWindow_placeWindow_group hcap g) hi
  | ctrl w => exact step_writeCtrl rfl hi

/-- A table word is decoded by way of its window (R112; log 16). -/
theorem decodeTableWord_some {nbits w : Nat} {i : Instr} (h : decodeTableWord nbits w = some i) :
    ∃ x, tableWindow nbits w = some x ∧ decode x = .ok i := by
  unfold decodeTableWord at h
  split at h
  · split at h <;> cases h
    exact ⟨_, ‹_›, ‹_›⟩
  · cases h

/-- Settles O5: `step_placeWindow` for the word's window. -/
theorem placedTableWordIsRunNext : Obligations.PlacedTableWordIsRunNext := by
  intro s nbits w i hcap h
  obtain ⟨x, hx, hi⟩ := decodeTableWord_some h
  have hplaced : s.withFetchWord nbits w = placeWindow x s := by rw [State.withFetchWord, placeTableWord, hx]
  rw [hplaced]
  exact step_placeWindow hcap hi

end Sys2Proof
end

section
/-! CLAIMS. The layout of the node records by arithmetic on their words (R120, R229, R230). -/

namespace Sys2Proof

open Machine

theorem toNat_append_eq_add {m n : Nat} (x : BitVec m) (y : BitVec n) : (x ++ y).toNat = x.toNat * 2 ^ n + y.toNat := by
  rw [BitVec.toNat_append, ← Nat.shiftLeft_add_eq_or_of_lt y.isLt, Nat.shiftLeft_eq]

/-- A field of a word is a quotient and a remainder. -/
theorem extractLsb'_toNat_eq_div_mod {w : Nat} (x : BitVec w) (start len : Nat) :
    (x.extractLsb' start len).toNat = x.toNat / 2 ^ start % 2 ^ len := by
  rw [BitVec.extractLsb'_toNat, Nat.shiftRight_eq_div_pow]

/-- W0 as a sum of its fields: the reserved bits 31 to 19 are 0 (R120). -/
theorem recordHead_toNat (nchild : BitVec 12) (tag : Tag) (ver : Version) (kind : BitVec 1) :
    (recordHead nchild tag ver kind).toNat = kind.toNat + 2 * ver.toNat + 16 * tag.toNat + 128 * nchild.toNat := by
  simp only [recordHead, toNat_append_eq_add, BitVec.toNat_ofNat]
  omega

/-- Settles O42: `recordHead_toNat` for the words written, quotients and remainders for the fields read. -/
theorem nodeRecordsHaveTheirLayout : Obligations.NodeRecordsHaveTheirLayout := by
  refine ⟨fun v x => ⟨?_, ?_, ?_⟩, fun f => ⟨?_, rfl, rfl⟩, fun r => ⟨?_, ?_, ?_, ?_, ?_⟩⟩
  · exact (recordHead_toNat 0 Config.literalTag v 0).trans (by simp [Config.literalTag])
  · exact (extractLsb'_toNat_eq_div_mod x 0 32).trans (by simp)
  · exact (extractLsb'_toNat_eq_div_mod x 32 32).trans (Nat.mod_eq_of_lt (by omega))
  · exact recordHead_toNat f.n f.tag f.ver 1
  · exact (extractLsb'_toNat_eq_div_mod r.w0 0 1).trans (by simp)
  · exact extractLsb'_toNat_eq_div_mod r.w0 1 3
  · exact extractLsb'_toNat_eq_div_mod r.w0 4 3
  · exact extractLsb'_toNat_eq_div_mod r.w0 7 12
  · exact toNat_append_eq_add r.w2 r.w1

end Sys2Proof
end

section
/-! CLAIMS. How many bits a decoded packet takes and how many children an operator can have (R118, R205), by induction on the
functional form's fuel. -/

namespace Sys2Proof

open Machine

/-- A reader that began at p ended at q: at least n bits on, and inside the stream. -/
def Spans (st : Stream) (n p q : Nat) : Prop := p + n ≤ q ∧ q ≤ st.len

/-- One more child of 11 bits at least. -/
theorem Spans.snoc {st : Stream} {start p q : Nat} {cs : List Packet} {c : Packet} (h : Spans st (11 * cs.length) start p)
    (hc : Spans st 11 p q) : Spans st (11 * (cs ++ [c]).length) start q := by
  obtain ⟨hp, -⟩ := h
  obtain ⟨hq, hlen⟩ := hc
  rw [List.length_append, List.length_singleton]
  exact ⟨by omega, hlen⟩

/-- x ← e goes on only where e is an Ok (R15). -/
theorem bind_ok {α β : Type} {x : Decoded α} {k : Nat → α → Decoded β} {q : Nat} {b : β} (h : x.bind k = .ok q b) :
    ∃ p a, x = .ok p a ∧ k p a = .ok q b := by
  cases x with
  | ok p a => exact ⟨p, a, rfl, h⟩
  | err e => cases h
  | fuelOut => cases h

section

variable {st : Stream} {p q : Nat}

/-- READ takes exactly its n bits, and its value is below 2^n (R143, R145). -/
theorem streamRead_ok {n v : Nat} (h : streamRead st p n = .ok q v) : q = p + n ∧ q ≤ st.len ∧ v < 2 ^ n := by
  unfold streamRead at h
  split at h <;> cases h
  exact ⟨rfl, ‹_›, bigEndian_lt st.bit p n⟩

theorem readHeader_ok {x : Header} (h : readHeader st p = .ok q x) : q = p + 6 ∧ q ≤ st.len := by
  obtain ⟨p1, v, h1, h⟩ := bind_ok h
  obtain ⟨p2, t, h2, h⟩ := bind_ok h
  have hv := streamRead_ok h1
  have ht := streamRead_ok h2
  cases h
  omega

/-- A literal's groups: one of 5 bits at least (R103, R171). -/
theorem readGroups_ok {fuel acc v : Nat} (h : readGroups st fuel p acc = .ok q v) : Spans st 5 p q := by
  induction fuel generalizing p acc with
  | zero => cases h
  | succ fuel ih =>
    obtain ⟨p1, c, h1, h⟩ := bind_ok h
    obtain ⟨p2, g, h2, h⟩ := bind_ok h
    have hc := streamRead_ok h1
    have hg := streamRead_ok h2
    dsimp only at h
    split at h
    · cases h
    · split at h
      · obtain ⟨hq, hlen⟩ := ih h
        exact ⟨by omega, hlen⟩
      · cases h
        exact ⟨by omega, hg.2.1⟩

/-! ### Children -/

variable {child : Nat → Decoded Packet} (hchild : ∀ {p q c}, child p = .ok q c → Spans st 11 p q)

include hchild

/-- Total-length mode: the children take 11 bits each at least, and end at most `total` bits from where they start (R193). -/
theorem lenChildren_ok {total start fuel : Nat} {cs cs' : List Packet}
    (h : lenChildren child total start fuel p cs = .ok q cs') (hp : Spans st (11 * cs.length) start p)
    (htotal : p ≤ start + total) : q ≤ start + total ∧ Spans st (11 * cs'.length) start q := by
  induction fuel generalizing p cs with
  | zero => cases h
  | succ fuel ih =>
    rw [lenChildren] at h
    split at h
    · obtain ⟨p1, c, h1, h⟩ := bind_ok h
      split at h
      · cases h
      · refine ih h (hp.snoc (hchild h1)) ?_
        omega
    · cases h
      exact ⟨htotal, hp⟩

/-- Count mode: exactly `k` children more (R193). -/
theorem cntChildren_ok {k start : Nat} {cs cs' : List Packet} (h : cntChildren child k p cs = .ok q cs')
    (hp : Spans st (11 * cs.length) start p) :
    cs'.length = cs.length + k ∧ Spans st (11 * cs'.length) start q := by
  induction k generalizing p cs with
  | zero =>
    cases h
    exact ⟨rfl, hp⟩
  | succ k ih =>
    obtain ⟨p1, c, h1, h⟩ := bind_ok h
    obtain ⟨hlength, hspans⟩ := ih h (hp.snoc (hchild h1))
    rw [List.length_append, List.length_singleton] at hlength
    exact ⟨by omega, hspans⟩

/-- An operator after its header: mode bit, an 11-bit field at least, and at most 2978 children of 11 bits each in 2^15 − 1 bits,
or 2^11 − 1 of them (R104, R105, R205). -/
theorem readOperator_ok {t : Tag} {d : Nat} {r : List Packet × Operation} (h : readOperator st child p t d = .ok q r) :
    Spans st 12 p q ∧ r.1.length ≤ 2978 := by
  obtain ⟨p1, m, h1, h⟩ := bind_ok h
  have hm := streamRead_ok h1
  obtain ⟨q', cs, hcs, h⟩ := bind_ok h
  have hr : q' = q ∧ cs = r.1 := by
    split at h <;> cases h
    exact ⟨rfl, rfl⟩
  obtain ⟨rfl, rfl⟩ := hr
  split at hcs
  · obtain ⟨start, total, h2, hcs⟩ := bind_ok hcs
    have htotal := streamRead_ok h2
    split at hcs
    · cases hcs
    · obtain ⟨hq, hspans⟩ := lenChildren_ok hchild hcs ⟨Nat.le_refl _, htotal.2.1⟩ (by omega)
      unfold Spans at hspans ⊢
      omega
  · obtain ⟨start, count, h2, hcs⟩ := bind_ok hcs
    have hcount := streamRead_ok h2
    split at hcs
    · cases hcs
    · obtain ⟨hlength, hspans⟩ := cntChildren_ok hchild hcs ⟨Nat.le_refl _, hcount.2.1⟩
      rw [List.length_nil] at hlength
      unfold Spans at hspans ⊢
      omega

end

/-- A packet of the functional form: 11 bits at least, 18 for an operator (R118), and its children (R205). -/
theorem decodePacket_ok {st : Stream} {fuel p d q : Nat} {t : Packet} (h : decodePacket st fuel p d = .ok q t) :
    Spans st 11 p q ∧ ∀ v op cs, t = .operator v op cs → Spans st 18 p q ∧ cs.length ≤ 2978 := by
  induction fuel generalizing p d q t with
  | zero => cases h
  | succ fuel ih =>
    obtain ⟨p1, x, h1, h⟩ := bind_ok h
    have hx := readHeader_ok h1
    split at h
    · obtain ⟨p2, v, h2, h⟩ := bind_ok h
      obtain ⟨hq, hlen⟩ := readGroups_ok h2
      cases h
      exact ⟨⟨by omega, hlen⟩, nofun⟩
    · obtain ⟨p2, r, h2, h⟩ := bind_ok h
      obtain ⟨⟨hq, hlen⟩, hcs⟩ := readOperator_ok (fun h => (ih h).1) h2
      cases h
      refine ⟨⟨by omega, hlen⟩, ?_⟩
      rintro v op cs ⟨⟩
      exact ⟨⟨by omega, hlen⟩, hcs⟩

/-- Settles O40 by `decodePacket_ok`. -/
theorem packetSizesAndChildCountsAreBounded : Obligations.PacketSizesAndChildCountsAreBounded := by
  intro st fuel p d q t h
  obtain ⟨⟨hq, hlen⟩, hop⟩ := decodePacket_ok h
  exact ⟨hq, hlen, fun v op cs ht => ⟨(hop v op cs ht).1.1, (hop v op cs ht).2⟩⟩

end Sys2Proof
end

section
/-! SUPPORT and CLAIMS. The byte-window form of the extractor (R146) and the outcomes of READ (R142, R143, R144, R147). -/

namespace Sys2Proof

open Machine

/-! ### The byte window -/

/-- The first `i` bits of byte `k` are its value without the other 8 − i (R73). -/
theorem bigEndian_streamBit_inByte (s : State) (k : Nat) {i : Nat} (hi : i ≤ 8) :
    bigEndian (streamBit s) (8 * k) i = (inByte s k).toNat / 2 ^ (8 - i) := by
  induction i with
  | zero => exact (Nat.div_eq_of_lt (inByte s k).isLt).symm
  | succ i ih =>
    have hbyte : (8 * k + i) / 8 = k := by omega
    have hbit : 7 - (8 * k + i) % 8 = 7 - i := by omega
    have hweight : 2 ^ (8 - i) = 2 ^ (7 - i) * 2 := by rw [← Nat.pow_succ]; congr 1; omega
    rw [bigEndian, ih (by omega), streamBit_toNat, hbyte, hbit, hweight, ← Nat.div_div_eq_div_mul, Nat.div_add_mod]
    congr 2
    omega

/-- The m bytes from byte k on hold the 8m bits from bit 8k on, in the same order. -/
theorem bytesValue_eq_bigEndian (s : State) (k m : Nat) :
    bytesValue s k m = bigEndian (streamBit s) (8 * k) (8 * m) := by
  induction m with
  | zero => rfl
  | succ m ih =>
    rw [bytesValue, ih, Nat.mul_succ, bigEndian_add, ← Nat.mul_add, bigEndian_streamBit_inByte s _ (Nat.le_refl 8),
      Nat.sub_self, Nat.pow_zero, Nat.div_one, Nat.mul_comm]
    rfl

/-- Shifting the last r bits out and masking all but the n before them leaves the field at offset d (R75). -/
theorem bigEndian_shiftRight_and (bit : Nat → Bool) (p d n r : Nat) :
    bigEndian bit p (d + n + r) >>> r &&& (2 ^ n - 1) = bigEndian bit (p + d) n := by
  have h := congrArg BitVec.toNat (bigEndian_extract bit p d n r)
  rwa [BitVec.extractLsb'_toNat, BitVec.toNat_ofNat, BitVec.toNat_ofNat, Nat.mod_eq_of_lt (bigEndian_lt ..),
    Nat.mod_eq_of_lt (bigEndian_lt ..), ← Nat.and_two_pow_sub_one_eq_mod] at h

/-- Settles O7: the window's bytes are the o bits before the field, the field, and the bits after it; the widths R146 leaves
out are no exception. -/
theorem byteWindowFormGivesTheField : Obligations.ByteWindowFormGivesTheField := by
  intro s p n _ _
  obtain ⟨r, hr⟩ : ∃ r, 8 * ((p % 8 + n + 7) / 8) = p % 8 + n + r := Nat.exists_eq_add_of_le (by omega)
  have hshift : p % 8 + n + r - p % 8 - n = r := by omega
  simp only [byteWindowField, bytesValue_eq_bigEndian, hr, hshift]
  rw [bigEndian_shiftRight_and, Nat.div_add_mod, fieldAt_toNat]

/-! ### READ -/

/-- READ's cursor part refuses a width outside 1 to 16 (R142). -/
theorem takeField_refused {n : Nat} {s : State} {k : State → Result} (h : n = 0 ∨ 16 < n) :
    takeField n s k = .refused (.readWidth n) := if_pos h

/-- The cursor moved n bits on, written as the number it stands for. -/
theorem moveCursor_eq (n : Nat) (s : State) :
    moveCursor n s = { s with pos := BitVec.ofNat 32 (s.pos.toNat + n) } := by
  rw [moveCursor, BitVec.ofNat_add, BitVec.ofNat_toNat, BitVec.setWidth_eq]

/-- InsufficientBits is error entry at the cursor, with the bits asked for and the bits left as its operands (R143, R282). -/
theorem entersError_insufficientBits (n : Nat) (s : State) :
    EntersError (insufficientBits n s) s .insufficientBits s.pos (BitVec.ofNat 32 n) (s.len - s.pos) := rfl

/-- Settles O9 by what the cursor's part of READ does in each of the three cases. -/
theorem readHasExactlyItsOutcomes : Obligations.ReadHasExactlyItsOutcomes := by
  intro s n k hcap
  refine ⟨takeField_refused, fun h1 h16 hfits => ?_, fun h1 h16 hshort => ?_⟩
  · rw [readField, takeField_fits h1 h16 hfits hcap, moveCursor_eq]
  · exact ⟨_, takeField_short h1 h16 hshort, entersError_insufficientBits n s⟩

end Sys2Proof
end

section
/-! SUPPORT and CLAIMS. The header reader: its two engine steps (R163, R164), a head whose header runs past LEN (R162), and
read_header of the functional form (R161, R166). -/

namespace Sys2Proof

open Machine

/-! ### HDR_V and HDR_T -/

theorem engineStep_hdrV {s : State} (hp : s.phase = .hdrV) : engineStep s = readField 3 s versionRead := by
  simp only [engineStep, hp]

theorem engineStep_hdrT {s : State} (hp : s.phase = .hdrT) : engineStep s = readField 3 s tagRead := by
  simp only [engineStep, hp]

/-- READ on a field inside the stream delivers it and moves the cursor past it (R143). -/
theorem readField_fits {n : Nat} {s : State} {k : BitVec n → State → Result} (h1 : 1 ≤ n) (h16 : n ≤ 16)
    (hlen : s.pos.toNat + n ≤ s.len.toNat) (hcap : s.len.toNat ≤ 8 * s.capIn.toNat) :
    readField n s k = k (fieldAt s s.pos.toNat n) (moveCursor n s) := takeField_fits h1 h16 hlen hcap

/-- READ on a field that runs past LEN is error entry InsufficientBits, whatever step it was for (R143, R144). -/
theorem readField_short {n : Nat} {s : State} {k : BitVec n → State → Result} (h1 : 1 ≤ n) (h16 : n ≤ 16)
    (hlen : s.len.toNat < s.pos.toNat + n) :
    ∃ t, readField n s k = .next t ∧
      EntersError t s .insufficientBits s.pos (BitVec.ofNat 32 n) (s.len - s.pos) :=
  ⟨_, takeField_short h1 h16 hlen, entersError_insufficientBits n s⟩

/-- Settles O10: each of the two steps is one READ, then its own writes. -/
theorem headerStepsFollowTheirRules : Obligations.HeaderStepsFollowTheirRules := by
  intro s hcap
  refine ⟨fun hp hfits => ?_, fun hp hfits htag => ?_, fun hp hfits htag => ?_, fun hp hshort => ?_⟩
  · rw [engineStep_hdrV hp, readField_fits (by decide) (by decide) hfits hcap]
    rfl
  · rw [engineStep_hdrT hp, readField_fits (by decide) (by decide) hfits hcap, htag]
    exact if_pos rfl
  · rw [engineStep_hdrT hp, readField_fits (by decide) (by decide) hfits hcap]
    exact if_neg htag
  · obtain ⟨k, hread⟩ : ∃ k, engineStep s = readField 3 s k :=
      hp.elim (fun hp => ⟨_, engineStep_hdrV hp⟩) fun hp => ⟨_, engineStep_hdrT hp⟩
    rw [hread]
    exact readField_short (by decide) (by decide) hshort

/-! ### Heads on a short header -/

/-- Where the first step has taken an error the second does not run (R290). -/
theorem thenStep_stopped {o : Result} {k : State → Result} {t : State} (ho : o = .next t) (ht : t.phase = .error) :
    thenStep o k = .next t := by
  simp [ho, thenStep, ht]

/-- Every packet head begins with the 6-bit header: an error the header takes is the head's (R160). -/
theorem exec_head_stopped {i : Instr} (hi : i.isHead = true) :
    ∃ v g, ∀ s t, headerSteps v g s = .next t → t.phase = .error → exec i s = .next t := by
  rcases isHead_cases hi with ⟨v, c, rfl⟩ | ⟨x, hx, v, n, rfl⟩ | ⟨x, hx, v, n, rfl⟩
  · exact ⟨v, Config.literalTag, fun _ _ h _ => h⟩
  · refine ⟨v, x.2, fun s t h ht => ?_⟩
    rw [exec_lenHeads hx]
    exact thenStep_stopped (thenStep_stopped h ht) ht
  · refine ⟨v, x.2, fun s t h ht => ?_⟩
    rw [exec_cntHeads hx]
    exact thenStep_stopped (thenStep_stopped h ht) ht

section

variable {s : State} {v : Version} {g : Tag}

/-- The version's 3 bits run past LEN (R162, R163). -/
theorem headerSteps_short_version (hshort : s.len.toNat < s.pos.toNat + 3) :
    headerSteps v g s = .next (insufficientBits 3 s) :=
  thenStep_stopped (takeField_short (by decide) (by decide) hshort) rfl

/-- The version fits, and the type_tag's 3 bits run past LEN (R162, R164). -/
theorem headerSteps_short_tag (hfits : s.pos.toNat + 3 ≤ s.len.toNat) (hshort : s.len.toNat < s.pos.toNat + 6)
    (hcap : s.len.toNat ≤ 8 * s.capIn.toNat) :
    headerSteps v g s = .next (insufficientBits 3 (withHeader .hdrT (s.pos + 3) v s.ht s)) := by
  have hpos : (s.pos + 3#32).toNat = s.pos.toNat + 3 := pos_add_toNat hfits
  rw [headerSteps, takeField_fits (by decide) (by decide) hfits hcap, versionRead, thenStep_going (by simp)]
  refine takeField_short (by decide) (by decide) ?_
  simp only [moveCursor, hpos]
  omega

end

/-- Settles O24: the header's two errors are those of every head. -/
theorem shortHeadersRaiseInsufficientBits : Obligations.ShortHeadersRaiseInsufficientBits := by
  intro i s hi _ hcap
  obtain ⟨v, g, hstop⟩ := exec_head_stopped hi
  refine ⟨fun hshort => ?_, fun hfits hshort => ?_⟩
  · exact ⟨_, hstop s _ (headerSteps_short_version (by omega)) rfl, entersError_insufficientBits 3 s⟩
  · exact ⟨_, _, hstop s _ (headerSteps_short_tag (by omega) (by omega) hcap) rfl, rfl, rfl,
      entersError_insufficientBits 3 _⟩

/-! ### read_header -/

section

variable {st : Stream} {p n : Nat}

/-- read on n bits inside the stream (R145). -/
theorem streamRead_fits (h : p + n ≤ st.len) : streamRead st p n = .ok (p + n) (bigEndian st.bit p n) := if_pos h

/-- read on n bits that run past the stream (R145). -/
theorem streamRead_short (h : st.len < p + n) : streamRead st p n = .err (.insufficientBits n (st.len - p) p) :=
  if_neg (by omega)

theorem readHeader_short_version (h : st.len < p + 3) :
    readHeader st p = .err (.insufficientBits 3 (st.len - p) p) := by
  rw [readHeader, streamRead_short h]
  rfl

theorem readHeader_short_tag (hfits : p + 3 ≤ st.len) (hshort : st.len < p + 6) :
    readHeader st p = .err (.insufficientBits 3 (st.len - (p + 3)) (p + 3)) := by
  rw [readHeader, streamRead_fits hfits, Decoded.bind, streamRead_short (by omega)]
  rfl

theorem readHeader_fits (h : p + 6 ≤ st.len) :
    readHeader st p =
      .ok (p + 6) ⟨BitVec.ofNat 3 (bigEndian st.bit p 3), BitVec.ofNat 3 (bigEndian st.bit (p + 3) 3)⟩ := by
  rw [readHeader, streamRead_fits (by omega), Decoded.bind, streamRead_fits (by omega)]
  rfl

end

/-- The 6 header bits are 8·version + type_tag for one version and one type_tag only: those of their two halves (R75,
R166). -/
theorem header_halves {bit : Nat → Bool} {p : Nat} {v : Version} {t : Tag}
    (h : bigEndian bit p 6 = 8 * v.toNat + t.toNat) :
    BitVec.ofNat 3 (bigEndian bit p 3) = v ∧ BitVec.ofNat 3 (bigEndian bit (p + 3) 3) = t := by
  have hsplit : bigEndian bit p 6 = bigEndian bit p 3 * 8 + bigEndian bit (p + 3) 3 := bigEndian_add bit p 3 3
  have hv : bigEndian bit p 3 = v.toNat := by have := bigEndian_lt bit (p + 3) 3; omega
  have ht : bigEndian bit (p + 3) 3 = t.toNat := by omega
  rw [hv, ht, BitVec.ofNat_toNat, BitVec.ofNat_toNat]
  exact ⟨BitVec.setWidth_eq v, BitVec.setWidth_eq t⟩

/-- Settles O37: one equation of read_header per range of bits left. -/
theorem headerReadsFollowTheirRules : Obligations.HeaderReadsFollowTheirRules := by
  intro st p _
  refine ⟨fun hshort => ?_, fun hfits hshort => ?_, fun hfits v t h => ?_⟩
  · exact readHeader_short_version (by omega)
  · rw [readHeader_short_tag (by omega) (by omega), Nat.sub_sub]
  · obtain ⟨hv, ht⟩ := header_halves h
    rw [readHeader_fits (by omega), hv, ht]

end Sys2Proof
end

section
/-! SUPPORT and CLAIMS. The literal reader: its two engine steps (R177, R178), a group that overflows (R175) or runs past LEN
(R174), and read_literal of the functional form (R171, R180). -/

namespace Sys2Proof

open Machine

/-! ### LIT_G's writes -/

/-- One more nibble overflows 64 bits exactly from an accumulator of 2^60 on: the nibble is below 16, and 2^64 is a multiple of
it (R175). -/
theorem accumulate_overflows_iff (acc : LitWord) (g : BitVec 4) :
    2 ^ Config.litWidth ≤ accumulate acc g ↔ 2 ^ 60 ≤ acc.toNat := by
  have := g.isLt
  simp only [accumulate, Config.litWidth]
  omega

section

variable {before s : State} {g : BitVec 4}

/-- LiteralOverflow is error entry at the cursor before the nibble, with LIT_WIDTH as its operand (R175, R281). -/
theorem entersError_literalOverflow (before : State) :
    EntersError (literalOverflow before) before .literalOverflow before.pos 64 0 := rfl

theorem nibbleRead_overflow (h : 2 ^ Config.litWidth ≤ accumulate s.acc g) :
    nibbleRead before g s = .next (literalOverflow before) := if_pos h

/-- A nibble whose exact accumulator is a 64-bit word `a` (R178). -/
theorem nibbleRead_accumulated {a : LitWord} (h : a.toNat = accumulate s.acc g) :
    nibbleRead before g s =
      if s.cont = 1 then .next { s with acc := a, phase := .litC }
      else emit (literalRecord s.hv a) { s with acc := a, phase := .next } := by
  have hfits : ¬ 2 ^ Config.litWidth ≤ a.toNat := Nat.not_le.mpr a.isLt
  rw [nibbleRead, ← h, if_neg hfits, BitVec.ofNat_toNat, BitVec.setWidth_eq]

/-- Below 2^60 no nibble makes LIT_G take an error (R175). -/
theorem nibbleRead_going {t : State} (hacc : s.acc.toNat < 2 ^ 60) (h : nibbleRead before g s = .next t) :
    t.phase ≠ .error := by
  rcases nibbleRead_next h with ⟨hover, -⟩ | ⟨-, -, rfl⟩ | ⟨-, -, hemit⟩
  · exact absurd ((accumulate_overflows_iff _ _).mp hover) (Nat.not_le.mpr hacc)
  · exact nofun
  · obtain ⟨-, -, rfl⟩ := emit_next hemit
    exact nofun

end

/-! ### LIT_C and LIT_G -/

theorem engineStep_litC {s : State} (hp : s.phase = .litC) : engineStep s = readField 1 s continuationRead := by
  simp only [engineStep, hp]

theorem engineStep_litG {s : State} (hp : s.phase = .litG) : engineStep s = readField 4 s (nibbleRead s) := by
  simp only [engineStep, hp]

/-- Settles O11: each of the two steps is one READ, then its own writes. -/
theorem literalStepsFollowTheirRules : Obligations.LiteralStepsFollowTheirRules := by
  intro s hcap
  refine ⟨fun hp hfits => ?_, fun hp hfits hover => ?_, fun hp hfits a ha => ?_, fun hp hshort => ?_, fun hp hshort => ?_⟩
  · rw [engineStep_litC hp, readField_fits (by decide) (by decide) hfits hcap]
    rfl
  · rw [engineStep_litG hp, readField_fits (by decide) (by decide) hfits hcap]
    exact ⟨_, nibbleRead_overflow hover, entersError_literalOverflow s⟩
  · rw [engineStep_litG hp, readField_fits (by decide) (by decide) hfits hcap,
      nibbleRead_accumulated (s := moveCursor 4 s) ha]
    refine ⟨fun hcont => if_pos hcont, fun hcont hroom => ?_⟩
    obtain ⟨hnode, htop⟩ := hroom
    rw [moveCursor_cont, hcont, if_neg (by decide)]
    exact emit_room hnode (childRoom_of_lt htop)
  · rw [engineStep_litC hp]
    exact readField_short (by decide) (by decide) hshort
  · rw [engineStep_litG hp]
    exact readField_short (by decide) (by decide) hshort

/-! ### Groups that take an error -/

section

variable {i : Instr} {c : BitVec 1} {g : BitVec 4} {s : State}

/-- Both group instructions are LIT_C and LIT_G, with their own continuation bit (R103). -/
theorem exec_group (hi : i = .groupCont g ∧ c = 1 ∨ i = .groupLast g ∧ c = 0) : exec i s = groupSteps c g s := by
  rcases hi with ⟨rfl, rfl⟩ | ⟨rfl, rfl⟩ <;> rfl

/-- The continuation bit runs past LEN (R174, R177). -/
theorem groupSteps_short_cont (hshort : s.len.toNat < s.pos.toNat + 1) :
    groupSteps c g s = .next (insufficientBits 1 s) :=
  thenStep_stopped (takeField_short (by decide) (by decide) hshort) rfl

/-- The continuation bit fits and is read, and the nibble runs past LEN (R174, R178). -/
theorem groupSteps_short_nibble (hfits : s.pos.toNat + 1 ≤ s.len.toNat) (hshort : s.len.toNat < s.pos.toNat + 5)
    (hcap : s.len.toNat ≤ 8 * s.capIn.toNat) :
    groupSteps c g s = .next (insufficientBits 4 { s with pos := s.pos + 1, cont := c, phase := .litG }) := by
  have hpos : (s.pos + 1#32).toNat = s.pos.toNat + 1 := pos_add_toNat hfits
  rw [groupSteps, takeField_fits (by decide) (by decide) hfits hcap, continuationRead, thenStep_going (by simp)]
  refine takeField_short (by decide) (by decide) ?_
  simp only [moveCursor, hpos]
  omega

end

/-- Settles O27: `groupSteps_fits`, then what LIT_G's nibble does to ACC. -/
theorem groupsOverflowExactlyFromTwoToTheSixty : Obligations.GroupsOverflowExactlyFromTwoToTheSixty := by
  rintro i c g s hi ⟨hlen, hcap⟩
  rw [exec_group hi, groupSteps_fits hlen hcap]
  refine ⟨fun hacc => ?_, fun hacc t => nibbleRead_going hacc⟩
  exact ⟨_, _, nibbleRead_overflow ((accumulate_overflows_iff _ g).mpr hacc), rfl, entersError_literalOverflow _⟩

/-- Settles O28: the two places where a group runs past LEN. -/
theorem shortGroupsRaiseInsufficientBits : Obligations.ShortGroupsRaiseInsufficientBits := by
  intro i c g s hi hcap
  rw [exec_group hi]
  refine ⟨fun hend => ?_, fun hfits hshort => ?_⟩
  · have hshort : s.len.toNat < s.pos.toNat + 1 := by rw [hend]; exact Nat.lt_succ_self _
    have hleft : s.len - s.pos = 0 := by rw [hend, BitVec.sub_self]; rfl
    exact ⟨_, groupSteps_short_cont hshort, hleft ▸ entersError_insufficientBits 1 s⟩
  · exact ⟨_, _, groupSteps_short_nibble hfits hshort hcap, rfl, entersError_insufficientBits 4 _⟩

/-! ### read_literal -/

section

variable {st : Stream} {p k v : Nat}

/-- One group of groups(p, acc) whose 5 bits are there: continuation bit, nibble, and the overflow check (R171). -/
theorem readGroups_succ {fuel acc : Nat} (h : p + 5 ≤ st.len) :
    readGroups st (fuel + 1) p acc =
      if 2 ^ 64 ≤ acc * 16 + bigEndian st.bit (p + 1) 4 then .err (.literalOverflow (p + 1))
      else if bigEndian st.bit p 1 = 1 then readGroups st fuel (p + 5) (acc * 16 + bigEndian st.bit (p + 1) 4)
      else .ok (p + 5) (acc * 16 + bigEndian st.bit (p + 1) 4) := by
  rw [readGroups, streamRead_fits (by omega), Decoded.bind, streamRead_fits (by omega)]
  rfl

/-- The first group of a literal: its continuation bit says whether groups follow, its nibble is the most significant of the
k + 1 that are left of v (R103, R108). -/
theorem HoldsLiteral.head (h : HoldsLiteral st p (k + 1) v) :
    p + 5 ≤ st.len ∧ bigEndian st.bit p 1 = (if 0 < k then 1 else 0) ∧
      bigEndian st.bit (p + 1) 4 = v / 16 ^ k % 16 := by
  obtain ⟨hlen, hgroups⟩ := h
  obtain ⟨hcont, hnibble⟩ := hgroups 0 (Nat.succ_pos k)
  exact ⟨by omega, by simpa using hcont, hnibble⟩

/-- The groups after the first hold the same value's lower nibbles. -/
theorem HoldsLiteral.tail (h : HoldsLiteral st p (k + 1) v) : HoldsLiteral st (p + 5) k v := by
  obtain ⟨hlen, hgroups⟩ := h
  refine ⟨by omega, fun i hi => ?_⟩
  have hstart : p + 5 * (i + 1) = p + 5 + 5 * i := by omega
  have hweight : k + 1 - 1 - (i + 1) = k - 1 - i := by omega
  have hgroup := hgroups (i + 1) (Nat.succ_lt_succ hi)
  simpa only [hstart, hweight, Nat.add_lt_add_iff_right] using hgroup

/-- The value above its lowest k nibbles is the value above k + 1 of them, with one nibble joined (R178). -/
theorem div_pow_succ_accumulate (v k : Nat) : v / 16 ^ (k + 1) * 16 + v / 16 ^ k % 16 = v / 16 ^ k := by
  rw [Nat.pow_succ, ← Nat.div_div_eq_div_mul, Nat.div_add_mod']

/-- The first of k + 1 groups of v, with what stands above them accumulated: its nibble joins ACC and never overflows, since
ACC is v without its lowest nibbles (R171, R175). -/
theorem readGroups_head {fuel : Nat} (hv : v < 2 ^ 64) (h : HoldsLiteral st p (k + 1) v) :
    readGroups st (fuel + 1) p (v / 16 ^ (k + 1)) =
      if 0 < k then readGroups st fuel (p + 5) (v / 16 ^ k) else .ok (p + 5) (v / 16 ^ k) := by
  obtain ⟨hlen, hcont, hnibble⟩ := h.head
  have hfits : v / 16 ^ k < 2 ^ 64 := (Nat.div_le_self _ _).trans_lt hv
  rw [readGroups_succ hlen, hnibble, div_pow_succ_accumulate, if_neg (Nat.not_le.mpr hfits), hcont]
  by_cases hk : 0 < k <;> simp [hk]

/-- groups(p, acc) on the last k + 1 groups of v, with what stands above them accumulated, answers v (R172, R180). -/
theorem readGroups_of_holdsLiteral {fuel : Nat} (hv : v < 2 ^ 64) (h : HoldsLiteral st p (k + 1) v) (hfuel : k ≤ fuel) :
    readGroups st (fuel + 1) p (v / 16 ^ (k + 1)) = .ok (p + 5 * (k + 1)) v := by
  induction k generalizing p fuel with
  | zero => rw [readGroups_head hv h, if_neg (Nat.lt_irrefl 0), Nat.pow_zero, Nat.div_one]
  | succ k ih =>
    obtain ⟨fuel, rfl⟩ := Nat.exists_eq_add_of_le' (Nat.one_le_of_lt hfuel)
    rw [readGroups_head hv h, if_pos (Nat.succ_pos k), ih h.tail (Nat.le_of_succ_le_succ hfuel), Nat.add_assoc,
      Nat.mul_succ 5 (k + 1), Nat.add_comm 5]

end

/-- Settles O38: `readGroups_of_holdsLiteral` from an empty accumulator; k groups are fewer than the stream's bits. -/
theorem literalRoundTrip : Obligations.LiteralRoundTrip := by
  intro st p k v hk hpow hv h
  obtain ⟨k, rfl⟩ := Nat.exists_eq_add_of_le' hk
  have ⟨hlen, _⟩ := h
  have hread := readGroups_of_holdsLiteral (fuel := st.len) hv h (by omega)
  rwa [Nat.div_eq_of_lt hpow] at hread

end Sys2Proof
end

section
/-! SUPPORT and CLAIMS. The operator reader: its engine steps (R196 to R198), a head that finds its stack full (R203) or runs past
LEN after its header (R282), NEXT on the top frame (R199, R232 to R236), and read_operator's children and operations (R191,
R193). -/

namespace Sys2Proof

open Machine

/-! ### OP_M, OP_L and OP_N -/

section

variable {s : State}

theorem engineStep_opM (hp : s.phase = .opM) : engineStep s = readField 1 s modeRead := by
  simp only [engineStep, hp]

theorem engineStep_opL (hp : s.phase = .opL) : engineStep s = readField 15 s (totalBitsRead s) := by
  simp only [engineStep, hp]

theorem engineStep_opN (hp : s.phase = .opN) : engineStep s = readField 11 s (childCountRead s) := by
  simp only [engineStep, hp]

/-- OP_L with its 15 bits: the depth check and the frame are left (R197). -/
theorem engineStep_opL_fits (hp : s.phase = .opL) (hfits : s.pos.toNat + 15 ≤ s.len.toNat)
    (hcap : s.len.toNat ≤ 8 * s.capIn.toNat) :
    engineStep s = .next (framePushed s .totalLength (fieldAt s s.pos.toNat 15) (moveCursor 15 s)) := by
  rw [engineStep_opL hp, readField_fits (by decide) (by decide) hfits hcap, totalBitsRead_eq]

/-- OP_N with its 11 bits: the depth check and the frame are left (R198). -/
theorem engineStep_opN_fits (hp : s.phase = .opN) (hfits : s.pos.toNat + 11 ≤ s.len.toNat)
    (hcap : s.len.toNat ≤ 8 * s.capIn.toNat) :
    engineStep s =
      .next (framePushed s .count ((fieldAt s s.pos.toNat 11).setWidth 15) (moveCursor 11 s)) := by
  rw [engineStep_opN hp, readField_fits (by decide) (by decide) hfits hcap, childCountRead_eq]

/-- Where the stack has room, the frame begins at the cursor just moved (R197, R198). -/
theorem framePushed_moveCursor_room {before : State} {k : Nat} {m : Framing} {n : BitVec 15}
    (h : s.capStack = 0 ∨ s.stack.length < s.capStack.toNat) :
    framePushed before m n (moveCursor k s) = openFrame m n (moveCursor k s) :=
  framePushed_room (s := s) (ph := s.phase) (q := s.pos + BitVec.ofNat 32 k) (v := s.hv) (t := s.ht) h

/-- On a full stack no frame is pushed: DepthExceeded at the field (R203). -/
theorem framePushed_full {before : State} {m : Framing} {n : BitVec 15} (hlimit : s.capStack ≠ 0)
    (hfull : s.capStack.toNat ≤ s.stack.length) : framePushed before m n s = depthExceeded before :=
  if_pos ((stackFull_iff s).mpr ⟨hlimit, hfull⟩)

/-- DepthExceeded is error entry at the cursor before the field, with STACK_DEPTH as its operand (R203, R281). -/
theorem entersError_depthExceeded (before : State) :
    EntersError (depthExceeded before) before .depthExceeded before.pos before.capStack 0 := rfl

end

/-- Settles O12: each of the three steps is one READ, then its own writes; of OP_L and OP_N's, the depth check decides. -/
theorem operatorStepsFollowTheirRules : Obligations.OperatorStepsFollowTheirRules := by
  intro s hcap
  refine ⟨fun hp hfits => ?_, fun hp hfits hroom => ?_, fun hp hfits hroom => ?_, fun hp hlimit hfull => ?_,
    fun hp hshort => ?_, fun hp hshort => ?_, fun hp hshort => ?_⟩
  · rw [engineStep_opM hp, readField_fits (by decide) (by decide) hfits hcap]
    rfl
  · rw [engineStep_opL_fits hp hfits hcap, framePushed_moveCursor_room hroom]
    rfl
  · rw [engineStep_opN_fits hp hfits hcap, framePushed_moveCursor_room hroom]
    rfl
  · obtain ⟨m, x, n, hstep⟩ : ∃ m x n, engineStep s = .next (framePushed s m x (moveCursor n s)) := by
      rcases hp with ⟨hp, hfits⟩ | ⟨hp, hfits⟩
      · exact ⟨_, _, _, engineStep_opL_fits hp hfits hcap⟩
      · exact ⟨_, _, _, engineStep_opN_fits hp hfits hcap⟩
    rw [hstep, framePushed_full (by exact hlimit) (by exact hfull)]
    exact ⟨_, rfl, entersError_depthExceeded s⟩
  · rw [engineStep_opM hp]
    exact readField_short (by decide) (by decide) hshort
  · rw [engineStep_opL hp]
    exact readField_short (by decide) (by decide) hshort
  · rw [engineStep_opN hp]
    exact readField_short (by decide) (by decide) hshort

/-! ### Operator heads that take an error -/

/-- Settles O26: `lenHead_fits` and `cntHead_fits`, the frame refused. -/
theorem fullStackRaisesDepthExceeded : Obligations.FullStackRaisesDepthExceeded := by
  refine ⟨?_, ?_⟩ <;> rintro x hx s v n ⟨hlen, hcap⟩ hlimit hfull
  · rw [exec_lenHeads hx, lenHead_fits (lenHeads_tag x hx) hlen hcap, framePushed_full (by exact hlimit) (by exact hfull)]
    exact ⟨_, _, rfl, rfl, entersError_depthExceeded _⟩
  · rw [exec_cntHeads hx, cntHead_fits (cntHeads_tag x hx) hlen hcap, framePushed_full (by exact hlimit) (by exact hfull)]
    exact ⟨_, _, rfl, rfl, entersError_depthExceeded _⟩

section

variable {s : State} {v : Version} {t : Tag} {m : BitVec 1}

/-- A field of a head, d bits on, that runs past LEN. -/
theorem takeField_withHeader_short {ph : Phase} {d n : Nat} {k : State → Result} (h1 : 1 ≤ n) (h16 : n ≤ 16)
    (hfits : s.pos.toNat + d ≤ s.len.toNat) (hshort : s.len.toNat < s.pos.toNat + (d + n)) :
    takeField n (withHeader ph (s.pos + BitVec.ofNat 32 d) v t s) k =
      .next (insufficientBits n (withHeader ph (s.pos + BitVec.ofNat 32 d) v t s)) := by
  refine takeField_short h1 h16 ?_
  simp only [withHeader, pos_add_toNat hfits]
  omega

/-- An operator's header where it fits (R163, R164). -/
theorem operatorHeader_fits (ht : t ≠ Config.literalTag) (hfits : s.pos.toNat + 6 ≤ s.len.toNat)
    (hcap : s.len.toNat ≤ 8 * s.capIn.toNat) :
    headerSteps v t s = .next (withHeader .opM (s.pos + BitVec.ofNat 32 6) v t s) := by
  rw [headerSteps_fits hfits hcap, tagRead, if_neg ht]
  rfl

/-- The header fits, and the mode bit of an operator's head runs past LEN, whatever field were to follow (R196). -/
theorem operatorHead_short_mode {k : State → Result} (ht : t ≠ Config.literalTag)
    (hfits : s.pos.toNat + 6 ≤ s.len.toNat) (hshort : s.len.toNat < s.pos.toNat + 7)
    (hcap : s.len.toNat ≤ 8 * s.capIn.toNat) :
    thenStep (thenStep (headerSteps v t s) fun u => takeField 1 u (modeRead m)) k =
      .next (insufficientBits 1 (withHeader .opM (s.pos + BitVec.ofNat 32 6) v t s)) := by
  refine thenStep_stopped ?_ rfl
  rw [operatorHeader_fits ht hfits hcap, thenStep_going (by simp [withHeader])]
  exact takeField_withHeader_short (by decide) (by decide) hfits hshort

/-- The header and the mode bit fit, and the length or count field of an operator's head runs past LEN (R197, R198). -/
theorem operatorHead_short_field {n : Nat} {k : State → State → Result} (ht : t ≠ Config.literalTag) (h1 : 1 ≤ n)
    (h16 : n ≤ 16) (hfits : s.pos.toNat + 7 ≤ s.len.toNat) (hshort : s.len.toNat < s.pos.toNat + (7 + n))
    (hcap : s.len.toNat ≤ 8 * s.capIn.toNat) :
    (thenStep (thenStep (headerSteps v t s) fun u => takeField 1 u (modeRead m)) fun u => takeField n u (k u)) =
      .next (insufficientBits n
        (withHeader (if m = 0 then .opL else .opN) (s.pos + BitVec.ofNat 32 7) v t s)) := by
  rw [modeSteps_fits m ht hfits hcap, thenStep_going (by simp only [withHeader]; split <;> nofun)]
  exact takeField_withHeader_short h1 h16 hfits hshort

/-- The word that stands n bits on from a position (R33). -/
theorem eq_pos_add {p l : Word} {n : Nat} (h : l.toNat = p.toNat + n) : l = p + BitVec.ofNat 32 n :=
  BitVec.eq_of_toNat_eq (h.trans (pos_add_toNat h.ge).symm)

/-- At the end of the stream no bit is left to be had (R149). -/
theorem entersError_at_end {u : State} {n : Nat} (h : u.len = u.pos) :
    EntersError (insufficientBits n u) u .insufficientBits u.pos (BitVec.ofNat 32 n) 0 := by
  have hleft : u.len - u.pos = 0 := by rw [h, BitVec.sub_self]; rfl
  exact hleft ▸ entersError_insufficientBits n u

end

/-- Settles O25: the two places where an operator's head runs past LEN after its header. -/
theorem shortOperatorFieldsRaiseInsufficientBits : Obligations.ShortOperatorFieldsRaiseInsufficientBits := by
  refine ⟨?_, ?_⟩ <;> intro x hx s v n hcap <;> refine ⟨fun hend => ?_, fun hfits hshort => ?_⟩
  · rw [exec_lenHeads hx]
    exact ⟨_, _, operatorHead_short_mode (lenHeads_tag x hx) hend.ge (by omega) hcap, rfl,
      entersError_at_end (eq_pos_add hend)⟩
  · rw [exec_lenHeads hx]
    exact ⟨_, _, operatorHead_short_field (lenHeads_tag x hx) (by decide) (by decide) hfits hshort hcap, rfl,
      entersError_insufficientBits 15 _⟩
  · rw [exec_cntHeads hx]
    exact ⟨_, _, operatorHead_short_mode (cntHeads_tag x hx) hend.ge (by omega) hcap, rfl,
      entersError_at_end (eq_pos_add hend)⟩
  · rw [exec_cntHeads hx]
    exact ⟨_, _, operatorHead_short_field (cntHeads_tag x hx) (by decide) (by decide) hfits hshort hcap, rfl,
      entersError_insufficientBits 11 _⟩

/-! ### NEXT -/

section

variable {f : Frame} {pos : Word}

theorem frameStatus_more (h : f.mode = .totalLength ∧ pos.toNat - f.start.toNat < f.target.toNat ∨
    f.mode = .count ∧ f.n.toNat < f.target.toNat) : frameStatus f pos = .more := by
  rcases h with ⟨hm, hlt⟩ | ⟨hm, hlt⟩ <;> simp only [frameStatus, hm, if_pos hlt]

theorem frameStatus_complete (h : f.mode = .totalLength ∧ pos.toNat - f.start.toNat = f.target.toNat ∨
    f.mode = .count ∧ f.n.toNat = f.target.toNat) : frameStatus f pos = .complete := by
  rcases h with ⟨hm, heq⟩ | ⟨hm, heq⟩ <;> simp only [frameStatus, hm, if_neg heq.not_lt, if_pos heq]

theorem frameStatus_overshoot (hm : f.mode = .totalLength) (hgt : f.target.toNat < pos.toNat - f.start.toNat) :
    frameStatus f pos = .overshoot (pos.toNat - f.start.toNat) := by
  simp only [frameStatus, hm, if_neg hgt.not_gt, if_neg hgt.ne']

end

section

variable {s : State} {f : Frame} {rest : List Frame}

theorem engineStep_next (hp : s.phase = .next) : engineStep s = stepNext s := by
  simp only [engineStep, hp]

theorem stepNext_empty (hs : s.stack = []) : stepNext s = .next { s with endPos := s.pos, phase := .done } := by
  simp only [stepNext, hs]

theorem stepNext_more (hs : s.stack = f :: rest) (h : frameStatus f s.pos = .more) :
    stepNext s = .next { s with phase := .hdrV } := by
  simp only [stepNext, hs, h]

theorem stepNext_complete (hp : s.phase = .next) (hs : s.stack = f :: rest) (h : frameStatus f s.pos = .complete) :
    stepNext s = emit (operatorRecord f) { s with stack := rest } := by
  simp only [stepNext, hs, h, hp]

theorem stepNext_overshoot {c : Nat} (hs : s.stack = f :: rest) (h : frameStatus f s.pos = .overshoot c) :
    stepNext s = .next (malformedLength f c s) := by
  simp only [stepNext, hs, h]

/-- MalformedLength is error entry at the cursor, with the frame's target and the bits its children took (R236, R281). -/
theorem entersError_malformedLength (hstart : f.start.toNat ≤ s.pos.toNat) :
    EntersError (malformedLength f (s.pos.toNat - f.start.toNat) s) s .malformedLength s.pos (f.target.setWidth 32)
      (s.pos - f.start) := by
  have hconsumed : BitVec.ofNat 32 (s.pos.toNat - f.start.toNat) = s.pos - f.start := by
    rw [← BitVec.toNat_sub_of_le hstart, BitVec.ofNat_toNat, BitVec.setWidth_eq]
  rw [malformedLength, hconsumed]
  rfl

end

/-- Settles O13: NEXT for each status of the top frame. -/
theorem nextStepFollowsTheTopFrame : Obligations.NextStepFollowsTheTopFrame := by
  intro s hp
  rw [engineStep_next hp]
  refine ⟨stepNext_empty, fun f rest hs hstart => ⟨fun hm hlt => ?_, fun hm hlt => ?_, fun htarget hroom => ?_,
    fun hm hgt => ?_⟩⟩
  · exact stepNext_more hs (frameStatus_more (.inl ⟨hm, hlt⟩))
  · exact stepNext_more hs (frameStatus_more (.inr ⟨hm, hlt⟩))
  · obtain ⟨hnode, htop⟩ := hroom
    rw [stepNext_complete hp hs (frameStatus_complete htarget)]
    exact emit_room hnode (childRoom_of_lt htop)
  · exact ⟨_, stepNext_overshoot hs (frameStatus_overshoot hm hgt), entersError_malformedLength hstart⟩

/-! ### read_operator -/

section

variable {child : Nat → Decoded Packet} {p q : Nat} {cs cs' : List Packet}

/-- Total-length mode goes on while bits are missing and fails where a child passes the target: it ends on it (R193, R194). -/
theorem lenChildren_consumed {total start fuel : Nat} (h : lenChildren child total start fuel p cs = .ok q cs')
    (hp : p - start ≤ total) : q - start = total := by
  induction fuel generalizing p cs with
  | zero => cases h
  | succ fuel ih =>
    rw [lenChildren] at h
    split at h
    · obtain ⟨p1, c, -, h⟩ := bind_ok h
      split at h
      · cases h
      · exact ih h (by omega)
    · cases h
      omega

/-- Count mode decodes its `k` children and no other (R193, R195). -/
theorem cntChildren_length {k : Nat} (h : cntChildren child k p cs = .ok q cs') : cs'.length = cs.length + k := by
  induction k generalizing p cs with
  | zero =>
    cases h
    rfl
  | succ k ih =>
    obtain ⟨p1, c, -, h⟩ := bind_ok h
    rw [ih h, List.length_append, List.length_singleton, Nat.add_assoc, Nat.add_comm 1]

end

/-- Settles O39: `lenChildren_consumed` with no bit consumed yet, `cntChildren_length` with no child decoded yet. -/
theorem framingIsExact : Obligations.FramingIsExact := by
  refine ⟨fun child total start fuel p cs h => ?_, fun child k start p cs h => ?_⟩
  · exact lenChildren_consumed h (by omega)
  · rw [cntChildren_length h, List.length_nil, Nat.zero_add]

/-- The type_tag of an operation (R110). -/
def operationTag : Operation → Tag
  | .sum => 0
  | .product => 1
  | .min => 2
  | .max => 3
  | .greaterThan => 5
  | .lessThan => 6
  | .equalTo => 7

/-- The tag can be had back from OpOf's answer; no answer is LITERAL_TAG's (R191, R192). -/
theorem opOf_leftInverse : Function.LeftInverse (fun o => o.elim Config.literalTag operationTag) opOf := by
  unfold Function.LeftInverse
  decide

/-- Settles O41: OpOf's table, and one to one because it has a left inverse. -/
theorem opOfMapsTheSevenOperatorTags : Obligations.OpOfMapsTheSevenOperatorTags :=
  ⟨rfl, rfl, rfl, rfl, rfl, rfl, rfl, rfl, fun _ _ h => opOf_leftInverse.injective h⟩

end Sys2Proof
end

section
/-! CLAIMS. The engine's steps: what Emit stores (R228), where the engine rests and who takes it from there (R226, R292), and an
instruction run whole as that many engine steps (R225, R231). -/

namespace Sys2Proof

open Machine

/-! ### Emit -/

/-- Settles O14: `emit_room`, and node memory read after its one write. -/
theorem emitStoresOneRecordAndCountsIt : Obligations.EmitStoresOneRecordAndCountsIt := by
  rintro r s ⟨hnode, htop⟩
  exact ⟨_, emit_room hnode (childRoom_of_lt htop), rfl, Memory.read_write_same s.node _ r,
    fun _ ha => Memory.read_write_other s.node r ha⟩

/-! ### Outside the busy set -/

theorem step_of_no_turns {s : State} (hs : s.turns = []) : step s = engineStep s := by
  simp only [step, hs]

/-- Settles O16: with no turn listed the step is the engine's, and the engine rests. -/
theorem engineRestsOutsideTheBusySet : Obligations.EngineRestsOutsideTheBusySet := by
  intro s hturns hp
  rw [step_of_no_turns hturns, engineStep_of_not_busy ((not_busy_iff s).mpr hp)]

/-- Outside the busy set no run of engine steps changes PHASE (R226). -/
theorem EngineMoves.phase_of_not_busy {n : Nat} {s t : State} (h : EngineMoves n s t) (hs : busy s = false) :
    t.phase = s.phase := by
  refine (h.keeps (P := fun u => busy u = false ∧ u.phase = s.phase) (fun _ _ _ _ h => h) ?_ ⟨hs, rfl⟩).2
  rintro u v ⟨hu, hp⟩ e
  cases (engineStep_of_not_busy hu).symm.trans e
  exact ⟨hu, hp⟩

/-- Of the host's actions only START and reset change PHASE (R226, R292). -/
theorem HostEffect.phase {s t : State} {a : HostAction} (h : HostEffect s a t) (hne : t.phase ≠ s.phase) :
    a = .reset ∨ ∃ w : Word, a = .writeReg 0 w ∧ w.getLsbD 0 = true := by
  cases h with
  | recorded | configured | stored => exact absurd rfl hne
  | started w _ _ hw | rejected w _ _ hw => exact .inr ⟨w, rfl, hw⟩
  | reset => exact .inl rfl

/-- Settles O51: the engine rests, so the step is a host action that changes PHASE. -/
theorem onlyStartOrResetLeavesAFinalPhase : Obligations.OnlyStartOrResetLeavesAFinalPhase := by
  intro s t hb h hne
  rcases step_cases h with ⟨n, hm⟩ | ⟨a, rest, hturns, he⟩
  · exact absurd (hm.phase_of_not_busy hb) hne
  · exact ⟨a, rest, hturns, he.phase hne⟩

/-! ### Whole instructions -/

/-- In ERROR a run with no turn listed stands still (R292). -/
theorem run_of_error {s : State} (hs : s.turns = []) (herr : s.phase = .error) (n : Nat) :
    Host.Core.run core n s = .next s := by
  induction n with
  | zero => rfl
  | succ n ih =>
    have hrest : step s = .next s :=
      (step_of_no_turns hs).trans (engineStep_of_not_busy ((not_busy_iff s).mpr (.inr (.inr herr))))
    rw [run_cons hrest, ih]

/-- With no turn listed n steps of the machine are n engine steps (R225). -/
theorem run_eq_engineSteps {s : State} (hs : s.turns = []) (n : Nat) :
    Host.Core.run core n s = engineSteps n s := by
  induction n generalizing s with
  | zero => rfl
  | succ n ih =>
    have hstep : core.step s = engineStep s := step_of_no_turns hs
    simp only [Host.Core.run, engineSteps, hstep]
    cases hu : engineStep s with
    | next u =>
      have hturns := (engineStep_turns hu).trans hs
      by_cases herr : u.phase = .error
      · exact (run_of_error hturns herr n).trans (thenStep_stopped rfl herr).symm
      · exact (ih hturns).trans (thenStep_going herr).symm
    | fault f => rfl
    | refused r => rfl

/-- A head's engine steps: two for LIT, four for an operator's, for each of the sixteen row keys (R163, R164, R196 to R198). -/
theorem engineSteps_decodeHead (b : BitVec 22) :
    (decodeHead b).engineSteps = if windowTag b = Config.literalTag then 2 else 4 := by
  rw [windowTag_eq_rowKey, decodeHead]
  generalize Window.rowKey b = key
  obtain ⟨n, rfl⟩ : ∃ n : Fin 16, key = BitVec.ofFin n := ⟨key.toFin, rfl⟩
  fin_cases n <;> rfl

/-- A group's engine steps: two (R177, R178). -/
theorem engineSteps_decodeGroup (g : BitVec 5) : (decodeGroup g).engineSteps = 2 := by
  unfold decodeGroup
  split <;> rfl

/-- The head at the cursor, run whole. -/
theorem engineSteps_eq_exec_head {s : State} (hp : s.phase = .hdrV) :
    engineSteps (decodeHead (windowAt s s.pos.toNat 22)).engineSteps s =
      exec (decodeHead (windowAt s s.pos.toNat 22)) s := by
  rw [engineSteps_decodeHead, exec_decodeHead]
  split_ifs with ht hm
  · exact (headerSteps_eq_engineSteps hp ht).symm
  · exact (lenHead_eq_engineSteps hp ht hm).symm
  · exact (cntHead_eq_engineSteps hp ht ((bitVec_one_cases _).resolve_left hm)).symm

/-- The group at the cursor, run whole. -/
theorem engineSteps_eq_exec_group {s : State} (hp : s.phase = .litC) :
    engineSteps (decodeGroup (windowAt s s.pos.toNat 5)).engineSteps s =
      exec (decodeGroup (windowAt s s.pos.toNat 5)) s := by
  rw [engineSteps_decodeGroup, exec_decodeGroup, groupSteps_eq_engineSteps hp]

/-- Settles O33: with no turn listed the machine's steps are engine steps, and these make up the head or group fetched. -/
theorem instructionsAreTheirEngineSteps : Obligations.InstructionsAreTheirEngineSteps := by
  intro s x i hturns hx hi
  rw [run_eq_engineSteps hturns]
  rcases fetchWindow_some hx with ⟨hp, rfl⟩ | ⟨hp, rfl⟩ <;> cases hi
  · exact engineSteps_eq_exec_head hp
  · exact engineSteps_eq_exec_group hp

end Sys2Proof
end

section
/-! SUPPORT and CLAIMS. Every run from a launch ends (R241, R320): on whatever memory contents, the engine always has a next state,
and each engine step leaves less work to do. -/

namespace Sys2Proof

open Machine

/-! ### Legal but for the memories -/

/-- In the same place of the same decode as a legal state with the same capacities. A launch may find its memories in no canonical
form and its node memory full of old records, which the decode does not depend on (R54, R115; log 8). -/
def Sound (s : State) : Prop := ∃ v, Legal v ∧ Agree s v ∧ v.capIn = s.capIn ∧ v.capNode = s.capNode

theorem Sound.record {s : State} (h : Sound s) (ts : List Turn) (w : Word) (d : Nat) :
    Sound { s with turns := ts, readData := w, draws := d } := by
  obtain ⟨v, hv, hagree, hcaps⟩ := h
  exact ⟨v, hv, hagree.record ts w d, hcaps⟩

/-- Storing consecutive bytes below a bound keeps every address below it. -/
theorem storeBytes_below {bound : Nat} (bs : List Byte) (m : List (Nat × Byte)) {k : Nat}
    (h : Memory.below bound m = true) (hk : k + bs.length ≤ bound) : Memory.below bound (storeBytes m k bs) = true := by
  induction bs generalizing m k with
  | nil => exact h
  | cons b rest ih =>
    rw [List.length_cons] at hk
    exact ih _ (Memory.write_below m bound k b h (by omega)) (by omega)

/-- Input memory with every byte written as it stands: the canonical form of what can be read (R70, R72). -/
def writtenOut (s : State) : List (Nat × Byte) := storeBytes [] 0 ((List.range s.capIn.toNat).map (inByte s))

theorem streamBit_writtenOut (s : State) {node : List (Nat × NodeRecord)} {i : Nat} (hi : i < 8 * s.capIn.toNat) :
    streamBit { s with inMem := writtenOut s, node := node } i = streamBit s i := by
  have hk : i / 8 < ((List.range s.capIn.toNat).map (inByte s)).length := by
    rw [List.length_map, List.length_range]
    omega
  have hread := read_storeBytes [] 0 hk
  rw [Nat.zero_add, List.getElem_map, List.getElem_range] at hread
  simp only [streamBit, inByte, writtenOut, hread, Option.getD_some]

theorem memoryCanonical_writtenOut (s : State) : MemoryCanonical { s with inMem := writtenOut s, node := [] } :=
  ⟨storeBytes_wf _ _ _ rfl, storeBytes_below _ _ rfl (by simp), rfl, rfl⟩

/-- A launch is sound: beside it stands the launch with its input written out and no record stored (R261). -/
theorem sound_launch {s : State} (hparams : ParamsLegal s) (hc : configLegal s = true) : Sound (launch s) := by
  have hlegal : Legal (launch { s with inMem := writtenOut s, node := [] }) :=
    Running.legal (ph := .hdrV) (launch_running hparams (memoryCanonical_writtenOut s) hc) rfl (by decide)
      (tagFits_of_free (by decide))
  simp only [configLegal, Bool.and_eq_true, decide_eq_true_eq] at hc
  exact ⟨_, hlegal, agree_launch rfl rfl rfl fun i _ hi => (streamBit_writtenOut s (by omega)).symm, rfl, rfl⟩

/-! ### The engine has a next state -/

/-- Where a packet of at least 11 bits has been read beyond those of the records, Emit has room (R83, R205). -/
theorem Running.room {s : State} (h : Running true 11 s) :
    s.ncount.toNat < s.capNode.toNat ∧ childRoom s.stack = true := by
  obtain ⟨t, ht⟩ := h.emit_answers (literalRecord 0 0)
  obtain ⟨hroom, hchild, -⟩ := emit_next ht
  exact ⟨hroom, hchild⟩

theorem Agree.room {u v : State} (h : Agree u v) (hcap : v.capNode = u.capNode) (hr : Running true 11 v) :
    u.ncount.toNat < u.capNode.toNat ∧ childRoom u.stack = true := by
  have hroom := hr.room
  rwa [h.ncount, h.stack, hcap] at hroom

/-- LIT_G's writes with room for the literal's record. -/
theorem nibbleRead_answers_of_room {before s : State} {g : BitVec 4}
    (h : s.ncount.toNat < s.capNode.toNat ∧ childRoom s.stack = true) : ∃ t, nibbleRead before g s = .next t := by
  obtain ⟨hroom, hchild⟩ := h
  unfold nibbleRead
  split
  · exact ⟨_, rfl⟩
  · dsimp only
    split
    · exact ⟨_, rfl⟩
    · exact ⟨_, emit_room hroom hchild⟩

/-- NEXT finds the same top frame in both. -/
theorem Agree.stepNext_answers {u v : State} (h : Agree u v) (hp : u.phase = .next) (hcap : v.capNode = u.capNode)
    (hr : Running false 0 v) : ∃ t, Machine.stepNext u = .next t := by
  cases hs : u.stack with
  | nil => exact ⟨_, stepNext_empty hs⟩
  | cons f rest =>
    have hsv : v.stack = f :: rest := h.stack.trans hs
    rcases frameStatus_cases f u.pos with ⟨hf, -⟩ | ⟨hf, -⟩ | ⟨hf, -⟩ | ⟨hf, -⟩
    · exact ⟨_, stepNext_more hs hf⟩
    · obtain ⟨hroom, hchild⟩ := ((hr.popFrame hsv).weaken (by decide : 11 ≤ 18)).room
      simp only [h.ncount, hcap] at hroom
      rw [stepNext_complete hp hs hf]
      exact ⟨_, emit_room hroom hchild⟩
    · exact ⟨_, stepNext_overshoot hs hf⟩
    · obtain ⟨t, ht⟩ := Sys2Proof.stepNext_answers hr
      simp only [Machine.stepNext, hsv, h.pos, hf] at ht
      cases ht

theorem Sound.engineStep_answers {s : State} (h : Sound s) : ∃ t, Machine.engineStep s = .next t := by
  obtain ⟨v, hv, hagree, hcapIn, hcapNode⟩ := h
  cases hb : busy s
  · exact ⟨s, engineStep_of_not_busy hb⟩
  have running {ph : Phase} (hp : s.phase = ph) (hne : ph ≠ .idle ∧ ph ≠ .done ∧ ph ≠ .error) :=
    hv.running (hagree.phase.trans hp) hne
  have hcap := (running rfl ((busy_iff s).mp hb)).lenCap
  rw [hagree.len, hcapIn] at hcap
  cases hp : s.phase
  case hdrV => exact engineStep_hdrV hp ▸ takeField_answers (by decide) (by decide) hcap fun _ => ⟨_, rfl⟩
  case hdrT =>
    refine engineStep_hdrT hp ▸ takeField_answers (by decide) (by decide) hcap fun _ => ?_
    unfold tagRead
    split <;> exact ⟨_, rfl⟩
  case litC => exact engineStep_litC hp ▸ takeField_answers (by decide) (by decide) hcap fun _ => ⟨_, rfl⟩
  case litG =>
    refine engineStep_litG hp ▸ takeField_answers (by decide) (by decide) hcap fun hlen => ?_
    have hr := (running hp (by decide)).moveCursor (n := 4) (by rw [hagree.pos, hagree.len]; exact hlen)
    exact nibbleRead_answers_of_room ((hagree.moveCursor hlen).room hcapNode hr)
  case opM => exact engineStep_opM hp ▸ takeField_answers (by decide) (by decide) hcap fun _ => ⟨_, rfl⟩
  case opL =>
    exact engineStep_opL hp ▸ takeField_answers (by decide) (by decide) hcap fun _ => ⟨_, totalBitsRead_eq _ _ _⟩
  case opN =>
    exact engineStep_opN hp ▸ takeField_answers (by decide) (by decide) hcap fun _ => ⟨_, childCountRead_eq _ _ _⟩
  case next => exact engineStep_next hp ▸ hagree.stepNext_answers hp hcapNode (running hp (by decide))
  all_goals exact absurd hb (by simp [busy, hp])

/-- A sound state's engine step is taken in both, and leaves a sound state. -/
theorem Sound.engineStep {s t : State} (h : Sound s) (e : engineStep s = .next t) : Sound t := by
  obtain ⟨v, hv, hagree, hcapIn, hcapNode⟩ := h
  obtain ⟨w, hw⟩ := Sys2Proof.engineStep_answers hv
  have hs := (engineStep_effect e).advances
  have hv' := (engineStep_effect hw).advances
  exact ⟨w, engineStep_legal hv hw, hagree.engineStep e hw, by rw [hs.capIn, hv'.capIn, hcapIn],
    by rw [hs.capNode, hv'.capNode, hcapNode]⟩

theorem EngineMoves.sound {n : Nat} {s t : State} (h : EngineMoves n s t) (hs : Sound s) : Sound t :=
  h.keeps (fun _ ts w d h => h.record ts w d) (fun _ _ => Sound.engineStep) hs

theorem Sound.engineSteps_answers {s : State} (h : Sound s) (n : Nat) : ∃ t, engineSteps n s = .next t := by
  induction n generalizing s with
  | zero => exact ⟨s, rfl⟩
  | succ n ih =>
    obtain ⟨u, hu⟩ := h.engineStep_answers
    rw [engineSteps, hu]
    by_cases herr : u.phase = .error
    · exact ⟨u, thenStep_stopped rfl herr⟩
    · rw [thenStep_going herr]
      exact ih (h.engineStep hu)

/-! ### So has the machine -/

theorem writeReg_answers (reg : Nat) (w : Word) (s : State) : ∃ t, writeReg reg w s = .next t := by
  unfold writeReg
  split
  · cases hw : w.getLsbD 0
    · exact ⟨_, writeCtrl_of_bit_clear hw s⟩
    · rw [writeCtrl_of_bit_set hw]
      rcases execStart_cases (w.extractLsb' 1 31) s with ⟨-, e⟩ | ⟨-, -, e⟩ | ⟨-, -, e⟩ <;> exact ⟨_, e⟩
  all_goals exact ⟨_, rfl⟩

/-- The one host action without a move is a write to IN (R314). -/
theorem hostStep_answers {a : HostAction} (ha : ¬ Disturbs a) (s : State) : ∃ t, hostStep a s = .next t := by
  cases a with
  | writeReg reg w => exact writeReg_answers reg w s
  | writeIn k b => exact absurd (.inr ⟨k, b, rfl⟩) ha
  | _ => exact ⟨_, rfl⟩

theorem Sound.step_answers {s : State} (h : Sound s) (hd : ¬ HostTurn Disturbs s) : ∃ t, step s = .next t := by
  have taken (rest : List Turn) : Sound { s with turns := rest } := h.record rest s.readData s.draws
  unfold step
  split
  · exact h.engineStep_answers
  · exact (taken _).engineStep_answers
  · rename_i rest _
    obtain ⟨n, e⟩ := instrStep_eq_engineSteps { s with turns := rest }
    exact e ▸ (taken rest).engineSteps_answers n
  · exact hostStep_answers (fun ha => hd ⟨_, _, ‹_›, ha⟩) _

/-! ### The work left -/

/-- Bounds the engine steps a phase takes beside those paid for by the bits they read: NEXT starts a child or ends the decode, and
each busy phase can be the one that fails. -/
def phaseWork : Phase → Nat
  | .next => 2
  | .hdrV | .hdrT | .litC | .litG | .opM | .opL | .opN => 1
  | .idle | .done | .error => 0

/-- Bounds the engine steps left: two for a bit of the stream, one for each frame still to be popped (R241). -/
def work (s : State) : Nat := 2 * (s.len.toNat - s.pos.toNat) + s.stack.length + phaseWork s.phase

theorem phaseWork_pos {s : State} (hb : busy s = true) : 0 < phaseWork s.phase := by
  unfold busy at hb
  cases hp : s.phase <;> simp [hp, phaseWork] at hb ⊢

section

variable {s t : State}

/-- Error entry ends the run. -/
theorem work_errorEntry (hb : busy s = true) (e : ErrorKind) (p a b : Word) : work (errorEntry e p a b s) < work s := by
  have hpos := phaseWork_pos hb
  have herr : phaseWork .error = 0 := rfl
  simp only [work, errorEntry_len, errorEntry_pos, errorEntry_stack, errorEntry_phase, List.length_nil, herr]
  omega

/-- Each bit read pays for two steps. -/
theorem work_lt_of_read {n : Nat} (hfits : s.pos.toNat + n ≤ s.len.toNat) (hlen : t.len = s.len)
    (hpos : t.pos = (moveCursor n s).pos)
    (h : t.stack.length + phaseWork t.phase < s.stack.length + phaseWork s.phase + 2 * n) : work t < work s := by
  rw [work, work, hlen, hpos, moveCursor_toNat hfits]
  omega

/-- One READ: InsufficientBits, or what the step's own writes do. -/
theorem readField_work {n : Nat} {k : BitVec n → State → Result} (hb : busy s = true) (h : readField n s k = .next t)
    (hk : ∀ c, s.pos.toNat + n ≤ s.len.toNat → k c (moveCursor n s) = .next t → work t < work s) : work t < work s := by
  rcases takeField_next h with ⟨-, rfl⟩ | ⟨hfits, -, h⟩
  · exact work_errorEntry hb _ _ _ _
  · exact hk _ hfits h

theorem nibbleRead_work {g : BitVec 4} (hp : s.phase = .litG) (hfits : s.pos.toNat + 4 ≤ s.len.toNat)
    (h : nibbleRead s g (moveCursor 4 s) = .next t) : work t < work s := by
  rcases nibbleRead_next h with ⟨-, rfl⟩ | ⟨-, -, rfl⟩ | ⟨-, -, h⟩
  · exact work_errorEntry (by simp [busy, hp]) _ _ _ _
  · exact work_lt_of_read hfits rfl rfl (by simp [hp, phaseWork])
  · obtain ⟨-, -, rfl⟩ := emit_next h
    exact work_lt_of_read hfits rfl rfl (by simp [hp, phaseWork])

/-- A frame pushed is paid for by its operator's last field. -/
theorem framePushed_work {n : Nat} {m : Framing} {x : BitVec 15} (hb : busy s = true) (hn : 2 ≤ n)
    (hfits : s.pos.toNat + n ≤ s.len.toNat) : work (framePushed s m x (moveCursor n s)) < work s := by
  unfold framePushed
  split
  · exact work_errorEntry hb _ _ _ _
  · have hpos := phaseWork_pos hb
    refine work_lt_of_read hfits rfl rfl ?_
    simp only [pushFrame_stack, moveCursor_stack, List.length_cons, phaseWork]
    omega

/-- NEXT pops a frame, or leaves its phase. -/
theorem stepNext_work (hp : s.phase = .next) (h : stepNext s = .next t) : work t < work s := by
  rcases stepNext_next h with ⟨_, rfl⟩ | ⟨f, rest, hs, ⟨_, rfl⟩ | ⟨_, h⟩ | ⟨c, _, rfl⟩⟩
  · simp [work, hp, phaseWork]
  · simp [work, hp, phaseWork]
  · obtain ⟨-, -, rfl⟩ := emit_next h
    simp [work, hp, hs, phaseWork]
  · exact work_errorEntry (by simp [busy, hp]) _ _ _ _

/-- While busy each engine step leaves less work. -/
theorem engineStep_work (hb : busy s = true) (h : engineStep s = .next t) : work t < work s := by
  cases hp : s.phase
  case hdrV =>
    refine readField_work hb (engineStep_hdrV hp ▸ h) fun c hfits h => ?_
    cases h
    exact work_lt_of_read hfits rfl rfl (by simp [hp, phaseWork])
  case hdrT =>
    refine readField_work hb (engineStep_hdrT hp ▸ h) fun c hfits h => ?_
    rcases tagRead_next h with ⟨-, rfl⟩ | ⟨-, rfl⟩
    · exact work_lt_of_read hfits rfl rfl (by simp [hp, phaseWork])
    · exact work_lt_of_read hfits rfl rfl (by simp [hp, phaseWork])
  case litC =>
    refine readField_work hb (engineStep_litC hp ▸ h) fun c hfits h => ?_
    cases h
    exact work_lt_of_read hfits rfl rfl (by simp [hp, phaseWork])
  case litG => exact readField_work hb (engineStep_litG hp ▸ h) fun c => nibbleRead_work hp
  case opM =>
    refine readField_work hb (engineStep_opM hp ▸ h) fun c hfits h => ?_
    cases h
    refine work_lt_of_read hfits rfl rfl ?_
    split <;> simp [hp, phaseWork]
  case opL =>
    refine readField_work hb (engineStep_opL hp ▸ h) fun c hfits h => ?_
    cases (totalBitsRead_eq _ _ _).symm.trans h
    exact framePushed_work hb (by decide) hfits
  case opN =>
    refine readField_work hb (engineStep_opN hp ▸ h) fun c hfits h => ?_
    cases (childCountRead_eq _ _ _).symm.trans h
    exact framePushed_work hb (by decide) hfits
  case next => exact stepNext_work hp (engineStep_next hp ▸ h)
  all_goals exact absurd hb (by simp [busy, hp])

theorem EngineMoves.work_le {n : Nat} (h : EngineMoves n s t) : work t ≤ work s := by
  refine h.keeps (P := fun u => work u ≤ work s) (fun _ _ _ _ h => h) (fun u v hu e => ?_) le_rfl
  cases hb : busy u
  · cases (engineStep_of_not_busy hb).symm.trans e
    exact hu
  · exact (engineStep_work hb e).le.trans hu

/-! ### The end of the run -/

theorem Undisturbed.tail (h : Undisturbed s) (hs : ¬ Ended s) (hu : step s = .next t) : Undisturbed t :=
  fun k v hv hbefore => h (k + 1) v ((run_cons hu k).trans hv) (hbefore.cons hs hu)

/-- Before the end of an undisturbed run the turn due is none that R322 bars. -/
theorem Undisturbed.head (h : Undisturbed s) (hs : ¬ Ended s) : ¬ HostTurn Disturbs s := by
  refine h 0 s rfl fun j u hj hu => ?_
  obtain rfl : j = 0 := by omega
  cases hu
  exact hs

theorem EndOfRun.cons {k : Nat} {v : State} (h : EndOfRun k t v) (hs : ¬ Ended s) (ht : step s = .next t) :
    EndOfRun (k + 1) s v := by
  obtain ⟨hrun, hend, hbefore⟩ := h
  exact ⟨(run_cons ht k).trans hrun, hend, hbefore.cons hs ht⟩

/-- A step of a run before its end takes a turn that is due, or is an engine step. -/
theorem step_shortens (hb : busy s = true) (hm : ∃ n, EngineMoves n s t) (h : step s = .next t) :
    t.turns.length + work t < s.turns.length + work s := by
  obtain ⟨n, hm⟩ := hm
  have hwork := hm.work_le
  rw [step_turns h]
  cases hturns : s.turns with
  | nil =>
    have hstep := engineStep_work hb ((step_of_no_turns hturns).symm.trans h)
    simpa using hstep
  | cons turn rest =>
    simp only [List.tail_cons, List.length_cons]
    omega

/-- An undisturbed run from a sound state ends, a step for each turn and the work left being enough (R241, R320). -/
theorem exists_endOfRun (hs : Sound s) (hp : s.phase ≠ .idle) (hrun : Undisturbed s) :
    ∃ k t, k ≤ s.turns.length + work s ∧ EndOfRun k s t := by
  induction hm : s.turns.length + work s using Nat.strong_induction_on generalizing s with
  | _ m ih =>
    subst hm
    by_cases hend : Ended s
    · exact ⟨0, s, Nat.zero_le _, rfl, hend, nofun⟩
    have hb : busy s = true := (busy_iff s).mpr ⟨hp, not_or.mp hend⟩
    have hdue := hrun.head hend
    obtain ⟨u, hu⟩ := hs.step_answers hdue
    have hreset : ¬ HostTurn (· = .reset) s := fun ⟨a, rest, hturns, ha⟩ => hdue ⟨a, rest, hturns, .inl ha⟩
    have hmoves := busy_step_moves hb hreset hu
    have hless := step_shortens hb hmoves hu
    obtain ⟨n, hn⟩ := hmoves
    obtain ⟨k, t, hk, ht⟩ := ih _ hless (hn.sound hs) (hn.phase_ne_idle hp) (hrun.tail hend hu) rfl
    exact ⟨k + 1, t, by omega, ht.cons hend hu⟩

end

/-- Settles O35: at START no frame waits to be popped, and the work left is two steps for each bit and one. -/
theorem runsEndWithinTheStepBound : Obligations.RunsEndWithinTheStepBound := by
  rintro s ⟨before, haccepted, hparams, hrun⟩
  have ⟨_, hc, _⟩ := haccepted
  have hsound := sound_launch hparams hc
  cases Accepted_launch haccepted
  obtain ⟨k, t, hk, hend⟩ := exists_endOfRun hsound nofun hrun
  have hwork : work (launch before) = 2 * ((launch before).len.toNat - (launch before).startPos.toNat) + 0 + 1 := rfl
  exact ⟨k, t, by omega, hend⟩

end Sys2Proof
end

section
/-! SUPPORT. Rebuild one record at a time (R238): what Emit of a literal's or an operator's record adds to the packets that the
records of a state leave. -/

namespace Sys2Proof

open Machine

/-! ### The list of records -/

theorem recordsFrom_congr {m m' : List (Nat × NodeRecord)} {i k : Nat}
    (h : ∀ j, i ≤ j → j < i + k → Memory.read m j = Memory.read m' j) : recordsFrom m i k = recordsFrom m' i k := by
  induction k generalizing i with
  | zero => rfl
  | succ k ih => rw [recordsFrom, recordsFrom, h i (by omega) (by omega), ih fun j hi hj => h j (by omega) (by omega)]

theorem recordsFrom_snoc {m : List (Nat × NodeRecord)} {i k : Nat} {rs : List NodeRecord} {r : NodeRecord}
    (h : recordsFrom m i k = some rs) (hr : Memory.read m (i + k) = some r) :
    recordsFrom m i (k + 1) = some (rs ++ [r]) := by
  induction k generalizing i rs with
  | zero =>
    cases h
    rw [Nat.add_zero] at hr
    simp [recordsFrom, hr]
  | succ k ih =>
    rw [recordsFrom] at h
    split at h
    · rename_i r₀ rs₀ hr₀ hrs₀
      cases h
      have hlast : Memory.read m (i + 1 + k) = some r := by rw [← hr]; congr 1; omega
      rw [recordsFrom, hr₀, ih hrs₀ hlast]
      rfl
    · cases h

theorem rebuildAll_snoc {built built' built'' : List Packet} {rs : List NodeRecord} {r : NodeRecord}
    (h : rebuildAll built rs = some built') (hr : rebuildRecord built' r = some built'') :
    rebuildAll built (rs ++ [r]) = some built'' := by
  induction rs generalizing built with
  | nil =>
    cases h
    simp only [List.nil_append, rebuildAll, hr]
  | cons r₀ rs ih =>
    rw [rebuildAll] at h
    split at h
    · rename_i hr₀
      simp only [List.cons_append, rebuildAll, hr₀, ih h]
    · cases h

/-- Rebuild's stack of packets after the records of a state, the newest first (R238). -/
def Builds (s : State) (built : List Packet) : Prop :=
  ∃ rs, recordsFrom s.node 0 s.ncount.toNat = some rs ∧ rebuildAll [] rs = some built

theorem Builds.rebuild {s : State} {t : Packet} (h : Builds s [t]) : rebuild s = some t := by
  obtain ⟨rs, hrs, hbuilt⟩ := h
  simp only [Machine.rebuild, hrs, hbuilt]

theorem builds_launch (s : State) : Builds (launch s) [] := ⟨[], rfl, rfl⟩

/-- Emit adds its record at the end (R228). -/
theorem Builds.emit {s t : State} {r : NodeRecord} {built built' : List Packet} (h : Builds s built)
    (hr : rebuildRecord built r = some built') (e : emit r s = .next t) : Builds t built' := by
  obtain ⟨rs, hrs, hbuilt⟩ := h
  obtain ⟨hroom, -, rfl⟩ := emit_next e
  have hn : (s.ncount + 1).toNat = s.ncount.toNat + 1 :=
    BitVec.toNat_add_of_lt (by have := s.capNode.isLt; simp; omega)
  refine ⟨rs ++ [r], ?_, rebuildAll_snoc hbuilt hr⟩
  rw [hn]
  refine recordsFrom_snoc ?_ ?_
  · rw [← hrs]
    exact recordsFrom_congr fun j _ hj => Memory.read_write_other s.node r (by omega)
  · rw [Nat.zero_add]
    exact Memory.read_write_same s.node _ r

/-- States in the same place of the same decode rebuild to the same packet (R54). -/
theorem Agree.rebuild_eq {u v : State} (h : Agree u v) : rebuild u = rebuild v := by
  have hrecords : recordsFrom u.node 0 u.ncount.toNat = recordsFrom v.node 0 u.ncount.toNat :=
    recordsFrom_congr fun j _ hj => h.records j (by omega)
  rw [rebuild, rebuild, hrecords, h.ncount]

/-! ### The two kinds of record -/

/-- A literal's record is a packet of its own (R229). -/
theorem rebuildRecord_literal (v : Version) (a : LitWord) (built : List Packet) :
    rebuildRecord built (literalRecord v a) = some (.literal v a :: built) := by
  obtain ⟨hliteral, -, hfields⟩ := nodeRecordsHaveTheirLayout
  obtain ⟨hw0, hw1, hw2⟩ := hliteral v a
  obtain ⟨hkind, hversion, -, -, hvalue⟩ := hfields (literalRecord v a)
  have kind_eq : recordKind (literalRecord v a) = 0 := BitVec.eq_of_toNat_eq (by rw [hkind, hw0]; simp)
  have version_eq : recordVersion (literalRecord v a) = v :=
    BitVec.eq_of_toNat_eq (by have := v.isLt; rw [hversion, hw0]; omega)
  have value_eq : recordValue (literalRecord v a) = a := BitVec.eq_of_toNat_eq (by rw [hvalue, hw1, hw2]; omega)
  rw [rebuildRecord, if_pos kind_eq, version_eq, value_eq]

/-- An operator's record takes its children, the newest packets (R230). -/
theorem rebuildRecord_operator {f : Frame} {op : Operation} {cs : List Packet} (hop : opOf f.tag = some op)
    (hn : f.n.toNat = cs.length) (built : List Packet) :
    rebuildRecord (cs.reverse ++ built) (operatorRecord f) = some (.operator f.ver op cs :: built) := by
  obtain ⟨-, hoperator, hfields⟩ := nodeRecordsHaveTheirLayout
  obtain ⟨hw0, -, -⟩ := hoperator f
  obtain ⟨hkind, hversion, htag, hchildren, -⟩ := hfields (operatorRecord f)
  have hver := f.ver.isLt
  have hftag := f.tag.isLt
  have hfn := f.n.isLt
  have kind_eq : recordKind (operatorRecord f) = 1 :=
    BitVec.eq_of_toNat_eq (by rw [hkind, hw0]; change _ = 1; omega)
  have version_eq : recordVersion (operatorRecord f) = f.ver := BitVec.eq_of_toNat_eq (by rw [hversion, hw0]; omega)
  have tag_eq : recordTag (operatorRecord f) = f.tag := BitVec.eq_of_toNat_eq (by rw [htag, hw0]; omega)
  have children_eq : (recordChildren (operatorRecord f)).toNat = cs.length := by rw [hchildren, hw0]; omega
  simp [rebuildRecord, kind_eq, version_eq, tag_eq, children_eq, hop]

end Sys2Proof
end

section
/-! SUPPORT and CLAIMS. The engine realises the functional form (R240). `Realises` relates a state to what the functional form
answers from its cursor; it has a rule for a READ, for one reader after another, and for NEXT, and from these come the readers
and decode_packet, by induction on the functional form's fuel. -/

namespace Sys2Proof

open Machine

/-! ### The relation and its rules -/

/-- The engine is at work on the stream `st`. -/
structure Decodes (st : Stream) (s : State) : Prop where
  sound : Sound s
  stream : streamOf s = st

/-- `s` is in ERROR with `e` in its error registers (R281, R290). -/
def Failed (e : DecodeFailure) (s : State) : Prop :=
  s.phase = .error ∧ (s.errKind, s.errPos.toNat, s.errA.toNat, s.errB.toNat) = failureRegisters e ∧
    s.endPos = s.errPos ∧ s.ncount = 0

/-- Engine steps lead from `s` to where `x` says: for an Ok to its position, in a state that `Q` relates to its value; for an
Err to ERROR with that error. -/
def Realises {α : Type} (st : Stream) (s : State) (x : Decoded α) (Q : α → State → Prop) : Prop :=
  match x with
  | .ok p v => ∃ n t, EngineMoves n s t ∧ Decodes st t ∧ t.pos.toNat = p ∧ Q v t
  | .err e => ∃ n t, EngineMoves n s t ∧ Failed e t
  | .fuelOut => False

section

variable {α β : Type} {st : Stream} {s t : State} {x : Decoded α} {Q Q' : α → State → Prop} {R : β → State → Prop}

theorem Decodes.engineStep (h : Decodes st s) (e : engineStep s = .next t) : Decodes st t where
  sound := h.sound.engineStep e
  stream := by
    have ha := (engineStep_effect e).advances
    rw [← h.stream]
    simp only [streamOf, depthLimit, ha.len, ha.capStack, Stream.mk.injEq, true_and, and_true]
    funext i
    simp only [streamBit, inByte, ha.inMem, ha.resets]

theorem Decodes.len (h : Decodes st s) : st.len = s.len.toNat := by rw [← h.stream]; rfl

theorem Decodes.bit (h : Decodes st s) : st.bit = streamBit s := by rw [← h.stream]; rfl

/-- What a running decode keeps, of the legal state beside `s`: the cursor is inside the stream and every frame before it. -/
theorem Decodes.inside (h : Decodes st s) (hb : busy s = true) :
    s.pos.toNat ≤ st.len ∧ s.len.toNat ≤ 8 * s.capIn.toNat ∧
      ∀ f rest, s.stack = f :: rest → f.start.toNat ≤ s.pos.toNat := by
  rw [h.len]
  obtain ⟨v, hv, hagree, hcapIn, -⟩ := h.sound
  have hr := hv.running rfl ((busy_iff v).mp (hagree.busy_eq ▸ hb))
  have hpos := hr.posLen
  have hcap := hr.lenCap
  have hframes := hr.frames
  rw [hagree.pos, hagree.len] at hpos
  rw [hagree.len, hcapIn] at hcap
  rw [hagree.stack, hagree.pos] at hframes
  refine ⟨hpos, hcap, fun f rest hs => ?_⟩
  rw [hs] at hframes
  obtain ⟨hstart, -⟩ := hframes
  omega

theorem Realises.mono (h : Realises st s x Q) (hQ : ∀ v t, Q v t → Q' v t) : Realises st s x Q' := by
  cases x with
  | ok p v =>
    obtain ⟨n, t, hm, ht, hp, hq⟩ := h
    exact ⟨n, t, hm, ht, hp, hQ v t hq⟩
  | err e => exact h
  | fuelOut => exact h

/-- Engine steps before the first of those counted. -/
theorem Realises.after {n : Nat} (hm : EngineMoves n s t) (h : Realises st t x Q) : Realises st s x Q := by
  cases x with
  | ok p v =>
    obtain ⟨m, u, hu, h⟩ := h
    exact ⟨m + n, u, hm.trans hu, h⟩
  | err e =>
    obtain ⟨m, u, hu, h⟩ := h
    exact ⟨m + n, u, hm.trans hu, h⟩
  | fuelOut => exact h

theorem Realises.step (e : engineStep s = .next t) (h : Realises st t x Q) : Realises st s x Q :=
  .after (.engine e (.rest t)) h

theorem Realises.ok {p : Nat} {v : α} (h : Decodes st s) (hp : s.pos.toNat = p) (hq : Q v s) :
    Realises st s (.ok p v) Q :=
  ⟨0, s, .rest s, h, hp, hq⟩

theorem Realises.failed {e : DecodeFailure} (h : Failed e s) : Realises st s (.err e) Q := ⟨0, s, .rest s, h⟩

/-- x ← e: what follows starts where `x` ends (R15). -/
theorem Realises.bind {k : Nat → α → Decoded β} (h : Realises st s x Q)
    (hk : ∀ t v, x = .ok t.pos.toNat v → Decodes st t → Q v t → Realises st t (k t.pos.toNat v) R) :
    Realises st s (x.bind k) R := by
  cases x with
  | ok p v =>
    obtain ⟨n, t, hm, ht, rfl, hq⟩ := h
    exact (hk t v rfl ht hq).after hm
  | err e => exact h
  | fuelOut => exact h

theorem failed_insufficientBits {n : Nat} (hn : n ≤ 16) (hlen : st.len = s.len.toNat) (hpos : s.pos.toNat ≤ st.len) :
    Failed (.insufficientBits n (st.len - s.pos.toNat) s.pos.toNat) (insufficientBits n s) := by
  have hleft : (s.len - s.pos).toNat = st.len - s.pos.toNat := by rw [hlen] at hpos ⊢; exact BitVec.toNat_sub_of_le hpos
  have hrequested : (BitVec.ofNat 32 n).toNat = n := by rw [BitVec.toNat_ofNat]; omega
  refine ⟨rfl, ?_, rfl, rfl⟩
  simp only [insufficientBits, errorEntry_errKind, errorEntry_errPos, errorEntry_errA, errorEntry_errB, bitsRemaining,
    hleft, hrequested, failureRegisters]

/-- A READ: where the field is short both fail at the cursor; where it fits, what follows starts where the step's own writes
leave the engine (R143, R145, R231). -/
theorem Realises.read {n : Nat} {w : BitVec n → State → Result} {k : Nat → Nat → Decoded β} (h : Decodes st s)
    (hb : busy s = true) (h1 : 1 ≤ n) (h16 : n ≤ 16) (he : Machine.engineStep s = readField n s w)
    (hk : ∀ q c t, q.toNat = s.pos.toNat + n → w c { s with pos := q } = .next t → Decodes st t →
      Realises st t (k q.toNat c.toNat) R) :
    Realises st s ((streamRead st s.pos.toNat n).bind k) R := by
  obtain ⟨hpos, hcap, -⟩ := h.inside hb
  rcases Nat.lt_or_ge st.len (s.pos.toNat + n) with hshort | hfits
  · rw [streamRead_short hshort]
    refine .step (he.trans (takeField_short h1 h16 (h.len ▸ hshort))) (.failed ?_)
    exact failed_insufficientBits h16 h.len hpos
  · have hfits' : s.pos.toNat + n ≤ s.len.toNat := h.len ▸ hfits
    obtain ⟨t, ht⟩ := h.sound.engineStep_answers
    have hw := (he.symm.trans ht)
    rw [readField_fits h1 h16 hfits' hcap] at hw
    have hq := moveCursor_toNat hfits'
    have hnext := hk _ _ t hq hw (h.engineStep ht)
    rw [hq, fieldAt_toNat, ← h.bit] at hnext
    rw [streamRead_fits hfits]
    exact .step ht hnext

end

/-! ### The header -/

/-- The engine after a header, dispatched by its type_tag (R164). -/
def HeaderDone (s : State) (x : Header) (t : State) : Prop :=
  ∃ q, t = (if x.typeTag = Config.literalTag then clearAcc (withHeader .hdrT q x.version x.typeTag s)
    else withHeader .opM q x.version x.typeTag s)

theorem readHeader_realised {st : Stream} {s : State} (h : Decodes st s) (hp : s.phase = .hdrV) :
    Realises st s (readHeader st s.pos.toNat) (HeaderDone s) := by
  refine .read h (by simp [busy, hp]) (by decide) (by decide) (engineStep_hdrV hp) fun q v t _ ht h => ?_
  obtain rfl : t = withHeader .hdrT q v s.ht s := by cases ht; rfl
  refine .read h rfl (by decide) (by decide) rfl fun q g t _ ht h => ?_
  rw [BitVec.ofNat_toNat, BitVec.ofNat_toNat, BitVec.setWidth_eq, BitVec.setWidth_eq]
  rcases tagRead_next ht with ⟨hg, rfl⟩ | ⟨hg, rfl⟩
  · exact .ok h rfl ⟨_, (if_pos hg).symm⟩
  · exact .ok h rfl ⟨_, (if_neg hg).symm⟩

/-! ### A packet's record -/

/-- The packet `x` is complete: NEXT is due, it is counted as a child of the top one of `fs`, and it stands on top of the packets
that the records left before (R228, R238). -/
structure Completes (fs : List Frame) (before : List Packet → Prop) (x : Packet) (t : State) : Prop where
  phase : t.phase = .next
  room : childRoom fs = true
  stack : t.stack = countChild fs
  builds : ∀ built, before built → Builds t (x :: built)

theorem emit_pos {r : NodeRecord} {s t : State} (e : emit r s = .next t) : t.pos = s.pos := by
  obtain ⟨-, -, rfl⟩ := emit_next e
  rfl

/-- Emit completes the packet that its record makes of those before it. -/
theorem completes_emit {r : NodeRecord} {s t : State} {fs : List Frame} {before : List Packet → Prop} {x : Packet}
    (e : emit r s = .next t) (hp : s.phase = .next) (hs : s.stack = fs)
    (hr : ∀ built, before built → ∃ b, Builds s b ∧ rebuildRecord b r = some (x :: built)) :
    Completes fs before x t := by
  obtain ⟨-, hroom, ht⟩ := emit_next e
  refine ⟨(emit_phase e).trans hp, hs ▸ hroom, by rw [ht, hs], fun built hb => ?_⟩
  obtain ⟨b, hbuilds, hrecord⟩ := hr built hb
  exact hbuilds.emit hrecord e

/-! ### Literals -/

/-- The engine inside a group, its continuation bit read (R177). -/
def insideGroup (q : Word) (c : BitVec 1) (s : State) : State := { s with phase := .litG, pos := q, cont := c }

/-- groups(p, acc), whose accumulator is ACC (R171, R177, R178); each group takes 5 bits and one unit of fuel. -/
theorem readGroups_realised {st : Stream} {fuel : Nat} {s : State} (h : Decodes st s) (hp : s.phase = .litC)
    (hfuel : st.len < fuel + s.pos.toNat) :
    Realises st s (readGroups st fuel s.pos.toNat s.acc.toNat)
      (fun v => Completes s.stack (Builds s) (.literal s.hv (BitVec.ofNat 64 v))) := by
  have hb : busy s = true := by simp [busy, hp]
  induction fuel generalizing s with
  | zero =>
    obtain ⟨hpos, -⟩ := h.inside hb
    omega
  | succ fuel ih =>
    refine .read h hb (by decide) (by decide) (engineStep_litC hp) fun q₁ c t hq₁ ht h => ?_
    obtain rfl : t = insideGroup q₁ c s := by cases ht; rfl
    refine .read h rfl (by decide) (by decide) rfl fun q g t (hq : q.toNat = q₁.toNat + 4)
      (ht : nibbleRead (insideGroup q₁ c s) g (insideGroup q c s) = .next t) h => ?_
    change Realises st t (if 2 ^ Config.litWidth ≤ accumulate s.acc g then .err (.literalOverflow q₁.toNat) else
      if c.toNat = 1 then readGroups st fuel q.toNat (accumulate s.acc g) else .ok q.toNat (accumulate s.acc g)) _
    rcases nibbleRead_next ht with ⟨hover, rfl⟩ | ⟨hless, rfl, rfl⟩ | ⟨hless, hc, e⟩
    · rw [if_pos (by exact hover)]
      exact .failed ⟨rfl, rfl, rfl, rfl⟩
    · have hnext := ih h rfl (by simp only [insideGroup]; omega) rfl
      have hacc : (BitVec.ofNat 64 (accumulate s.acc g)).toNat = accumulate s.acc g :=
        (BitVec.toNat_ofNat ..).trans (Nat.mod_eq_of_lt hless)
      rw [if_neg (Nat.not_le.mpr (by exact hless)), if_pos (by decide), ← hacc]
      exact hnext
    · have hcont : c = 0 := (bitVec_one_cases c).resolve_right hc
      rw [if_neg (Nat.not_le.mpr (by exact hless)), if_neg (by rw [hcont]; decide)]
      exact .ok h (by rw [emit_pos e]; rfl)
        (completes_emit e rfl rfl fun built hb => ⟨built, hb, rebuildRecord_literal _ _ built⟩)

/-! ### Children -/

/-- What the children of an operator are decoded with: each takes bits, and from a head at depth `d`, no further back than `lo`,
the engine realises it. -/
structure ChildRealised (st : Stream) (d lo : Nat) (child : Nat → Decoded Packet) : Prop where
  forward : ∀ {p q c}, child p = .ok q c → p < q
  realised : ∀ {s}, Decodes st s → s.phase = .hdrV → s.stack.length = d → lo ≤ s.pos.toNat →
    Realises st s (child s.pos.toNat) (Completes s.stack (Builds s))

/-- The engine is at NEXT over the frame `f`, whose children so far are `cs`: they stand on top of what `before` allows. -/
structure BetweenChildren (f : Frame) (rest : List Frame) (before : List Packet → Prop) (cs : List Packet) (s : State) :
    Prop where
  phase : s.phase = .next
  stack : s.stack = f :: rest
  count : f.n.toNat = cs.length
  builds : ∀ built, before built → Builds s (cs.reverse ++ built)

/-- One child counted (R228). -/
def counted (f : Frame) : Frame := { f with n := f.n + 1 }

section

variable {st : Stream} {d lo : Nat} {child : Nat → Decoded Packet} {s : State} {f : Frame} {rest : List Frame}
  {before : List Packet → Prop} {cs : List Packet} {op : Operation}

theorem counted_n (h : childRoom (f :: rest) = true) : (counted f).n.toNat = f.n.toNat + 1 := by
  have hless : f.n.toNat < 4095 := decide_eq_true_eq.mp h
  exact BitVec.toNat_add_of_lt (by simp; omega)

/-- NEXT starts a child, and the child ends at NEXT (R235). -/
theorem child_realised (hchild : ChildRealised st d lo child) (h : Decodes st s)
    (hs : BetweenChildren f rest before cs s) (hd : rest.length + 1 = d) (hlo : lo ≤ s.pos.toNat)
    (hmore : frameStatus f s.pos = .more) :
    Realises st s (child s.pos.toNat) fun c => BetweenChildren (counted f) rest before (cs ++ [c]) := by
  have hstep := (engineStep_next hs.phase).trans (stepNext_more hs.stack hmore)
  have hdepth : s.stack.length = d := by rw [hs.stack]; exact hd
  refine .step hstep (.mono (hchild.realised (h.engineStep hstep) rfl hdepth hlo) fun c t hc => ?_)
  have hroom := hc.room
  have hstack := hc.stack
  simp only [hs.stack] at hroom hstack
  refine ⟨hc.phase, hstack, ?_, fun built hb => ?_⟩
  · rw [counted_n hroom, hs.count, List.length_append, List.length_singleton]
  · rw [List.reverse_append]
    exact hc.builds _ (hs.builds built hb)

/-- NEXT pops a frame whose children are all there (R234). -/
theorem pop_realised (h : Decodes st s) (hs : BetweenChildren f rest before cs s) (hop : opOf f.tag = some op)
    (hcomplete : frameStatus f s.pos = .complete) :
    Realises st s (.ok s.pos.toNat cs) fun cs => Completes rest before (.operator f.ver op cs) := by
  obtain ⟨t, ht⟩ := h.sound.engineStep_answers
  have e := ht
  rw [engineStep_next hs.phase, stepNext_complete hs.phase hs.stack hcomplete] at e
  refine .step ht (.ok (h.engineStep ht) (by rw [emit_pos e]) ?_)
  exact completes_emit e hs.phase rfl fun built hb => ⟨_, hs.builds built hb, rebuildRecord_operator hop hs.count built⟩

/-- The last child has passed the target: MalformedLength in both (R193, R236). -/
theorem overshoot_realised {α : Type} {Q : α → State → Prop} (hs : BetweenChildren f rest before cs s)
    (hm : f.mode = .totalLength) (hover : f.target.toNat < s.pos.toNat - f.start.toNat) :
    Realises st s (.err (.malformedLength f.target.toNat (s.pos.toNat - f.start.toNat) s.pos.toNat)) Q := by
  refine .step ((engineStep_next hs.phase).trans (stepNext_overshoot hs.stack (frameStatus_overshoot hm hover)))
    (.failed ⟨rfl, ?_, rfl, rfl⟩)
  have hpos := s.pos.isLt
  have htarget := f.target.isLt
  have expected_eq : (f.target.setWidth 32).toNat = f.target.toNat := by rw [BitVec.toNat_setWidth]; omega
  have actual_eq : (BitVec.ofNat 32 (s.pos.toNat - f.start.toNat)).toNat = s.pos.toNat - f.start.toNat := by
    rw [BitVec.toNat_ofNat]
    omega
  simp only [malformedLength, errorEntry_errKind, errorEntry_errPos, errorEntry_errA, errorEntry_errB, expected_eq,
    actual_eq, failureRegisters]

/-- Total-length mode (R193, R199): the children end at most on the target, and each takes a unit of fuel. -/
theorem lenChildren_realised {fuel : Nat} (hchild : ChildRealised st d lo child) (h : Decodes st s)
    (hs : BetweenChildren f rest before cs s) (hd : rest.length + 1 = d) (hlo : lo ≤ s.pos.toNat)
    (hm : f.mode = .totalLength) (hop : opOf f.tag = some op)
    (htarget : s.pos.toNat - f.start.toNat ≤ f.target.toNat) (hfuel : st.len < fuel + s.pos.toNat) :
    Realises st s (lenChildren child f.target.toNat f.start.toNat fuel s.pos.toNat cs)
      fun cs => Completes rest before (.operator f.ver op cs) := by
  induction fuel generalizing s f cs with
  | zero =>
    obtain ⟨hpos, -⟩ := h.inside (by simp [busy, hs.phase])
    omega
  | succ fuel ih =>
    rw [lenChildren]
    split
    · rename_i hless
      refine (child_realised hchild h hs hd hlo (frameStatus_more (.inl ⟨hm, hless⟩))).bind fun t c hc ht hq => ?_
      have hforward := hchild.forward hc
      split
      · exact overshoot_realised (f := counted f) hq hm ‹_›
      · exact ih (f := counted f) ht hq (by omega) hm hop (by simp only [counted]; omega) (by omega)
    · exact pop_realised h hs hop (frameStatus_complete (.inl ⟨hm, by omega⟩))

/-- Count mode (R193, R199). -/
theorem cntChildren_realised {k : Nat} (hchild : ChildRealised st d lo child) (h : Decodes st s)
    (hs : BetweenChildren f rest before cs s) (hd : rest.length + 1 = d) (hlo : lo ≤ s.pos.toNat)
    (hm : f.mode = .count) (hop : opOf f.tag = some op) (htarget : f.target.toNat = cs.length + k) :
    Realises st s (cntChildren child k s.pos.toNat cs)
      fun cs => Completes rest before (.operator f.ver op cs) := by
  have hcount := hs.count
  induction k generalizing s f cs with
  | zero => exact pop_realised h hs hop (frameStatus_complete (.inr ⟨hm, by omega⟩))
  | succ k ih =>
    refine (child_realised hchild h hs hd hlo (frameStatus_more (.inr ⟨hm, by omega⟩))).bind fun t c hc ht hq => ?_
    have hforward := hchild.forward hc
    refine ih (f := counted f) ht hq (by omega) hm hop ?_ hq.count
    rw [List.length_append, List.length_singleton]
    exact htarget.trans (by omega)

end

/-! ### Operators -/

section

variable {st : Stream} {lo : Nat} {child : Nat → Decoded Packet} {s : State} {op : Operation}

/-- R193's d ≥ STACK_DEPTH is the full stack (R203). -/
theorem Decodes.tooDeep (h : Decodes st s) :
    tooDeep st s.stack.length = if stackFull s then some s.capStack.toNat else none := by
  rw [← h.stream]
  by_cases hc : s.capStack = 0
  · simp [Machine.tooDeep, streamOf, stackFull, depthLimit, hc]
  · simp only [Machine.tooDeep, streamOf, stackFull, depthLimit, if_neg hc, decide_eq_true_eq]

/-- DepthExceeded at the length or count field (R203, R281). -/
theorem failed_depthExceeded (s : State) : Failed (.depthExceeded s.capStack.toNat s.pos.toNat) (depthExceeded s) :=
  ⟨rfl, rfl, rfl, rfl⟩

/-- A frame just pushed has no child yet. -/
theorem betweenChildren_openFrame (m : Framing) (n : BitVec 15) (s : State) :
    BetweenChildren ⟨s.hv, s.ht, m, n, s.pos, 0⟩ s.stack (Builds s) [] (openFrame m n s) :=
  ⟨rfl, rfl, rfl, fun _ hb => hb⟩

theorem framePushed_of_full {before : State} {m : Framing} {n : BitVec 15} (h : stackFull s = true) :
    framePushed before m n s = depthExceeded before := if_pos h

theorem framePushed_of_not_full {before : State} {m : Framing} {n : BitVec 15} (h : stackFull s = false) :
    framePushed before m n s = openFrame m n s := if_neg (ne_true_of_eq_false h)

/-- The mode bit, the length or count field with the depth check, and the children (R193, R196 to R198). -/
theorem readOperator_realised (hchild : ChildRealised st (s.stack.length + 1) lo child) (h : Decodes st s)
    (hp : s.phase = .opM) (hlo : lo ≤ s.pos.toNat) (hop : opOf s.ht = some op) :
    Realises st s (readOperator st child s.pos.toNat s.ht s.stack.length)
      fun r => Completes s.stack (Builds s) (.operator s.hv r.2 r.1) := by
  have hdeep := h.tooDeep
  refine .read h (by simp [busy, hp]) (by decide) (by decide) (engineStep_opM hp) fun q m t hq ht h => ?_
  obtain rfl : t = withHeader (if m = 0 then .opL else .opN) q s.hv s.ht s := by cases ht; rfl
  refine Realises.bind (Q := fun cs => Completes s.stack (Builds s) (.operator s.hv op cs)) ?_ fun t cs _ ht hc => ?_
  · rw [hdeep]
    rcases bitVec_one_cases m with rfl | rfl
    · rw [if_pos (by decide)]
      refine .read h rfl (by decide) (by decide) rfl fun q' n t (hq' : q'.toNat = q.toNat + 15) ht h => ?_
      cases (totalBitsRead_eq _ _ _).symm.trans ht
      cases hfull : stackFull s
      · rw [framePushed_of_not_full (by exact hfull)] at h ⊢
        exact lenChildren_realised hchild h (betweenChildren_openFrame ..) rfl (show lo ≤ q'.toNat by omega) rfl hop
          (show q'.toNat - q'.toNat ≤ n.toNat by omega) (show st.len < st.len + 1 + q'.toNat by omega)
      · rw [framePushed_of_full (by exact hfull)]
        exact .failed (failed_depthExceeded _)
    · rw [if_neg (by decide)]
      refine .read h rfl (by decide) (by decide) rfl fun q' n t (hq' : q'.toNat = q.toNat + 11) ht h => ?_
      cases (childCountRead_eq _ _ _).symm.trans ht
      cases hfull : stackFull s
      · rw [framePushed_of_not_full (by exact hfull)] at h ⊢
        have htarget : (n.setWidth 15).toNat = 0 + n.toNat := by rw [BitVec.toNat_setWidth]; omega
        exact cntChildren_realised hchild h (betweenChildren_openFrame ..) rfl (show lo ≤ q'.toNat by omega) rfl hop
          htarget
      · rw [framePushed_of_full (by exact hfull)]
        exact .failed (failed_depthExceeded _)
  · rw [hop]
    exact .ok ht rfl hc

end

/-! ### Packets -/

theorem exists_opOf {t : Tag} (h : t ≠ Config.literalTag) : ∃ op, opOf t = some op := by
  refine Option.isSome_iff_exists.mp ?_
  revert t
  decide

/-- decode_packet(p, d) at depth |STACK| (R220, R240): each nesting takes bits and a unit of fuel. -/
theorem decodePacket_realised {st : Stream} {fuel : Nat} {s : State} (h : Decodes st s) (hp : s.phase = .hdrV)
    (hfuel : st.len < fuel + s.pos.toNat) :
    Realises st s (decodePacket st fuel s.pos.toNat s.stack.length) (Completes s.stack (Builds s)) := by
  induction fuel generalizing s with
  | zero =>
    obtain ⟨hpos, -⟩ := h.inside (by simp [busy, hp])
    omega
  | succ fuel ih =>
    rw [decodePacket]
    refine (readHeader_realised h hp).bind fun t x hx ht ⟨q, hq⟩ => ?_
    obtain ⟨hpos, -⟩ := readHeader_ok hx
    by_cases hlit : x.typeTag = Config.literalTag
    · rw [if_pos hlit] at hq ⊢
      subst hq
      refine (readGroups_realised ht rfl (by omega)).bind fun u v _ hu hc => ?_
      exact .ok hu rfl hc
    · rw [if_neg hlit] at hq ⊢
      subst hq
      obtain ⟨op, hop⟩ := exists_opOf hlit
      have hchild : ChildRealised st (s.stack.length + 1) q.toNat fun p => decodePacket st fuel p (s.stack.length + 1) :=
        { forward := fun hc => by
            obtain ⟨⟨hspan, -⟩, -⟩ := decodePacket_ok hc
            omega
          realised := fun hs hp hdepth hlo => hdepth ▸ ih hs hp (by
            have hq : q.toNat = s.pos.toNat + 6 := hpos
            omega) }
      have hread := readOperator_realised (s := withHeader .opM q x.version x.typeTag s) hchild ht rfl le_rfl hop
      exact hread.bind fun u r _ hu hc => .ok hu rfl hc

/-! ### The decode of one START -/

theorem decodes_launch {s : State} (hparams : ParamsLegal s) (hc : configLegal s = true) :
    Decodes (streamOf (launch s)) (launch s) :=
  ⟨sound_launch hparams hc, rfl⟩

/-- decode_packet(START_POS, 0) from a launch (R221). -/
theorem topDecode_realised {s : State} (hparams : ParamsLegal s) (hc : configLegal s = true) :
    Realises (streamOf (launch s)) (launch s) (topDecode (launch s)) (Completes [] (Builds (launch s))) :=
  decodePacket_realised (decodes_launch hparams hc) rfl
    (show (launch s).len.toNat < (launch s).len.toNat + 1 + (launch s).pos.toNat by omega)

/-- A launch agrees with itself. -/
theorem agree_launch_self (s : State) : Agree (launch s) (launch s) := agree_launch rfl rfl rfl fun _ _ _ => rfl

theorem Failed.of_agree {e : DecodeFailure} {u v : State} (hu : Failed e u) (h : Agree u v) : Failed e v := by
  obtain ⟨hphase, hregs, hend, hcount⟩ := hu
  obtain ⟨ephase, eend, ecount, ekind, epos, ea, eb, -⟩ := h.sameDecode
  exact ⟨ephase ▸ hphase, by rw [← ekind, ← epos, ← ea, ← eb, hregs], by rw [← eend, ← epos, hend], ecount ▸ hcount⟩

/-- The end of a run as the functional form answers (R240): DONE with the end position and, rebuilt, the tree, or ERROR with the
error. -/
def Answered (x : Decoded Packet) (t : State) : Prop :=
  match x with
  | .ok p tree => t.phase = .done ∧ t.endPos.toNat = p ∧ rebuild t = some tree
  | .err e => Failed e t
  | .fuelOut => False

theorem Answered.ended {x : Decoded Packet} {t : State} (h : Answered x t) : Ended t := by
  cases x with
  | ok p tree =>
    obtain ⟨hdone, -⟩ := h
    exact .inl hdone
  | err e =>
    obtain ⟨herr, -⟩ := h
    exact .inr herr
  | fuelOut => cases h

theorem Answered.of_agree {x : Decoded Packet} {u v : State} (hu : Answered x u) (h : Agree u v) : Answered x v := by
  cases x with
  | ok p tree =>
    obtain ⟨hdone, hend, htree⟩ := hu
    obtain ⟨ephase, eend, -⟩ := h.sameDecode
    exact ⟨ephase ▸ hdone, eend ▸ hend, h.rebuild_eq ▸ htree⟩
  | err e => exact Failed.of_agree hu h
  | fuelOut => exact hu

/-- Engine steps lead from a launch to the end that decode_packet(START_POS, 0) answers: after its packet NEXT finds no frame
and ends the decode (R221, R232). -/
theorem topDecode_answered {s : State} (hparams : ParamsLegal s) (hc : configLegal s = true) :
    ∃ n t, EngineMoves n (launch s) t ∧ Answered (topDecode (launch s)) t := by
  have hreal := topDecode_realised hparams hc
  cases htop : topDecode (launch s) with
  | ok p tree =>
    rw [htop] at hreal
    obtain ⟨n, t, ht, -, hpos, hcompletes⟩ := hreal
    have hlast := (engineStep_next hcompletes.phase).trans (stepNext_empty hcompletes.stack)
    have hbuilds : Builds t [tree] := hcompletes.builds [] (builds_launch s)
    exact ⟨_, _, ht.trans (.engine hlast (.rest _)), rfl, hpos, hbuilds.rebuild⟩
  | err e =>
    rw [htop] at hreal
    exact hreal
  | fuelOut =>
    rw [htop] at hreal
    exact hreal.elim

/-- Settles O34: the run ends (`exists_endOfRun`) after some engine steps, the engine steps of `topDecode_answered` end too, and
two such runs of one launch end alike. -/
theorem engineRealisesDecodePacket : Obligations.EngineRealisesDecodePacket := by
  rintro s ⟨before, haccepted, hparams, hrun⟩
  have ⟨_, hc, _⟩ := haccepted
  cases Accepted_launch haccepted
  obtain ⟨k, t, -, hend⟩ := exists_endOfRun (sound_launch hparams hc) nofun hrun
  have ⟨ht, hended, hbefore⟩ := hend
  obtain ⟨m, hm⟩ := run_moves (s := launch before) nofun hrun hbefore ht
  obtain ⟨n, u, hn, hu⟩ := topDecode_answered hparams hc
  have hanswered := hu.of_agree ((agree_launch_self before).ended hn hm hu.ended hended)
  revert hanswered
  cases topDecode (launch before) with
  | ok p tree => exact fun hanswered => ⟨k, t, hend, hanswered⟩
  | err e => exact fun hanswered => ⟨k, t, hend, hanswered⟩
  | fuelOut => exact id

end Sys2Proof
end

section
/-! SUPPORT and CLAIMS. The host's commands: what START does in each of its three cases, a result register read while busy, and a
byte written to input memory (R261 to R267, R314, R315). -/

namespace Sys2Proof

open Machine

/-! ### START -/

theorem exec_start (reserved : BitVec 31) (s : State) : exec (.start reserved) s = execStart reserved s := rfl

/-- The configuration START accepts (R262). -/
theorem configLegal_iff (s : State) :
    configLegal s = true ↔ s.len.toNat ≤ 8 * s.capIn.toNat ∧ s.startPos.toNat ≤ s.len.toNat := by
  simp only [configLegal, Bool.and_eq_true, decide_eq_true_eq]

theorem configLegal_eq_false_iff (s : State) :
    configLegal s = false ↔ 8 * s.capIn.toNat < s.len.toNat ∨ s.len.toNat < s.startPos.toNat := by
  rw [← Bool.not_eq_true, configLegal_iff, not_and_or, not_le, not_le]

/-- A START while busy is ignored (R263). -/
theorem execStart_of_busy {s : State} (hb : busy s = true) (reserved : BitVec 31) : execStart reserved s = .next s := by
  rw [execStart, if_pos hb]

/-- An accepted START begins a new decode (R261). -/
theorem execStart_of_legal {s : State} (hb : busy s = false) (hc : configLegal s = true) (reserved : BitVec 31) :
    execStart reserved s = .next (launch s) := by
  rw [execStart, if_neg (ne_true_of_eq_false hb), if_pos hc]

/-- A START with an illegal configuration takes ConfigInvalid (R262). -/
theorem execStart_of_illegal {s : State} (hb : busy s = false) (hc : configLegal s = false) (reserved : BitVec 31) :
    execStart reserved s = .next (configInvalid s) := by
  rw [execStart, if_neg (ne_true_of_eq_false hb), if_neg (ne_true_of_eq_false hc)]

/-- ConfigInvalid is error entry at START_POS (R262, R281). -/
theorem entersError_configInvalid (s : State) :
    EntersError (configInvalid s) s .configInvalid s.startPos s.len s.startPos := rfl

/-- Settles O22: `launch`, by `execStart_of_legal`. -/
theorem startBeginsANewDecode : Obligations.StartBeginsANewDecode := by
  intro s reserved hphase hlen hstart
  exact execStart_of_legal ((not_busy_iff s).mpr hphase) ((configLegal_iff s).mpr ⟨hlen, hstart⟩) reserved

/-- Settles O23: `execStart_of_busy` and `execStart_of_illegal`. -/
theorem startIsIgnoredBusyAndChecksItsConfiguration : Obligations.StartIsIgnoredBusyAndChecksItsConfiguration := by
  intro s reserved
  refine ⟨fun hb => execStart_of_busy hb reserved, fun hb hbad => ⟨configInvalid s, ?_, entersError_configInvalid s⟩⟩
  exact execStart_of_illegal hb ((configLegal_eq_false_iff s).mpr hbad) reserved

/-- Settles O31: of the three answers of `execStart_cases` the first is the same state, the second is not in ERROR, and the third
is error entry. -/
theorem startFrame : Obligations.StartFrame := by
  intro reserved s t h
  rw [exec_start] at h
  rcases execStart_cases reserved s with ⟨-, e⟩ | ⟨-, -, e⟩ | ⟨-, -, e⟩ <;> cases e.symm.trans h <;>
    refine ⟨fun _ => rfl, fun _ => rfl, fun _ => rfl, rfl, rfl, rfl, rfl, rfl, rfl, rfl, rfl, rfl, fun hp => ?_⟩
  · exact ⟨rfl, rfl, rfl, rfl, rfl⟩
  · cases hp
  · exact ⟨rfl, rfl, rfl, rfl, rfl⟩

/-! ### A result register read while busy -/

/-- A read of a result register while busy (R315). -/
theorem readReg_any {reg : Nat} {r : Reg} {s : State} (hr : regAt reg = some r) (hres : isResult r = true)
    (hb : busy s = true) : readReg reg s = returnAny s := by
  simp [readReg, hr, hres, hb]

/-- Settles O55: each result register by its offset, with `readReg_any` for the read. -/
theorem busyResultReadsReturnAnyValue : Obligations.BusyResultReadsReturnAnyValue := by
  intro s reg hb hmem
  obtain ⟨r, hr, hres⟩ : ∃ r, regAt reg = some r ∧ isResult r = true := by
    fin_cases hmem <;> exact ⟨_, rfl, rfl⟩
  exact congrArg _ (readReg_any hr hres hb)

/-! ### A byte written to input memory -/

/-- Input memory after one byte is stored (R72, R267). -/
theorem inByte_write (s : State) (k j : Nat) (b : Byte) :
    inByte { s with inMem := Memory.write s.inMem k b } j = if j = k then b else inByte s j := by
  simp only [inByte, Memory.read_write]
  split <;> rfl

/-- A write past the memory is ignored, busy or not (R267; log 10). -/
theorem writeIn_of_past {s : State} {k : Nat} (hk : s.capIn.toNat ≤ k) (b : Byte) : writeIn k b s = .next s := by
  rw [writeIn, if_pos hk]

/-- A write into the memory while busy has no move (R314; log 9). -/
theorem writeIn_of_busy {s : State} {k : Nat} (hk : k < s.capIn.toNat) (hb : busy s = true) (b : Byte) :
    writeIn k b s = .refused .inputWriteWhileBusy := by
  rw [writeIn, if_neg (not_le.mpr hk), if_pos hb]

/-- A write into the memory outside the busy set stores the byte (R267). -/
theorem writeIn_of_not_busy {s : State} {k : Nat} (hk : k < s.capIn.toNat) (hb : busy s = false) (b : Byte) :
    writeIn k b s = .next { s with inMem := Memory.write s.inMem k b } := by
  rw [writeIn, if_neg (not_le.mpr hk), if_neg (ne_true_of_eq_false hb)]

/-- Settles O57: the three cases of `writeIn`, with `inByte_write` for the bytes of the store. -/
theorem inputWritesStoreOneByte : Obligations.InputWritesStoreOneByte := by
  intro s k b
  refine ⟨fun hb hk => ⟨_, writeIn_of_not_busy hk hb b, rfl, ?_, fun j hj => ?_⟩, fun hk => writeIn_of_past hk b,
    fun hb hk => writeIn_of_busy hk hb b⟩
  · rw [inByte_write, if_pos rfl]
  · rw [inByte_write, if_neg hj]

end Sys2Proof
end

section
/-! CLAIMS. Taking an error: an engine step that ends in ERROR has made error entry at the cursor and nothing else (R290), and
InvalidTypeTag is no error of any step (R285). -/

namespace Sys2Proof

open Machine

/-! ### Engine steps that end in ERROR -/

/-- `t` is `s` after error entry at the cursor, with an error to report (R290). -/
def RaisesAtCursor (s t : State) : Prop := ∃ e a b, e ≠ .none ∧ t = errorEntry e s.pos a b s

theorem raisesAtCursor_errorEntry {s : State} {e : ErrorKind} (he : e ≠ .none) (a b : Word) :
    RaisesAtCursor s (errorEntry e s.pos a b s) :=
  ⟨e, a, b, he, rfl⟩

theorem RaisesAtCursor.entersError {s t : State} (h : RaisesAtCursor s t) :
    t.errKind ≠ .none ∧ EntersError t s t.errKind s.pos t.errA t.errB := by
  obtain ⟨e, a, b, he, rfl⟩ := h
  exact ⟨he, rfl⟩

section

variable {s t : State}

/-- A failing READ raises InsufficientBits (R143), or the step's own writes fail after it. -/
theorem readField_raises {n : Nat} {k : BitVec n → State → Result} (h : readField n s k = .next t)
    (hk : ∀ c, k c (moveCursor n s) = .next t → RaisesAtCursor s t) : RaisesAtCursor s t := by
  rcases takeField_next h with ⟨-, rfl⟩ | ⟨-, -, h⟩
  · exact raisesAtCursor_errorEntry (by decide) _ _
  · exact hk _ h

theorem versionRead_phase {v : Version} (h : versionRead v s = .next t) : t.phase = .hdrT := by
  cases h
  rfl

theorem tagRead_phase_ne_error {g : Tag} (h : tagRead g s = .next t) : t.phase ≠ .error := by
  rcases tagRead_next h with ⟨-, rfl⟩ | ⟨-, rfl⟩ <;> nofun

theorem continuationRead_phase {c : BitVec 1} (h : continuationRead c s = .next t) : t.phase = .litG := by
  cases h
  rfl

theorem modeRead_phase_ne_error {m : BitVec 1} (h : modeRead m s = .next t) : t.phase ≠ .error := by
  cases h
  dsimp only
  split <;> nofun

/-- LIT_G's writes fail by LiteralOverflow only (R175). -/
theorem nibbleRead_raises {u : State} {g : BitVec 4} (h : nibbleRead s g u = .next t) (ht : t.phase = .error) :
    RaisesAtCursor s t := by
  rcases nibbleRead_next h with ⟨-, rfl⟩ | ⟨-, -, rfl⟩ | ⟨-, -, h⟩
  · exact raisesAtCursor_errorEntry (by decide) _ _
  · cases ht
  · cases (emit_phase h).symm.trans ht

/-- OP_L's and OP_N's writes fail by DepthExceeded only (R203). -/
theorem framePushed_raises {u : State} {m : Framing} {n : BitVec 15} (ht : (framePushed s m n u).phase = .error) :
    RaisesAtCursor s (framePushed s m n u) := by
  cases hfull : stackFull u
  · rw [framePushed_of_not_full hfull] at ht
    cases ht
  · rw [framePushed_of_full hfull]
    exact raisesAtCursor_errorEntry (by decide) _ _

/-- NEXT fails by MalformedLength only (R236). -/
theorem stepNext_raises (h : stepNext s = .next t) (ht : t.phase = .error) : RaisesAtCursor s t := by
  rcases stepNext_next h with ⟨-, rfl⟩ | ⟨f, rest, -, ⟨-, rfl⟩ | ⟨-, h⟩ | ⟨c, -, rfl⟩⟩
  · cases ht
  · cases ht
  · cases (emit_phase h).symm.trans ht
  · exact raisesAtCursor_errorEntry (by decide) _ _

/-- A busy engine step into ERROR fails in its READ or in the one check its phase makes (R143, R175, R203, R236). -/
theorem engineStep_raises (hb : busy s = true) (h : engineStep s = .next t) (ht : t.phase = .error) :
    RaisesAtCursor s t := by
  cases hp : s.phase
  case hdrV =>
    exact readField_raises (engineStep_hdrV hp ▸ h) fun _ h => nomatch (versionRead_phase h).symm.trans ht
  case hdrT => exact readField_raises (engineStep_hdrT hp ▸ h) fun _ h => absurd ht (tagRead_phase_ne_error h)
  case litC =>
    exact readField_raises (engineStep_litC hp ▸ h) fun _ h => nomatch (continuationRead_phase h).symm.trans ht
  case litG => exact readField_raises (engineStep_litG hp ▸ h) fun _ h => nibbleRead_raises h ht
  case opM => exact readField_raises (engineStep_opM hp ▸ h) fun _ h => absurd ht (modeRead_phase_ne_error h)
  case opL =>
    refine readField_raises (engineStep_opL hp ▸ h) fun _ h => ?_
    cases (totalBitsRead_eq _ _ _).symm.trans h
    exact framePushed_raises ht
  case opN =>
    refine readField_raises (engineStep_opN hp ▸ h) fun _ h => ?_
    cases (childCountRead_eq _ _ _).symm.trans h
    exact framePushed_raises ht
  case next => exact stepNext_raises (engineStep_next hp ▸ h) ht
  all_goals exact absurd hb (by simp [busy, hp])

end

/-- Settles O15: each busy phase's own failure, in `engineStep_raises`. -/
theorem failingEngineStepsWriteOnlyTheErrorState : Obligations.FailingEngineStepsWriteOnlyTheErrorState :=
  fun _ _ hb h ht => (engineStep_raises hb h ht).entersError

/-! ### InvalidTypeTag -/

/-- No engine step raises InvalidTypeTag: of its answers only `fails` writes ERR_KIND (R285). -/
theorem EngineEffect.errKind_ne_invalidTypeTag {s t : State} (h : EngineEffect s t) (hs : s.errKind ≠ .invalidTypeTag) :
    t.errKind ≠ .invalidTypeTag := by
  cases h with
  | rests | reads | goesOn | emitsLiteral | emitsOperator => exact hs
  | fails e a b _ he => exact he.2

theorem EngineMoves.errKind_ne_invalidTypeTag {n : Nat} {s t : State} (h : EngineMoves n s t)
    (hs : s.errKind ≠ .invalidTypeTag) : t.errKind ≠ .invalidTypeTag :=
  h.keeps (P := fun u => u.errKind ≠ .invalidTypeTag) (fun _ _ _ _ h => h)
    (fun _ _ h e => (engineStep_effect e).errKind_ne_invalidTypeTag h) hs

/-- Of the host's actions START clears ERR_KIND or raises ConfigInvalid, and reset clears it (R55, R261, R262). -/
theorem HostEffect.errKind_ne_invalidTypeTag {s t : State} {a : HostAction} (h : HostEffect s a t)
    (hs : s.errKind ≠ .invalidTypeTag) : t.errKind ≠ .invalidTypeTag := by
  cases h with
  | recorded | configured | stored => exact hs
  | started | rejected | reset => nofun

/-- Settles O49: neither the engine nor the host raises it. -/
theorem invalidTypeTagIsNeverRaised : Obligations.InvalidTypeTagIsNeverRaised := by
  intro s t hs h
  rcases step_cases h with ⟨n, hm⟩ | ⟨a, rest, -, he⟩
  · exact hm.errKind_ne_invalidTypeTag hs
  · exact he.errKind_ne_invalidTypeTag hs

end Sys2Proof
end
